-- ==== Sys2Proof/Word.lean ====
section
/-! DEFINITION. The word types of the block (spec/00_scope.md R7, R9; spec/20_memory.md R70). -/

namespace Sys2Proof

/-- A byte of a buffer: 8 bits (R70). -/
abbrev Byte := BitVec 8

/-- A host-visible register or a command word: 32 bits (R7, R22, R100). -/
abbrev Word := BitVec 32

end Sys2Proof
end

