-- ==== Sys2Proof/Syntax.lean ====
section
/-! DEFINITION. The commands of the block: one constructor for every row of spec/opcode_table.json
(spec/30_encoding.md R101, R102). The command word has no operand fields (R104); only the illegal words keep
their bits, so that the encoder can give the word back. -/

namespace Sys2Proof

/-- A command word, decoded. -/
inductive Instr where
  | nop
  | wrap
  | unwrap
  | modulate
  | demodulate
  /-- OPEN (the bare word is a keyword of Lean) -/
  | openView
  | seek
  | read
  | reserved8
  | reserved9
  | reservedA
  | reservedB
  | reservedC
  | reservedD
  | reservedE
  | reset
  /-- a word with RSVD = w[31:4] not zero, whatever its OP = w[3:0] (R102) -/
  | illegal (rsvd : BitVec 28) (op : BitVec 4)
  deriving DecidableEq, Repr

end Sys2Proof
end

