-- ==== Sys2Proof/WellFormed.lean ====
section
/-! DEFINITION. Which terms of `Instr` some command word stands for (spec/30_encoding.md R102). -/

namespace Sys2Proof

/-- Every command is well formed as it stands; an illegal word has at least one reserved bit set (R102). -/
def Instr.wf : Instr → Bool
  | .nop => true
  | .wrap => true
  | .unwrap => true
  | .modulate => true
  | .demodulate => true
  | .openView => true
  | .seek => true
  | .read => true
  | .reserved8 => true
  | .reserved9 => true
  | .reservedA => true
  | .reservedB => true
  | .reservedC => true
  | .reservedD => true
  | .reservedE => true
  | .reset => true
  | .illegal rsvd _ => rsvd != 0

end Sys2Proof
end

