-- ==== Sys2Proof/Decode.lean ====
section
/-! DEFINITION. The decoder and, after it, the encoder (spec/30_encoding.md R100 to R105). -/

namespace Sys2Proof

/-- OP = w[3:0] (R100). -/
def opField (w : Word) : BitVec 4 := w.extractLsb' 0 4

/-- RSVD = w[31:4] (R100). -/
def rsvdField (w : Word) : BitVec 28 := w.extractLsb' 4 28

/-- The opcode map of R101 for RSVD = 0, by the four bits of OP from bit 3 down to bit 0. -/
def decodeOp (op : BitVec 4) : Instr :=
  match op.getLsbD 3, op.getLsbD 2, op.getLsbD 1, op.getLsbD 0 with
  | false, false, false, false => .nop
  | false, false, false, true => .wrap
  | false, false, true, false => .unwrap
  | false, false, true, true => .modulate
  | false, true, false, false => .demodulate
  | false, true, false, true => .openView
  | false, true, true, false => .seek
  | false, true, true, true => .read
  | true, false, false, false => .reserved8
  | true, false, false, true => .reserved9
  | true, false, true, false => .reservedA
  | true, false, true, true => .reservedB
  | true, true, false, false => .reservedC
  | true, true, false, true => .reservedD
  | true, true, true, false => .reservedE
  | true, true, true, true => .reset

/-- The decoder. It is total on 32-bit words: a word with RSVD not zero is illegal whatever its OP (R102), so
RESET is only the exact word 0x0000000F (R103). -/
def decode (w : Word) : Instr :=
  if rsvdField w = 0 then decodeOp (opField w) else .illegal (rsvdField w) (opField w)

/-- Why some bits are not a command word. -/
inductive DecodeReject where
  /-- more than 32 bits: "Every command word is exactly 32 bits" (R105) -/
  | tooWide
  deriving DecidableEq, Repr

/-- The command word whose lowest `nbits` bits are those of `w` and whose other bits are 0. -/
def fetchWord (nbits w : Nat) : Word := BitVec.ofNat 32 (w % 2 ^ nbits)

/-- Decoding bits given as a number: one word, bit 0 the least significant (R100, R105). -/
def decodeBits (nbits w : Nat) : Except DecodeReject Instr :=
  if nbits ≤ 32 then .ok (decode (fetchWord nbits w)) else .error .tooWide

/-- What the decoder reads from bits numbered as spec/opcode_table.json numbers them. -/
def decodeTableWord (nbits w : Nat) : Option Instr := (decodeBits nbits w).toOption

/-- The opcode of an instruction (R101); an illegal word keeps its own. -/
def Instr.opcode : Instr → BitVec 4
  | .nop => 0x0
  | .wrap => 0x1
  | .unwrap => 0x2
  | .modulate => 0x3
  | .demodulate => 0x4
  | .openView => 0x5
  | .seek => 0x6
  | .read => 0x7
  | .reserved8 => 0x8
  | .reserved9 => 0x9
  | .reservedA => 0xA
  | .reservedB => 0xB
  | .reservedC => 0xC
  | .reservedD => 0xD
  | .reservedE => 0xE
  | .reset => 0xF
  | .illegal _ op => op

/-- The reserved field of an instruction's word: zero but for an illegal word (R100, R102). -/
def Instr.rsvd : Instr → BitVec 28
  | .nop => 0
  | .wrap => 0
  | .unwrap => 0
  | .modulate => 0
  | .demodulate => 0
  | .openView => 0
  | .seek => 0
  | .read => 0
  | .reserved8 => 0
  | .reserved9 => 0
  | .reservedA => 0
  | .reservedB => 0
  | .reservedC => 0
  | .reservedD => 0
  | .reservedE => 0
  | .reset => 0
  | .illegal rsvd _ => rsvd

/-- The encoder: RSVD in bits 31:4, OP in bits 3:0 (R100). -/
def encode (i : Instr) : Word := i.rsvd ++ i.opcode

end Sys2Proof
end

