-- ==== Sys2Proof/Config.lean ====
section
/-! DEFINITION. The fixed constants of spec/00_scope.md R7, the open parameters of R8, and the free values:
opaque constants without a body, which nothing in Lean can evaluate, so that whatever is proved about the
model holds whichever values they have (log 4). -/

namespace Sys2Proof

/-- The open parameters a model takes as an argument (00_scope.md R7; 92_eei_decisions.md D13, D22). -/
structure Params where
  /-- capacity of IN in bytes -/
  inCap : Nat
  /-- capacity of OUT in bytes -/
  outCap : Nat
  /-- lower clamp level of square mode -/
  sqLo : Rat
  /-- upper clamp level of square mode -/
  sqHi : Rat
  deriving DecidableEq, Repr

/-- The constraints of 00_scope.md R8. A model with other values is outside the spec. -/
abbrev Params.Ok (p : Params) : Prop :=
  (0 < p.inCap ∧ p.inCap ≤ 2 ^ 24) ∧ (0 < p.outCap ∧ p.outCap ≤ 2 ^ 24) ∧
  (-1 ≤ p.sqLo ∧ p.sqLo < 0) ∧ (0 < p.sqHi ∧ p.sqHi ≤ 1) ∧ p.sqLo ≠ -p.sqHi

namespace Config

/-- DESIGN CHOICE (log 3): the parameters of `State.reset`. The capacities are the window sizes of R71, the
levels are the test values of 95_test_vectors.md. Nothing stated for every state rests on them. -/
def resetParams : Params := ⟨2 ^ 24, 2 ^ 24, mkRat (-3) 5, mkRat 1 2⟩

/-- THRESH, the detector's amplitude threshold (R7). -/
def thresh : Rat := mkRat 1 5

/-- UNITS_PER_BYTE (R7). -/
def unitsPerByte : BitVec 5 := 18

/-- TERMINATOR (R7). -/
def terminator : Byte := 0xFF

/-- SQUARE_LIMIT (R7): square mode when cycle_samples is at most this. -/
def squareLimit : Nat := 8

/-- Free value: the byte a buffer holds at an address where nothing has been stored since draw number
`draw` (R72, R82, R265), and a byte read beyond a capacity (R77). -/
opaque freeByte (draw address : Nat) : Byte

/-- Free value: a host read that "returns any value" (R49, R75, R76). -/
opaque freeWord (draw : Nat) : Word

/-- Free value: the contents of a tone table outside a MODULATE (R45). -/
opaque freeTone (draw : Nat) : List Int

end Config

end Sys2Proof
end

