-- ==== Sys2Proof/Machine/State.lean ====
section
/-! DEFINITION. The state of the block and of its host interface, as plain data (spec/10_state.md,
spec/20_memory.md R70 to R72), the reasons a step can stop, and the state right after reset. -/

namespace Sys2Proof.Machine

/-- A byte buffer (20_memory.md R70): the bytes stored since draw `epoch`, by strictly rising address. An
address not listed holds no stored byte; what it reads as is the free byte of this epoch (log 5). -/
structure Memory where
  cells : List Host.Cell
  epoch : Nat
  deriving DecidableEq, Repr

/-- The canonical form: addresses strictly rising, so no address twice. -/
abbrev Memory.wf (m : Memory) : Prop := m.cells.Pairwise fun c d => c.1 < d.1

/-- MODCFG (10_state.md R36). Its reserved bits hold nothing. -/
structure ModCfg where
  reversePhase : Bool
  bitsPerSample : Byte
  deriving DecidableEq, Repr

/-- The width of a container's samples: 8 or 16 bits (10_state.md R44). -/
inductive Depth where
  | eight
  | sixteen
  deriving DecidableEq, Repr

/-- The sample view VIEW (10_state.md R44). `channels` is always 1 and is not stored. -/
inductive View where
  | closed
  | opened (dataBase : Nat) (depth : Depth) (count rate : Word)
  deriving DecidableEq, Repr

/-- The configuration snapshot taken at acceptance (10_state.md R43). -/
structure Snapshot where
  sampleRate : Word
  baudRate : Word
  syncMs : Word
  modCfg : ModCfg
  arg : Word
  inLen : Word
  deriving DecidableEq, Repr

/-- The commands that make the sequencer Busy (60_exceptions.md R270). -/
inductive Op where
  | wrap
  | unwrap
  | modulate
  | demodulate
  | openView
  | seek
  | read
  deriving DecidableEq, Repr

/-- The sequencer state SEQ (10_state.md R43). -/
inductive Seq where
  | idle
  | busy (op : Op) (snap : Snapshot)
  deriving DecidableEq, Repr

/-- The error kinds (60_exceptions.md R260). -/
inductive ErrKind where
  | malformedContainer
  | unsupportedFormat
  | lengthMismatch
  | checksumMismatch
  | protocolViolation
  | outOfRange
  | illegalCommand
  | configInvalid
  | capacityExceeded
  deriving DecidableEq, Repr

/-- What `raise E(d)` names: a kind and its detail code (60_exceptions.md R261, R264). -/
structure Err where
  kind : ErrKind
  detail : BitVec 4
  deriving DecidableEq, Repr

/-- The width of a host access (20_memory.md R74 to R76). -/
inductive Width where
  | w8
  | w16
  | w32
  deriving DecidableEq, Repr

/-- One turn of the outside world or of the sequencer (log 1). -/
inductive Turn where
  /-- the host reads at an offset from the aperture's base -/
  | read (width : Width) (offset : Word)
  /-- the host writes there -/
  | write (width : Width) (offset value : Word)
  /-- the platform asserts RST (70_reset_and_hazards.md R290) -/
  | rst
  /-- the host writes a word to CMD and makes no other access until the block is Idle: the script's RUN
  (30_encoding.md R107) without its polling reads, which have no side effect (20_memory.md R85; log 2) -/
  | issue (word : Word)
  /-- the sequencer's completion step, if it is Busy -/
  | block
  deriving DecidableEq, Repr

/-- The machine. -/
structure State where
  /-- the open parameters; no step changes them (00_scope.md R8) -/
  par : Params
  /-- CTRL.IE (R23) -/
  ie : Bool
  /-- STATUS.DONE (R27) -/
  done : Bool
  /-- STATUS.ERR (R28) -/
  err : Bool
  /-- STATUS.REJ (R29) -/
  rej : Bool
  /-- STATUS.ERRCODE (R28) -/
  errCode : BitVec 4
  /-- STATUS.ERRDETAIL (R28) -/
  errDetail : BitVec 4
  /-- ARG (R30) -/
  arg : Word
  /-- IN_LEN (R31) -/
  inLen : Word
  /-- OUT_LEN (R32) -/
  outLen : Word
  /-- SAMPLE_RATE (R33) -/
  sampleRate : Word
  /-- BAUD_RATE (R34) -/
  baudRate : Word
  /-- SYNC_MS (R35) -/
  syncMs : Word
  /-- MODCFG (R36) -/
  modCfg : ModCfg
  /-- VIEW (R44), of which SMP_COUNT, SMP_RATE and SMP_INFO are projections -/
  view : View
  /-- SMP_POS (R37) -/
  smpPos : Word
  /-- SMP_RAW (R37) -/
  smpRaw : Word
  /-- IN_BLOCK (R38, R39) -/
  inBlock : Bool
  /-- HALF_UNITS (R38, R39) -/
  halfUnits : BitVec 5
  /-- WORKING_BYTE (R39) -/
  workingByte : Byte
  /-- CYC_START (R40) -/
  cycStart : Word
  /-- CYC_LEN (R40) -/
  cycLen : Word
  /-- DEMOD_BYTES (R41) -/
  demodBytes : Word
  /-- SEQ (R43); STATUS.BUSY is 1 exactly when it is Busy -/
  seq : Seq
  /-- T0 (R45) -/
  tone0 : List Int
  /-- T1 (R45) -/
  tone1 : List Int
  /-- BYTES (R46) -/
  bytes : List Byte
  /-- IN (20_memory.md R70) -/
  inBuf : Memory
  /-- OUT (20_memory.md R70) -/
  outBuf : Memory
  /-- the MODEL's: the turns still to come (log 1) -/
  pending : List Turn
  /-- the MODEL's: what the last host read returned (log 12) -/
  readData : Word
  /-- the MODEL's: how many free values have been drawn (log 4) -/
  draws : Nat
  deriving DecidableEq, Repr

/-- Why a step stops with a fault. -/
inductive Fault where
  /-- Raised by a host access at an offset outside the 48 MiB aperture, which the block does not decode
  (20_memory.md R71; log 8). Safe: the block goes on, the model says nothing. -/
  | outsideAperture
  deriving DecidableEq, Repr

/-- Why the model has no meaning for a step. -/
inductive Refusal where
  /-- Raised by an arm of exec whose instruction has no meaning yet; no arm does. Safe. -/
  | notModelled (mnemonic : String)
  /-- Raised by every step when the parameters break 00_scope.md R8: 93_implementation_defined.md U4 says to
  refuse (log 3). Safe. -/
  | parametersOutOfRange
  deriving DecidableEq, Repr

/-- The state a reset leaves (10_state.md R22, R48; 70_reset_and_hazards.md R291). The parameters, the turns
still to come and the last read are not the block's and stay; IN, OUT, T0 and T1 are drawn anew. -/
def State.afterReset (par : Params) (pending : List Turn) (readData : Word) (draws : Nat) : State where
  par := par
  ie := false
  done := false
  err := false
  rej := false
  errCode := 0
  errDetail := 0
  arg := 0
  inLen := 0
  outLen := 0
  sampleRate := 20000
  baudRate := 2500
  syncMs := 3000
  modCfg := ⟨false, 8⟩
  view := .closed
  smpPos := 0
  smpRaw := 0
  inBlock := false
  halfUnits := 0
  workingByte := 0
  cycStart := 0
  cycLen := 0
  demodBytes := 0
  seq := .idle
  tone0 := Config.freeTone (draws + 2)
  tone1 := Config.freeTone (draws + 3)
  bytes := []
  inBuf := ⟨[], draws⟩
  outBuf := ⟨[], draws + 1⟩
  pending := pending
  readData := readData
  draws := draws + 4

/-- The machine right after reset. DESIGN CHOICE (logs 1, 3, 4, 12): the model's own fields and the
parameters. -/
def State.reset : State := State.afterReset Config.resetParams [] 0 0

end Sys2Proof.Machine
end

