-- ==== Sys2Proof/Machine/Ops.lean ====
section
/-! DEFINITION. The shared operations: bytes in memory and in byte strings, byte order, completion with
success or with an error (the block's trap entry, spec/60_exceptions.md R264 to R266), acceptance (R270) and
reset (spec/70_reset_and_hazards.md R291). -/

namespace Sys2Proof.Machine

/-! ### Buffers -/

/-- The stored byte at an address, if one is listed. -/
def Memory.stored (m : Memory) (a : Nat) : Option Byte := m.cells.lookup a

/-- What byte `a` holds: the stored byte, else a free byte of this epoch (20_memory.md R72; log 5). -/
def Memory.read (m : Memory) (a : Nat) : Byte := (m.stored a).getD (Config.freeByte m.epoch a)

/-- Store one byte in a list of cells sorted by address. -/
def insertCell (a : Nat) (v : Byte) : List Host.Cell → List Host.Cell
  | [] => [(a, v)]
  | (b, w) :: rest =>
    if a < b then (a, v) :: (b, w) :: rest
    else if a = b then (a, v) :: rest
    else (b, w) :: insertCell a v rest

/-- Store one byte. -/
def Memory.write (m : Memory) (a : Nat) (v : Byte) : Memory := { m with cells := insertCell a v m.cells }

/-- `MemRead(buffer, a, n)` (00_scope.md R10). -/
def Memory.readRange (m : Memory) (a n : Nat) : List Byte := (List.range n).map fun i => m.read (a + i)

/-- A buffer that holds the byte string from address 0 on and any value elsewhere (20_memory.md R82). -/
def Memory.ofBytes (bs : List Byte) (epoch : Nat) : Memory :=
  ⟨bs.zipIdx.map fun p => (p.2, p.1), epoch⟩

/-- A buffer every byte of which holds any value (20_memory.md R72; 60_exceptions.md R265). -/
def Memory.unspecified (epoch : Nat) : Memory := ⟨[], epoch⟩

/-! ### Byte strings and byte order (00_scope.md R9; 20_memory.md R79, R80) -/

/-- Byte `i` of a byte string as an unsigned integer. (Every rule that reads one has checked the length.) -/
def byteAt (b : List Byte) (i : Nat) : Nat := (b.getD i 0).toNat

/-- The slice `b[i : j)` (00_scope.md R10). -/
def slice (b : List Byte) (i j : Nat) : List Byte := (b.drop i).take (j - i)

/-- `u16be(b[i], b[i+1])`. -/
def u16be (b : List Byte) (i : Nat) : Nat := byteAt b i * 256 + byteAt b (i + 1)

/-- `u24be(b[i], b[i+1], b[i+2])`. -/
def u24be (b : List Byte) (i : Nat) : Nat := byteAt b i * 65536 + byteAt b (i + 1) * 256 + byteAt b (i + 2)

/-- `u16le(b[i], b[i+1])`. -/
def u16le (b : List Byte) (i : Nat) : Nat := byteAt b i + byteAt b (i + 1) * 256

/-- `u32le(b[i : i+4))`. -/
def u32le (b : List Byte) (i : Nat) : Nat := u16le b i + u16le b (i + 2) * 65536

/-- The two bytes of a number below 2^16, most significant first. -/
def be16 (v : Nat) : List Byte := [BitVec.ofNat 8 (v / 256), BitVec.ofNat 8 v]

/-- The three bytes of a number below 2^24, most significant first. -/
def be24 (v : Nat) : List Byte := [BitVec.ofNat 8 (v / 65536), BitVec.ofNat 8 (v / 256), BitVec.ofNat 8 v]

/-- The two bytes of a number below 2^16, least significant first. -/
def le16 (v : Nat) : List Byte := [BitVec.ofNat 8 v, BitVec.ofNat 8 (v / 256)]

/-- The four bytes of a number below 2^32, least significant first. -/
def le32 (v : Nat) : List Byte := le16 v ++ le16 (v / 65536)

/-- The 32-bit word of four buffer bytes, the first the least significant (20_memory.md R81). -/
def wordOfBytes (b0 b1 b2 b3 : Byte) : Word := b3 ++ b2 ++ b1 ++ b0

/-- Byte `k` (0 to 3) of a 32-bit word (20_memory.md R81). -/
def byteOfWord (v : Word) (k : Nat) : Byte := v.extractLsb' (8 * k) 8

/-! ### Errors and completion -/

/-- The code of an error kind (60_exceptions.md R260). -/
def ErrKind.code : ErrKind → BitVec 4
  | .malformedContainer => 1
  | .unsupportedFormat => 2
  | .lengthMismatch => 3
  | .checksumMismatch => 4
  | .protocolViolation => 5
  | .outOfRange => 6
  | .illegalCommand => 7
  | .configInvalid => 8
  | .capacityExceeded => 9

/-- `complete with success` (60_exceptions.md R266). -/
def State.succeed (s : State) : State :=
  { s with done := true, err := false, errCode := 0, errDetail := 0, seq := .idle }

/-- `raise E(d)`, the block's trap entry: it saves nothing and jumps nowhere (60_exceptions.md R264). -/
def State.raise (s : State) (e : Err) : State :=
  { s with done := true, err := true, errCode := e.kind.code, errDetail := e.detail, seq := .idle }

/-- `raise E(d)` in WRAP, UNWRAP, MODULATE or DEMODULATE: besides, OUT_LEN <- 0 and every byte of OUT holds
any value (60_exceptions.md R264, R265). -/
def State.raiseOut (s : State) (e : Err) : State :=
  { s with outLen := 0, outBuf := Memory.unspecified s.draws, draws := s.draws + 1 }.raise e

/-- The successful end of WRAP, UNWRAP, MODULATE or DEMODULATE: the result is in OUT[0 : OUT_LEN), the bytes
of OUT beyond it hold any value (20_memory.md R82; 60_exceptions.md R266). -/
def State.yieldOut (s : State) (result : List Byte) : State :=
  { s with
    outLen := BitVec.ofNat 32 result.length
    outBuf := Memory.ofBytes result s.draws
    draws := s.draws + 1 }.succeed

/-! ### Acceptance and reset -/

/-- The live configuration registers as a snapshot (10_state.md R43). -/
def State.liveSnap (s : State) : Snapshot :=
  ⟨s.sampleRate, s.baudRate, s.syncMs, s.modCfg, s.arg, s.inLen⟩

/-- What acceptance of every command does first (60_exceptions.md R270). -/
def State.clearReport (s : State) : State := { s with done := false, err := false, errCode := 0, errDetail := 0 }

/-- Acceptance of a command that makes the sequencer Busy (60_exceptions.md R270). -/
def State.accept (s : State) (op : Op) : State := { s.clearReport with seq := .busy op s.liveSnap }

/-- STATUS.BUSY (10_state.md R25, R43). -/
def State.isBusy (s : State) : Bool :=
  match s.seq with
  | .idle => false
  | .busy _ _ => true

/-- The effect of a reset from either source (70_reset_and_hazards.md R290, R291). -/
def State.resetBlock (s : State) : State := State.afterReset s.par s.pending s.readData s.draws

/-- The instruction an accepted opcode stands for. -/
def Op.instr : Op → Instr
  | .wrap => .wrap
  | .unwrap => .unwrap
  | .modulate => .modulate
  | .demodulate => .demodulate
  | .openView => .openView
  | .seek => .seek
  | .read => .read

end Sys2Proof.Machine
end

