-- ==== Sys2Proof/Machine/Flags.lean ====
section
/-! DEFINITION. The registers made of fields: CTRL, STATUS, MODCFG, SMP_INFO and SYNC_STATE as the words the
host reads and writes (spec/10_state.md R23, R25, R36, R37, R39), and the IRQ line (R47). -/

namespace Sys2Proof.Machine

/-- CTRL as read: IE in bit 0, the rest 0 (R23). -/
def State.ctrlWord (s : State) : Word := 0#31 ++ BitVec.ofBool s.ie

/-- A write to CTRL: only IE is stored (R23). -/
def State.writeCtrl (s : State) (v : Word) : State := { s with ie := v.getLsbD 0 }

/-- STATUS as read (R25). -/
def State.statusWord (s : State) : Word :=
  0#16 ++ s.errDetail ++ s.errCode ++ 0#4 ++ BitVec.ofBool s.rej ++ BitVec.ofBool s.err ++
    BitVec.ofBool s.done ++ BitVec.ofBool s.isBusy

/-- A write to STATUS clears DONE with bit 1 and REJ with bit 3, and nothing else (R25). -/
def State.writeStatus (s : State) (v : Word) : State :=
  { s with done := s.done && !v.getLsbD 1, rej := s.rej && !v.getLsbD 3 }

/-- MODCFG as read (R36). -/
def ModCfg.word (m : ModCfg) : Word := 0#16 ++ m.bitsPerSample ++ 0#7 ++ BitVec.ofBool m.reversePhase

/-- What a write of `v` to MODCFG stores (R36). -/
def ModCfg.ofWord (v : Word) : ModCfg := ⟨v.getLsbD 0, v.extractLsb' 8 8⟩

/-- The width in bits of a view's samples (R44). -/
def Depth.bits : Depth → Nat
  | .eight => 8
  | .sixteen => 16

/-- `bits div 8`, bytes in a sample (41_sample_buffer.md R143, R155). -/
def Depth.bytes (d : Depth) : Nat := d.bits / 8

/-- SMP_COUNT (R37, R44): 0 when closed. -/
def View.count : View → Word
  | .closed => 0
  | .opened _ _ count _ => count

/-- SMP_RATE (R37, R44): 0 when closed. -/
def View.rate : View → Word
  | .closed => 0
  | .opened _ _ _ rate => rate

/-- The channels of a view: always 1 (R44); 0 when closed (R37). -/
def View.channels : View → BitVec 8
  | .closed => 0
  | .opened _ _ _ _ => 1

/-- SMP_INFO.BITS (R37). -/
def View.bitsField : View → BitVec 8
  | .closed => 0
  | .opened _ depth _ _ => BitVec.ofNat 8 depth.bits

/-- SMP_INFO.OPEN (R37). -/
def View.isOpen : View → Bool
  | .closed => false
  | .opened _ _ _ _ => true

/-- SMP_INFO as read (R37). -/
def View.info (v : View) : Word := 0#8 ++ v.channels ++ v.bitsField ++ 0#7 ++ BitVec.ofBool v.isOpen

/-- SYNC_STATE as read (R39). -/
def State.syncWord (s : State) : Word :=
  0#15 ++ BitVec.ofBool s.inBlock ++ s.workingByte ++ 0#3 ++ s.halfUnits

/-- IRQ = CTRL.IE AND STATUS.DONE (R47). -/
def State.irq (s : State) : Bool := s.ie && s.done

end Sys2Proof.Machine
end

