-- ==== Sys2Proof/Machine/Operands.lean ====
section
/-! DEFINITION. The operands, all of them implicit (spec/30_encoding.md R104): the snapshot, the bytes of IN,
and the samples of the open view (spec/41_sample_buffer.md R146 to R149). -/

namespace Sys2Proof.Machine

/-- The snapshot a command computes from (10_state.md R43). A command run without a separate acceptance step
takes it from the live registers, which the snapshot always equals (log 15). -/
def State.snap (s : State) : Snapshot :=
  match s.seq with
  | .idle => s.liveSnap
  | .busy _ snap => snap

/-- `MemRead(IN, 0, n)` (00_scope.md R10). -/
def State.input (s : State) (n : Nat) : List Byte := s.inBuf.readRange 0 n

/-- `NORM8(c) = (2c - 255) / 255` (41_sample_buffer.md R147). -/
def norm8 (c : Int) : Rat := ((2 * c - 255 : Int) : Rat) / 255

/-- `clamp(x, lo, hi) = min(hi, max(lo, x))` (42_modulator.md R183). -/
def clamp (x lo hi : Rat) : Rat := min hi (max lo x)

/-- `NORM16(c)`, the two halves divided differently and then clamped (41_sample_buffer.md R148). -/
def norm16 (c : Int) : Rat := clamp (if c < 0 then (c : Rat) / 32768 else (c : Rat) / 32767) (-1) 1

/-- `NORM(bits, c)` (41_sample_buffer.md R146). -/
def norm : Depth → Int → Rat
  | .eight, c => norm8 c
  | .sixteen, c => norm16 c

/-- `s16le(b0, b1)` (00_scope.md R9). -/
def s16le (b0 b1 : Byte) : Int := (b1 ++ b0 : BitVec 16).toInt

/-- The code of sample `i` for samples of the given width that begin at `base` in IN (41_sample_buffer.md R149). -/
def codeAt (inBuf : Memory) (base : Nat) (depth : Depth) (i : Nat) : Int :=
  match depth with
  | .eight => ((inBuf.read (base + i)).toNat : Int)
  | .sixteen => s16le (inBuf.read (base + 2 * i)) (inBuf.read (base + 2 * i + 1))

/-- `CODE(i)` of the open view, read from IN as it is now (41_sample_buffer.md R149; 20_memory.md R83). A closed
view has no samples: its count is 0, so no rule asks. -/
def State.code (s : State) (i : Nat) : Int :=
  match s.view with
  | .closed => 0
  | .opened base depth _ _ => codeAt s.inBuf base depth i

/-- `SAMPLE(i) = NORM(bits, CODE(i))` (41_sample_buffer.md R149). -/
def State.sample (s : State) (i : Nat) : Rat :=
  match s.view with
  | .closed => 0
  | .opened base depth _ _ => norm depth (codeAt s.inBuf base depth i)

/-- SMP_RAW for a code: zext_32 of an 8-bit code, sext_32 of a 16-bit code (10_state.md R37). An 8-bit code is
not negative, so both are the code modulo 2^32. -/
def rawOfCode (c : Int) : Word := BitVec.ofInt 32 c

end Sys2Proof.Machine
end

