-- ==== Sys2Proof/Machine/Control.lean ====
section
/-! DEFINITION. NOP and RESET (spec/44_control.md), the reserved opcodes and the illegal words
(spec/30_encoding.md R102): the commands that complete at acceptance. -/

namespace Sys2Proof.Machine

/-- NOP (44_control.md R250). -/
def execNop (s : State) : Host.Outcome State Fault Refusal :=
  .next { s with done := true, err := false, errCode := 0, errDetail := 0 }

/-- RESET (44_control.md R251). -/
def execReset (s : State) : Host.Outcome State Fault Refusal := .next s.resetBlock

/-- A reserved opcode completes at once with IllegalCommand, detail 1 (30_encoding.md R102). -/
def State.reservedWord (s : State) : State := s.raise ⟨.illegalCommand, 1⟩

/-- Reserved opcode 0x8 (30_encoding.md R102). -/
def execReserved8 (s : State) : Host.Outcome State Fault Refusal := .next s.reservedWord

/-- Reserved opcode 0x9 (30_encoding.md R102). -/
def execReserved9 (s : State) : Host.Outcome State Fault Refusal := .next s.reservedWord

/-- Reserved opcode 0xA (30_encoding.md R102). -/
def execReservedA (s : State) : Host.Outcome State Fault Refusal := .next s.reservedWord

/-- Reserved opcode 0xB (30_encoding.md R102). -/
def execReservedB (s : State) : Host.Outcome State Fault Refusal := .next s.reservedWord

/-- Reserved opcode 0xC (30_encoding.md R102). -/
def execReservedC (s : State) : Host.Outcome State Fault Refusal := .next s.reservedWord

/-- Reserved opcode 0xD (30_encoding.md R102). -/
def execReservedD (s : State) : Host.Outcome State Fault Refusal := .next s.reservedWord

/-- Reserved opcode 0xE (30_encoding.md R102). -/
def execReservedE (s : State) : Host.Outcome State Fault Refusal := .next s.reservedWord

/-- A word with RSVD not zero completes at once with IllegalCommand, detail 2, whatever its OP
(30_encoding.md R102, R103). -/
def execIllegal (_rsvd : BitVec 28) (_op : BitVec 4) (s : State) : Host.Outcome State Fault Refusal :=
  .next (s.raise ⟨.illegalCommand, 2⟩)

end Sys2Proof.Machine
end

