-- ==== Sys2Proof/Machine/Envelope.lean ====
section
/-! DEFINITION. The tape-envelope framer: WRAP and UNWRAP (spec/40_envelope.md). -/

namespace Sys2Proof.Machine

/-- `csum(P) = sum(P) mod 2^24` (R121). -/
def csum (p : List Byte) : Nat := (p.map fun b => b.toNat).sum % 2 ^ 24

/-- `ENV_CHECK(b)` (R122): nothing when ok, else the first check that fails. -/
def envCheck (b : List Byte) : Option Err :=
  if b.length < 2 then some ⟨.lengthMismatch, 4⟩
  else
    let len := u16be b 0
    if b.length ≠ len + 5 then some ⟨.lengthMismatch, 1⟩
    else if len = 0 then some ⟨.lengthMismatch, 2⟩
    else if csum (slice b 2 (2 + len)) ≠ u24be b (2 + len) then some ⟨.checksumMismatch, 1⟩
    else none

/-- The envelope of raw data D: length prefix, D, terminator, checksum (R120, R123). -/
def envelopeOf (d : List Byte) : List Byte :=
  let p := d ++ [Config.terminator]
  be16 p.length ++ p ++ be24 (csum p)

/-- The raw data of an envelope: the payload without its last byte (R124). -/
def unwrapBytes (b : List Byte) : List Byte := slice b 2 (2 + u16be b 0 - 1)

/-- WRAP (R123). -/
def execWrap (s : State) : Host.Outcome State Fault Refusal :=
  let n := s.snap.inLen.toNat
  if s.par.inCap < n then .next (s.raiseOut ⟨.capacityExceeded, 1⟩)
  else if 65535 < n + 1 then .next (s.raiseOut ⟨.lengthMismatch, 3⟩)
  else
    let e := envelopeOf (s.input n)
    if s.par.outCap < e.length then .next (s.raiseOut ⟨.capacityExceeded, 2⟩)
    else .next (s.yieldOut e)

/-- UNWRAP (R124). -/
def execUnwrap (s : State) : Host.Outcome State Fault Refusal :=
  let n := s.snap.inLen.toNat
  if s.par.inCap < n then .next (s.raiseOut ⟨.capacityExceeded, 1⟩)
  else
    let b := s.input n
    match envCheck b with
    | some e => .next (s.raiseOut e)
    | none =>
      let r := unwrapBytes b
      if s.par.outCap < r.length then .next (s.raiseOut ⟨.capacityExceeded, 2⟩)
      else .next (s.yieldOut r)

end Sys2Proof.Machine
end

