-- ==== Sys2Proof/Machine/SampleBuffer.lean ====
section
/-! DEFINITION. The sample buffer port: the quantisers, the container writer and reader, OPEN, SEEK and READ
(spec/41_sample_buffer.md). -/

namespace Sys2Proof.Machine

/-! ### The writer -/

/-- `Q8(v) = min(255, max(0, floor((v + 1) * 255/2 + 1/2)))` (R141). -/
def q8 (v : Rat) : Int := min 255 (max 0 ((v + 1) * (255 / 2) + 1 / 2).floor)

/-- `Q16(v)`: each half rounded to nearest with ties away from zero, then clamped (R142). -/
def q16 (v : Rat) : Int :=
  if 0 ≤ v then min 32767 (v * 32767 + 1 / 2).floor
  else max (-32768) (-(-v * 32768 + 1 / 2).floor)

/-- The quantiser of a sample width (R141, R142). -/
def quantise : Depth → Rat → Int
  | .eight, v => q8 v
  | .sixteen, v => q16 v

/-- The bytes of one sample code: one byte, or two with the least significant first (R140, R143). -/
def codeBytes (depth : Depth) (c : Int) : List Byte :=
  match depth with
  | .eight => [BitVec.ofInt 8 c]
  | .sixteen => [(BitVec.ofInt 16 c).extractLsb' 0 8, (BitVec.ofInt 16 c).extractLsb' 8 8]

/-- "RIFF" (R143). -/
def tagRiff : List Byte := [0x52, 0x49, 0x46, 0x46]

/-- "WAVE" (R143). -/
def tagWave : List Byte := [0x57, 0x41, 0x56, 0x45]

/-- "fmt " (R143). -/
def tagFmt : List Byte := [0x66, 0x6D, 0x74, 0x20]

/-- "data" (R143). -/
def tagData : List Byte := [0x64, 0x61, 0x74, 0x61]

/-- The 44 bytes before the samples, for `db` data bytes (R143). -/
def containerHeader (rate : Nat) (depth : Depth) (db : Nat) : List Byte :=
  tagRiff ++ le32 (36 + db) ++ tagWave ++
  (tagFmt ++ le32 16 ++ le16 1 ++ le16 1 ++ le32 rate ++ le32 (rate * depth.bytes) ++ le16 depth.bytes ++
    le16 depth.bits) ++
  tagData ++ le32 db

/-- `CONTAINER(rate, bits, S)` (R143). No pad byte follows an odd data chunk (R145). -/
def container (rate : Nat) (depth : Depth) (codes : List Int) : List Byte :=
  containerHeader rate depth (codes.length * depth.bytes) ++ codes.flatMap (codeBytes depth)

/-! ### The reader -/

/-- The chunks found so far: body offset and size of the format and of the data chunk (R150). -/
structure Chunks where
  fmt : Option (Nat × Nat)
  data : Option (Nat × Nat)
  deriving DecidableEq, Repr

/-- The chunk scan of PARSE from offset `p` to the declared end (R150, R152, R153). A round moves `p` by at
least 8, so a fuel of the buffer's length is enough (log 16). -/
def scanChunks (b : List Byte) (stop : Nat) : Nat → Nat → Chunks → Except Err Chunks
  | 0, _, found => .ok found
  | fuel + 1, p, found =>
    if stop < p + 8 then .ok found
    else
      let tag := slice b p (p + 4)
      let size := u32le b (p + 4)
      let next := p + 8 + size + size % 2
      if stop < p + 8 + size then .error ⟨.malformedContainer, 3⟩
      else if tag = tagFmt then
        if found.fmt.isSome then .error ⟨.malformedContainer, 6⟩
        else scanChunks b stop fuel next { found with fmt := some (p + 8, size) }
      else if tag = tagData then
        if found.data.isSome then .error ⟨.malformedContainer, 7⟩
        else scanChunks b stop fuel next { found with data := some (p + 8, size) }
      else scanChunks b stop fuel next found

/-- The format check and the view (R150, R154, R155), from the two chunks found. -/
def viewOfChunks (b : List Byte) (found : Chunks) : Except Err View :=
  match found.fmt, found.data with
  | none, _ => .error ⟨.malformedContainer, 4⟩
  | some _, none => .error ⟨.malformedContainer, 5⟩
  | some (fo, fs), some (base, ds) =>
    if fs < 16 then .error ⟨.malformedContainer, 8⟩
    else if u16le b fo ≠ 1 then .error ⟨.unsupportedFormat, 1⟩
    else if u16le b (fo + 2) ≠ 1 then .error ⟨.unsupportedFormat, 2⟩
    else
      let rate := BitVec.ofNat 32 (u32le b (fo + 4))
      if u16le b (fo + 14) = 8 then
        .ok (.opened base .eight (BitVec.ofNat 32 (ds / Depth.eight.bytes)) rate)
      else if u16le b (fo + 14) = 16 then
        .ok (.opened base .sixteen (BitVec.ofNat 32 (ds / Depth.sixteen.bytes)) rate)
      else .error ⟨.unsupportedFormat, 3⟩

/-- `PARSE(b)` (R150). -/
def parse (b : List Byte) : Except Err View :=
  let n := b.length
  if n < 12 ∨ slice b 0 4 ≠ tagRiff then .error ⟨.malformedContainer, 1⟩
  else if slice b 8 12 ≠ tagWave then .error ⟨.malformedContainer, 2⟩
  else
    let stop := 8 + u32le b 4
    if n < stop then .error ⟨.malformedContainer, 3⟩
    else
      match scanChunks b stop n 12 ⟨none, none⟩ with
      | .error e => .error e
      | .ok found => viewOfChunks b found

/-- Applying a failed parse, or closing the view without one (R156). -/
def State.closeView (s : State) : State := { s with view := .closed, smpPos := 0 }

/-- Applying a successful parse (R156). -/
def State.setView (s : State) (v : View) : State := { s with view := v, smpPos := 0 }

/-! ### The commands -/

/-- OPEN (R158). -/
def execOpen (s : State) : Host.Outcome State Fault Refusal :=
  let n := s.snap.inLen.toNat
  if s.par.inCap < n then .next (s.closeView.raise ⟨.capacityExceeded, 1⟩)
  else
    match parse (s.input n) with
    | .error e => .next (s.closeView.raise e)
    | .ok v => .next (s.setView v).succeed

/-- READ (R160). -/
def execRead (s : State) : Host.Outcome State Fault Refusal :=
  if s.view = .closed ∨ s.view.count ≤ s.smpPos then .next (s.raise ⟨.outOfRange, 2⟩)
  else
    .next { s with smpRaw := rawOfCode (s.code s.smpPos.toNat), smpPos := s.smpPos + 1 }.succeed

/-- SEEK (R161). -/
def execSeek (s : State) : Host.Outcome State Fault Refusal :=
  if s.view.count ≤ s.snap.arg then .next (s.raise ⟨.outOfRange, 1⟩)
  else .next { s with smpPos := s.snap.arg }.succeed

end Sys2Proof.Machine
end

