-- ==== Sys2Proof/Machine/Demodulator.lean ====
section
/-! DEFINITION. The FSK demodulator: the cycle detector, the bit synchroniser and DEMODULATE
(spec/43_demodulator.md). -/

namespace Sys2Proof.Machine

/-! ### The cycle detector -/

/-- The least `i` with `start <= i < start + n` and `p i`. -/
def leastFrom (p : Nat → Bool) : Nat → Nat → Option Nat
  | _, 0 => none
  | start, n + 1 => if p start then some start else leastFrom p (start + 1) n

/-- The least `i` with `start <= i < stop` and `p i` (R212). -/
def leastIn (p : Nat → Bool) (start stop : Nat) : Option Nat := leastFrom p start (stop - start)

/-- `|x| > THRESH`, strictly (R211). -/
def exceeds (x : Rat) : Bool := decide (Config.thresh < x) || decide (x < -Config.thresh)

/-- The sign of a sample that starts a cycle (R211). -/
def signOf (x : Rat) : Rat := if 0 < x then 1 else -1

/-- `FIND(p)` on the first `count` samples: the threshold triple (start, mid, end), or nothing (R212). -/
def findTriple (sample : Nat → Rat) (count p : Nat) : Option (Nat × Nat × Nat) :=
  match leastIn (fun i => exceeds (sample i)) p count with
  | none => none
  | some a =>
    let sg := signOf (sample a)
    match leastIn (fun i => decide (sg * sample i < -Config.thresh)) (a + 1) count with
    | none => none
    | some m =>
      match leastIn (fun i => decide (Config.thresh < sg * sample i)) (m + 1) count with
      | none => none
      | some e => some (a, m, e)

/-- The detector's events (R210). -/
inductive Event where
  | sob (start length : Nat)
  | cycle (start length : Nat)
  | eob
  | eof
  deriving DecidableEq, Repr

/-- `DETECT` (R214). -/
def detect (s : State) : Event × State :=
  match findTriple s.sample s.view.count.toNat s.smpPos.toNat with
  | none =>
    let s1 := { s with smpPos := s.view.count }
    if s.inBlock then (.eob, { s1 with inBlock := false }) else (.eof, s1)
  | some (a, _, e) =>
    let s1 :=
      { s with
        smpPos := BitVec.ofNat 32 e
        cycStart := BitVec.ofNat 32 a
        cycLen := BitVec.ofNat 32 (e - a) }
    if s.inBlock then (.cycle a (e - a), s1) else (.sob a (e - a), { s1 with inBlock := true })

/-! ### The bit synchroniser -/

/-- `LOW(l)`: the cycle's frequency is below the midpoint (R220). -/
def isLow (rate baud l : Nat) : Bool := decide (2 * rate < 3 * baud * l)

/-- The end of a SYNC step: a byte is complete when HALF_UNITS reaches 18 (R225). -/
def State.completeByte (s : State) : State :=
  if s.halfUnits = Config.unitsPerByte then
    { s with
      bytes := s.bytes ++ [s.workingByte]
      demodBytes := s.demodBytes + 1
      halfUnits := 0
      workingByte := 0 }
  else s

/-- `SYNC(l)` (R221 to R225). -/
def sync (low : Bool) (s : State) : Except Err State :=
  if s.halfUnits = 0 then
    if low then .ok { s with halfUnits := 2 } else .ok s
  else if low then
    if s.halfUnits.getLsbD 0 then .error ⟨.protocolViolation, 1⟩
    else .ok { s with halfUnits := s.halfUnits + 2, workingByte := s.workingByte >>> 1 }.completeByte
  else
    let h := s.halfUnits + 1
    if h.getLsbD 0 then .ok { s with halfUnits := h }.completeByte
    else .ok { s with halfUnits := h, workingByte := (s.workingByte >>> 1) ||| 0x80 }.completeByte

/-- What DEMODULATE does with an event (R227 to R230). `wasInBlock` is IN_BLOCK when the event arrives, before
DETECT clears it at end-of-block (log 9). -/
def consume (wasInBlock : Bool) (ev : Event) (s : State) : Except Err State :=
  match ev with
  | .eof => .ok s
  | .sob _ _ => .ok { s with halfUnits := 0, workingByte := 0 }
  | .cycle _ l =>
    if wasInBlock then sync (isLow s.view.rate.toNat s.snap.baudRate.toNat l) s
    else .error ⟨.protocolViolation, 3⟩
  | .eob =>
    if wasInBlock then if s.halfUnits = 0 then .ok s else .error ⟨.protocolViolation, 2⟩
    else .error ⟨.protocolViolation, 4⟩

/-- Whether the loop of R230 exits at an event. -/
def Event.ends : Event → Bool
  | .sob _ _ => false
  | .cycle _ _ => false
  | .eob => true
  | .eof => true

/-- The loop of R230: the state it leaves and the stream error, if any. A cycle found moves the cursor on, so a
fuel of one more than the sample count is enough (log 16). -/
def demodLoop : Nat → State → State × Option Err
  | 0, s => (s, none)
  | fuel + 1, s =>
    match detect s with
    | (ev, s1) =>
      match consume s.inBlock ev s1 with
      | .error e => (s1, some e)
      | .ok s2 => if ev.ends then (s2, none) else demodLoop fuel s2

/-! ### The command -/

/-- What DEMODULATE clears first (R230). -/
def State.clearDemod (s : State) : State :=
  { s with
    inBlock := false
    halfUnits := 0
    workingByte := 0
    cycStart := 0
    cycLen := 0
    demodBytes := 0
    bytes := [] }

/-- The end of DEMODULATE, from what the loop left (R230). -/
def finishDemod (s : State) (stream : Option Err) : State :=
  match stream with
  | some e => s.raiseOut e
  | none =>
    match envCheck s.bytes with
    | some e => s.raiseOut e
    | none =>
      if s.par.outCap < s.bytes.length then s.raiseOut ⟨.capacityExceeded, 2⟩
      else s.yieldOut s.bytes

/-- DEMODULATE (R230). -/
def execDemodulate (s : State) : Host.Outcome State Fault Refusal :=
  let n := s.snap.inLen.toNat
  let c := s.clearDemod
  if s.par.inCap < n then .next (c.closeView.raiseOut ⟨.capacityExceeded, 1⟩)
  else if s.snap.baudRate = 0 then .next (c.closeView.raiseOut ⟨.configInvalid, 1⟩)
  else
    match parse (s.input n) with
    | .error e => .next (c.closeView.raiseOut e)
    | .ok v =>
      match demodLoop (v.count.toNat + 1) (c.setView v) with
      | (t, stream) => .next (finishDemod t stream)

end Sys2Proof.Machine
end

