-- ==== Sys2Proof/Machine/Sine.lean ====
section
/-! DEFINITION. The exact real sine of spec/42_modulator.md R183: a rational enclosure, and an exact comparison.

The rule asks for codes of `sin(2*pi*k/N)` evaluated exactly (92_eei_decisions.md D21). Two computations answer
that. A rational lower and upper bound, at most 1/10^39 apart, settle the code wherever both round alike. Where they
do not, `sineAtLeast` decides exactly, in rational arithmetic and for every N, whether the sine reaches the value at
which the code changes: it counts the half turns of an angle by the sign changes of the Chebyshev sequence
`sin(m*phi)/sin(phi)`, which is rational when `cos(phi)` is. -/

namespace Sys2Proof.Machine

/-- A rational enclosure of a real number. -/
structure Enclosure where
  lo : Rat
  hi : Rat
  deriving DecidableEq, Repr

/-- An exactly known number. -/
def Enclosure.exact (v : Rat) : Enclosure := ⟨v, v⟩

/-- The enclosure of the negated number. -/
def Enclosure.neg (e : Enclosure) : Enclosure := ⟨-e.hi, -e.lo⟩

/-- The enclosure of the clamped number: clamp is monotone. -/
def Enclosure.clamp (e : Enclosure) (lo hi : Rat) : Enclosure :=
  ⟨Machine.clamp e.lo lo hi, Machine.clamp e.hi lo hi⟩

/-- pi, cut off after 40 decimal places. -/
def piApprox : Rat := mkRat 31415926535897932384626433832795028841971 (10 ^ 40)

/-- The radius of the enclosure: it covers the cut-off of pi and the rest of the series. -/
def sineRadius : Rat := mkRat 1 (2 * 10 ^ 39)

/-- `1 - y/((k+1)(k+2)) * (1 - y/((k+3)(k+4)) * ...)`, with `terms` levels: the series of sin(x)/x for
`y = x^2` and `k = 1`. -/
def sineSeries (y : Rat) : Nat → Nat → Rat
  | 0, _ => 1
  | terms + 1, k => 1 - y / (((k + 1) * (k + 2) : Nat) : Rat) * sineSeries y terms (k + 2)

/-- Twenty levels of the sine series at x, for x from 0 to pi/2. -/
def sinePolynomial (x : Rat) : Rat := x * sineSeries (x * x) 20 1

/-- An enclosure of sin((pi/2) * r/N), for 0 <= r <= N and N > 0. -/
def sineQuarter (r n : Nat) : Enclosure :=
  if r = 0 then .exact 0
  else if r = n then .exact 1
  else if 3 * r = n then .exact (mkRat 1 2)
  else
    let v := sinePolynomial (piApprox * mkRat r (2 * n))
    ⟨v - sineRadius, v + sineRadius⟩

/-- An enclosure of sin(2*pi*k/N), for N > 0, by the quarter turn in which 4k/N lies. -/
def sineTurn (k n : Nat) : Enclosure :=
  let r := 4 * k % n
  match 4 * k / n % 4 with
  | 0 => sineQuarter r n
  | 1 => sineQuarter (n - r) n
  | 2 => (sineQuarter r n).neg
  | _ => (sineQuarter (n - r) n).neg

/-! ### The exact comparison -/

/-- For `x = cos(phi)`, 0 < phi < pi: how many half turns `m*phi` has completed, the floor of `m*phi/pi`, with
`sin(m*phi)/sin(phi)` and `sin((m+1)*phi)/sin(phi)`. One step adds less than half a turn, and completes one exactly
when the sine's sign is no longer that of the half turn it was in. -/
def halfTurns (x : Rat) : Nat → Nat × Rat × Rat
  | 0 => (0, 0, 1)
  | m + 1 =>
    let (count, now, after) := halfTurns x m
    let stays := if count % 2 = 0 then 0 < after else after < 0
    (if stays then count else count + 1, after, 2 * x * after - now)

/-- The distance of `2*pi*k/N` from the nearest peak of the sine, in units of `pi/(2N)`: from 0 to 2N. -/
def peakDistance (k n : Nat) : Nat :=
  let t := (4 * k + 3 * n) % (4 * n)
  min t (4 * n - t)

/-- Whether `sin(2*pi*k/N) >= x`, decided exactly, for N > 0: the distance from the peak is at most phi, where
`cos(phi) = x`. -/
def sineAtLeast (k n : Nat) (x : Rat) : Bool :=
  if x ≤ -1 then true
  else if 1 < x then false
  else decide (peakDistance k n ≤ (halfTurns x (2 * n)).1)

/-- Whether `sin(2*pi*k/N) <= x`: half a turn on, the sine is the negated one. -/
def sineAtMost (k n : Nat) (x : Rat) : Bool := sineAtLeast (2 * k + n) (2 * n) (-x)

end Sys2Proof.Machine
end

