-- ==== Sys2Proof/Machine/Modulator.lean ====
section
/-! DEFINITION. The FSK modulator: MODULATE (spec/42_modulator.md). -/

namespace Sys2Proof.Machine

/-- The sample width BITS_PER_SAMPLE names: 8 or 16, else nothing (R180). -/
def depthOf (bitsPerSample : Byte) : Option Depth :=
  if bitsPerSample = 8 then some .eight
  else if bitsPerSample = 16 then some .sixteen
  else none

/-- `v(b, i)`, the sine of R183, clamped in square mode (R182): an enclosure of it. -/
def toneLevel (par : Params) (n b i : Nat) : Enclosure :=
  let base := sineTurn ((b + 1) * i) n
  if n ≤ Config.squareLimit then base.clamp par.sqLo par.sqHi else base

/-- `w(b, i)`, the level after reverse phase (R183): an enclosure of it. -/
def toneWave (par : Params) (reverse : Bool) (n b i : Nat) : Enclosure :=
  if reverse then (toneLevel par n b i).neg else toneLevel par n b i

/-- Whether `v(b, i) >= x`, decided exactly (R182, R183). -/
def levelAtLeast (par : Params) (n b i : Nat) (x : Rat) : Bool :=
  let reached := sineAtLeast ((b + 1) * i) n x
  if n ≤ Config.squareLimit then decide (x ≤ par.sqHi) && (decide (x ≤ par.sqLo) || reached) else reached

/-- Whether `v(b, i) <= x`, decided exactly (R182, R183). -/
def levelAtMost (par : Params) (n b i : Nat) (x : Rat) : Bool :=
  let reached := sineAtMost ((b + 1) * i) n x
  if n ≤ Config.squareLimit then decide (par.sqHi ≤ x) || (decide (par.sqLo ≤ x) && reached) else reached

/-- Whether `w(b, i) >= x`, decided exactly (R183). -/
def waveAtLeast (par : Params) (reverse : Bool) (n b i : Nat) (x : Rat) : Bool :=
  if reverse then levelAtMost par n b i (-x) else levelAtLeast par n b i x

/-- Whether `w(b, i) <= x`, decided exactly (R183). -/
def waveAtMost (par : Params) (reverse : Bool) (n b i : Nat) (x : Rat) : Bool :=
  if reverse then levelAtLeast par n b i (-x) else levelAtMost par n b i x

/-- Whether the code of `w(b, i)` is at least `c`, by the value at which the quantiser reaches `c`: Q16 rounds a
tie away from zero, so a negative wave must lie above it (41_sample_buffer.md R141, R142). -/
def reachesCode (par : Params) (reverse : Bool) (depth : Depth) (n b i : Nat) (c : Int) : Bool :=
  match depth with
  | .eight => waveAtLeast par reverse n b i (((c : Rat) - 1 / 2) / (255 / 2) - 1)
  | .sixteen =>
    if 0 < c then waveAtLeast par reverse n b i (((c : Rat) - 1 / 2) / 32767)
    else !waveAtMost par reverse n b i (((c : Rat) - 1 / 2) / 32768)

/-- `Tb[i]`, the code of the exact wave (R183). Where the two ends of the enclosure round to different codes, which
are neighbours, the exact comparison says whether the wave reaches the higher one. -/
def toneCode (par : Params) (reverse : Bool) (depth : Depth) (n b i : Nat) : Int :=
  let w := toneWave par reverse n b i
  let low := quantise depth w.lo
  let high := quantise depth w.hi
  if low = high then low else if reachesCode par reverse depth n b i high then high else low

/-- The tone table T0 or T1 (R183). -/
def toneTable (par : Params) (reverse : Bool) (depth : Depth) (n b : Nat) : List Int :=
  (List.range n).map (toneCode par reverse depth n b)

/-- `Lc`, the leader's length in cycles (R185). -/
def leaderCycles (rate ms n : Nat) : Nat := (rate * ms + 1000 * n - 1) / (1000 * n)

/-- The table of a bit (R186). -/
def bitTable (t0 t1 : List Int) (bit : Bool) : List Int := if bit then t1 else t0

/-- `FRAME(e)`: two gap cycles, the start bit, the eight data bits from bit 0 up, the stop bit (R186). -/
def frame (t0 t1 : List Int) (e : Byte) : List Int :=
  t1 ++ t1 ++ t0 ++ ((List.range 8).flatMap fun k => bitTable t0 t1 (e.getLsbD k)) ++ t1

/-- The sample list S of a MODULATE (R187). -/
def sampleList (t0 t1 : List Int) (leader : Nat) (input : List Byte) : List Int :=
  (List.replicate leader t1).flatten ++ input.flatMap (frame t0 t1)

/-- The configuration checks of R180, in order, and what passes them: N and the sample width. -/
def modulateConfig (par : Params) (p : Snapshot) : Except Err (Nat × Depth) :=
  if par.inCap < p.inLen.toNat then .error ⟨.capacityExceeded, 1⟩
  else if p.baudRate = 0 then .error ⟨.configInvalid, 1⟩
  else if p.sampleRate.toNat / p.baudRate.toNat = 0 then .error ⟨.configInvalid, 2⟩
  else
    match depthOf p.modCfg.bitsPerSample with
    | none => .error ⟨.configInvalid, 3⟩
    | some depth =>
      if 2 ^ 32 - 1 < p.sampleRate.toNat * depth.bytes then .error ⟨.configInvalid, 4⟩
      else .ok (p.sampleRate.toNat / p.baudRate.toNat, depth)

/-- MODULATE's first act after its checks: compute T0 and T1 (R183, R188). -/
def State.setTones (s : State) (reverse : Bool) (depth : Depth) (n : Nat) : State :=
  { s with tone0 := toneTable s.par reverse depth n 0, tone1 := toneTable s.par reverse depth n 1 }

/-- Outside a MODULATE the contents of T0 and T1 are unspecified (10_state.md R45): they are drawn anew. -/
def State.dropTones (s : State) : State :=
  { s with
    tone0 := Config.freeTone s.draws
    tone1 := Config.freeTone (s.draws + 1)
    draws := s.draws + 2 }

/-- MODULATE (R188). -/
def execModulate (s : State) : Host.Outcome State Fault Refusal :=
  let p := s.snap
  match modulateConfig s.par p with
  | .error e => .next (s.raiseOut e)
  | .ok (n, depth) =>
    let t := s.setTones p.modCfg.reversePhase depth n
    let leader := leaderCycles p.sampleRate.toNat p.syncMs.toNat n
    let size := 44 + n * (leader + 12 * p.inLen.toNat) * depth.bytes
    if s.par.outCap < size then .next (t.dropTones.raiseOut ⟨.capacityExceeded, 2⟩)
    else
      let codes := sampleList t.tone0 t.tone1 leader (s.input p.inLen.toNat)
      .next (t.dropTones.yieldOut (container p.sampleRate.toNat depth codes))

end Sys2Proof.Machine
end

