-- ==== Sys2Proof/Machine/Bus.lean ====
section
/-! DEFINITION. Host accesses through the aperture: the register map, the buffer windows, the acceptance of a
command word, and the sequencer's completion step (spec/10_state.md R22 to R49, spec/20_memory.md R71 to R85,
spec/60_exceptions.md R270). -/

namespace Sys2Proof.Machine

/-! ### The address map -/

/-- The regions of the aperture (20_memory.md R71), with the offset inside the region. -/
inductive Region where
  | registers (offset : Nat)
  | reserved
  | inWindow (address : Nat)
  | outWindow (address : Nat)
  | outside
  deriving DecidableEq, Repr

/-- The region an aperture offset lies in (20_memory.md R71). -/
def regionOf (offset : Word) : Region :=
  let o := offset.toNat
  if o < 0x100 then .registers o
  else if o < 0x1000000 then .reserved
  else if o < 0x2000000 then .inWindow (o - 0x1000000)
  else if o < 0x3000000 then .outWindow (o - 0x2000000)
  else .outside

/-- The registers of 10_state.md R22. -/
inductive Reg where
  | ctrl
  | cmd
  | status
  | arg
  | inLen
  | outLen
  | sampleRate
  | baudRate
  | syncMs
  | modCfg
  | smpCount
  | smpRate
  | smpInfo
  | smpPos
  | smpRaw
  | syncState
  | cycStart
  | cycLen
  | demodBytes
  deriving DecidableEq, Repr

/-- The registers in the order of their offsets, 0x00, 0x04, 0x08, ... (10_state.md R22). -/
def regOrder : List Reg :=
  [.ctrl, .cmd, .status, .arg, .inLen, .outLen, .sampleRate, .baudRate, .syncMs, .modCfg] ++
  [.smpCount, .smpRate, .smpInfo, .smpPos, .smpRaw, .syncState, .cycStart, .cycLen, .demodBytes]

/-- The register at a word-aligned offset; none at the reserved offsets (10_state.md R22, R42). -/
def regAt (offset : Nat) : Option Reg := regOrder[offset / 4]?

/-- The read/write registers (10_state.md R22): those a Busy block rejects a write to (R29). -/
def Reg.isRw : Reg → Bool
  | .ctrl => true
  | .cmd => false
  | .status => false
  | .arg => true
  | .inLen => true
  | .outLen => false
  | .sampleRate => true
  | .baudRate => true
  | .syncMs => true
  | .modCfg => true
  | .smpCount => false
  | .smpRate => false
  | .smpInfo => false
  | .smpPos => false
  | .smpRaw => false
  | .syncState => false
  | .cycStart => false
  | .cycLen => false
  | .demodBytes => false

/-- The registers a read of which returns any value while Busy (10_state.md R49). -/
def Reg.anyWhileBusy : Reg → Bool
  | .ctrl => false
  | .cmd => false
  | .status => false
  | .arg => false
  | .inLen => false
  | .outLen => true
  | .sampleRate => false
  | .baudRate => false
  | .syncMs => false
  | .modCfg => false
  | .smpCount => true
  | .smpRate => true
  | .smpInfo => true
  | .smpPos => true
  | .smpRaw => true
  | .syncState => true
  | .cycStart => true
  | .cycLen => true
  | .demodBytes => true

/-! ### Reads -/

/-- The word a register holds (10_state.md R22 to R41); CMD reads 0 (R24). -/
def State.regWord (s : State) : Reg → Word
  | .ctrl => s.ctrlWord
  | .cmd => 0
  | .status => s.statusWord
  | .arg => s.arg
  | .inLen => s.inLen
  | .outLen => s.outLen
  | .sampleRate => s.sampleRate
  | .baudRate => s.baudRate
  | .syncMs => s.syncMs
  | .modCfg => s.modCfg.word
  | .smpCount => s.view.count
  | .smpRate => s.view.rate
  | .smpInfo => s.view.info
  | .smpPos => s.smpPos
  | .smpRaw => s.smpRaw
  | .syncState => s.syncWord
  | .cycStart => s.cycStart
  | .cycLen => s.cycLen
  | .demodBytes => s.demodBytes

/-- A read that returns any value (10_state.md R49; 20_memory.md R75, R76, R82). -/
def State.readAny (s : State) : State :=
  { s with readData := Config.freeWord s.draws, draws := s.draws + 1 }

/-- An aligned 32-bit read of the register window (20_memory.md R74; 10_state.md R42, R49). -/
def State.readRegister (s : State) (offset : Nat) : State :=
  match regAt offset with
  | none => { s with readData := 0 }
  | some r => if s.isBusy && r.anyWhileBusy then s.readAny else { s with readData := s.regWord r }

/-- One buffer byte for the host: any value at or beyond the capacity (20_memory.md R77). -/
def bufferByte (m : Memory) (cap draw a : Nat) : Byte :=
  if a < cap then m.read a else Config.freeByte draw a

/-- A read of a buffer window (20_memory.md R76, R77, R81). An 8-bit read gives the byte, zero-extended
(log 12). -/
def State.readBuffer (s : State) (m : Memory) (cap : Nat) (width : Width) (a : Nat) : State :=
  let byte := bufferByte m cap s.draws
  match width with
  | .w8 => { s with readData := (byte a).setWidth 32, draws := s.draws + 1 }
  | .w16 => s.readAny
  | .w32 =>
    if a % 4 = 0 then
      { s with
        readData := wordOfBytes (byte a) (byte (a + 1)) (byte (a + 2)) (byte (a + 3))
        draws := s.draws + 1 }
    else s.readAny

/-- A host read (20_memory.md R71, R74 to R78, R82, R85). -/
def hostRead (width : Width) (offset : Word) (s : State) : Host.Outcome State Fault Refusal :=
  match regionOf offset with
  | .registers o => .next (if width = .w32 ∧ o % 4 = 0 then s.readRegister o else s.readAny)
  | .reserved => .next { s with readData := 0 }
  | .inWindow a => .next (s.readBuffer s.inBuf s.par.inCap width a)
  | .outWindow a => .next (if s.isBusy then s.readAny else s.readBuffer s.outBuf s.par.outCap width a)
  | .outside => .fault .outsideAperture

/-! ### Commands -/

/-- The opcode with which a command makes the sequencer Busy; none for those that complete at acceptance
(60_exceptions.md R270). -/
def longOp : Instr → Option Op
  | .nop => none
  | .wrap => some .wrap
  | .unwrap => some .unwrap
  | .modulate => some .modulate
  | .demodulate => some .demodulate
  | .openView => some .openView
  | .seek => some .seek
  | .read => some .read
  | .reserved8 => none
  | .reserved9 => none
  | .reservedA => none
  | .reservedB => none
  | .reservedC => none
  | .reservedD => none
  | .reservedE => none
  | .reset => none
  | .illegal _ _ => none

/-- A host write of a word to CMD (60_exceptions.md R270). -/
def cmdWrite (w : Word) (s : State) : Host.Outcome State Fault Refusal :=
  match s.seq with
  | .busy _ _ => if w = 0x0000000F then exec .reset s else .next { s with rej := true }
  | .idle =>
    match longOp (decode w) with
    | some op => .next (s.accept op)
    | none => exec (decode w) s.clearReport

/-- The sequencer's completion step: it runs the command it is Busy with (60_exceptions.md R264, R266;
70_reset_and_hazards.md R300). An Idle sequencer waits (R292). -/
def completeBusy (s : State) : Host.Outcome State Fault Refusal :=
  match s.seq with
  | .idle => .next s
  | .busy op _ => exec op.instr s

/-- The host writes a word to CMD and makes no other access until the block is Idle (log 2). -/
def issue (w : Word) (s : State) : Host.Outcome State Fault Refusal :=
  match cmdWrite w s with
  | .next t => completeBusy t
  | .fault r => .fault r
  | .refused r => .refused r

/-! ### Writes -/

/-- What a write stores in a read/write register (10_state.md R23, R30, R31, R33 to R36); the others store
nothing here. -/
def State.storeReg (s : State) (v : Word) : Reg → State
  | .ctrl => s.writeCtrl v
  | .cmd => s
  | .status => s
  | .arg => { s with arg := v }
  | .inLen => { s with inLen := v }
  | .outLen => s
  | .sampleRate => { s with sampleRate := v }
  | .baudRate => { s with baudRate := v }
  | .syncMs => { s with syncMs := v }
  | .modCfg => { s with modCfg := ModCfg.ofWord v }
  | .smpCount => s
  | .smpRate => s
  | .smpInfo => s
  | .smpPos => s
  | .smpRaw => s
  | .syncState => s
  | .cycStart => s
  | .cycLen => s
  | .demodBytes => s

/-- An aligned 32-bit write to a register: CMD issues a command, STATUS clears bits and is never rejected, a
read/write register is stored or, while Busy, rejected; a read-only register ignores it (10_state.md R22, R25,
R29; 60_exceptions.md R270). -/
def writeRegister (r : Reg) (v : Word) (s : State) : Host.Outcome State Fault Refusal :=
  if r = .cmd then cmdWrite v s
  else if r = .status then .next (s.writeStatus v)
  else if s.isBusy && r.isRw then .next { s with rej := true }
  else .next (s.storeReg v r)

/-- Store a byte unless it lies at or beyond the capacity (20_memory.md R77). -/
def storeByte (cap : Nat) (m : Memory) (a : Nat) (v : Byte) : Memory := if a < cap then m.write a v else m

/-- Store bytes at consecutive addresses. -/
def storeBytes (cap : Nat) : Memory → Nat → List Byte → Memory
  | m, _, [] => m
  | m, a, v :: rest => storeBytes cap (storeByte cap m a v) (a + 1) rest

/-- The bytes a write of this width stores at this address, none when it is misaligned (20_memory.md R76,
R81). -/
def writeLanes (width : Width) (a : Nat) (v : Word) : List Byte :=
  match width with
  | .w8 => [byteOfWord v 0]
  | .w16 => []
  | .w32 => if a % 4 = 0 then [byteOfWord v 0, byteOfWord v 1, byteOfWord v 2, byteOfWord v 3] else []

/-- A host write to the IN window, at any width and offset. While Busy it stores nothing and sets REJ
(60_exceptions.md R270; 70_reset_and_hazards.md R296); else it stores its bytes, a misaligned one none (20_memory.md
R76, R77). -/
def State.writeIn (s : State) (width : Width) (a : Nat) (v : Word) : State :=
  if s.isBusy then { s with rej := true }
  else { s with inBuf := storeBytes s.par.inCap s.inBuf a (writeLanes width a v) }

/-- A host write (20_memory.md R71, R74 to R78; 10_state.md R42; 60_exceptions.md R270). -/
def hostWrite (width : Width) (offset v : Word) (s : State) : Host.Outcome State Fault Refusal :=
  match regionOf offset with
  | .registers o =>
    if width = .w32 ∧ o % 4 = 0 then
      match regAt o with
      | none => .next s
      | some r => writeRegister r v s
    else .next s
  | .reserved => .next s
  | .inWindow a => .next (s.writeIn width a v)
  | .outWindow _ => .next s
  | .outside => .fault .outsideAperture

/-- One turn (log 1). -/
def takeTurn (t : Turn) (s : State) : Host.Outcome State Fault Refusal :=
  match t with
  | .read width offset => hostRead width offset s
  | .write width offset v => hostWrite width offset v s
  | .rst => .next s.resetBlock
  | .issue w => issue w s
  | .block => completeBusy s

/-- One step of a machine whose parameters are in range: the next turn, or, when none is left, the sequencer's
(log 1). -/
def nextTurn (s : State) : Host.Outcome State Fault Refusal :=
  match s.pending with
  | [] => completeBusy s
  | t :: rest => takeTurn t { s with pending := rest }

end Sys2Proof.Machine
end

