-- ==== Sys2Proof/Machine/Step.lean ====
section
/-! DEFINITION. One step of the machine, and how a command word is placed so that the next step runs it. -/

namespace Sys2Proof.Machine

/-- One step. Parameters outside 00_scope.md R8 are refused (93_implementation_defined.md U4). -/
def step (s : State) : Host.Outcome State Fault Refusal :=
  if s.par.Ok then nextTurn s else .refused .parametersOutOfRange

/-- The state whose very next step issues and completes the word: it is put before the turns still to come, and
the sequencer is Idle, since a Busy one rejects every word but RESET (60_exceptions.md R270; log 2). -/
def State.withFetchWord (s : State) (nbits w : Nat) : State :=
  { s with seq := .idle, pending := .issue (fetchWord nbits w) :: s.pending }

end Sys2Proof.Machine
end

