-- ==== Sys2Proof/Safety.lean ====
section
/-! DEFINITION. What claims say of a good state and a good run: the invariant every step keeps, and the host
turns that cannot stop the machine. -/

namespace Sys2Proof.Machine

/-- The greatest detail code of each ERRCODE that a command reports (spec/60_exceptions.md R261, R262): 0 for no
error, and for ProtocolViolation only 1 and 2, since 3 and 4 are unreachable (spec/43_demodulator.md R229). -/
def maxDetail (code : BitVec 4) : Nat :=
  match code.toNat with
  | 1 => 8
  | 2 => 3
  | 3 => 4
  | 4 => 1
  | 5 => 2
  | 6 => 2
  | 7 => 2
  | 8 => 4
  | 9 => 2
  | _ => 0

/-- The error report is one the spec lists: ERR = 1 exactly with an ERRCODE of 1 to 9 and one of its details
(R28, R260, R261). -/
abbrev State.ReportOk (s : State) : Prop :=
  (s.err = false ∧ s.errCode = 0 ∧ s.errDetail = 0) ∨
  (s.err = true ∧ s.errCode ≠ 0 ∧ 1 ≤ s.errDetail.toNat ∧ s.errDetail.toNat ≤ maxDetail s.errCode)

/-- The samples of the view lie inside IN (spec/41_sample_buffer.md R150; spec/60_exceptions.md R263). -/
def View.Fits (inCap : Nat) : View → Prop
  | .closed => True
  | .opened base depth count _ => base + count.toNat * depth.bytes ≤ inCap

/-- While SEQ is Busy the snapshot equals the live registers (spec/10_state.md R43) and the report is clear
(spec/60_exceptions.md R270). -/
def State.BusyOk (s : State) : Prop :=
  match s.seq with
  | .idle => True
  | .busy _ snap => snap = s.liveSnap ∧ s.done = false ∧ s.err = false

/-- The invariant. -/
structure State.Inv (s : State) : Prop where
  /-- the parameters satisfy 00_scope.md R8 -/
  par_ok : s.par.Ok
  /-- IN is in canonical form and inside its capacity -/
  in_wf : s.inBuf.wf
  in_bounded : ∀ c ∈ s.inBuf.cells, c.1 < s.par.inCap
  /-- OUT is in canonical form and inside its capacity -/
  out_wf : s.outBuf.wf
  out_bounded : ∀ c ∈ s.outBuf.cells, c.1 < s.par.outCap
  /-- OUT_LEN counts bytes of OUT (R32; 60_exceptions.md R263) -/
  outLen_le : s.outLen.toNat ≤ s.par.outCap
  /-- R44 -/
  view_fits : s.view.Fits s.par.inCap
  /-- SMP_POS is in [0, SMP_COUNT] (R37) -/
  pos_le : s.smpPos ≤ s.view.count
  /-- HALF_UNITS is 0 or 2 to 17 (R38) -/
  units : s.halfUnits = 0 ∨ (2 ≤ s.halfUnits.toNat ∧ s.halfUnits.toNat ≤ 17)
  /-- DEMOD_BYTES is the length of BYTES (R46) -/
  bytes_counted : s.demodBytes = BitVec.ofNat 32 s.bytes.length
  /-- R43 -/
  busy : s.BusyOk
  /-- R260, R261 -/
  report : s.ReportOk

/-- The turn's access, if it is one, lies inside the aperture (spec/20_memory.md R71). -/
def Turn.inAperture : Turn → Bool
  | .read _ offset => decide (offset.toNat < 0x3000000)
  | .write _ offset _ => decide (offset.toNat < 0x3000000)
  | .rst => true
  | .issue _ => true
  | .block => true

/-- `k` steps in a row. -/
def runSteps : Nat → State → Host.Outcome State Fault Refusal
  | 0, s => .next s
  | k + 1, s =>
    match step s with
    | .next t => runSteps k t
    | .fault r => .fault r
    | .refused r => .refused r

/-! ### How a command ends (spec/60_exceptions.md R264, R266) -/

/-- The command completed with success. -/
structure State.Succeeded (t : State) : Prop where
  done : t.done = true
  err : t.err = false
  errCode : t.errCode = 0
  errDetail : t.errDetail = 0
  idle : t.seq = .idle

/-- The command completed with the error of this ERRCODE and ERRDETAIL (R260, R261). -/
structure State.FailedWith (t : State) (code detail : BitVec 4) : Prop where
  done : t.done = true
  err : t.err = true
  errCode : t.errCode = code
  errDetail : t.errDetail = detail
  idle : t.seq = .idle

/-! ### What a command leaves unchanged -/

/-- What no command but RESET changes: the parameters, CTRL, REJ, ARG, IN_LEN, the configuration registers, every
byte of IN, and the model's turns and read latch (spec/30_encoding.md R104; spec/20_memory.md R73). -/
structure SameHost (s t : State) : Prop where
  par : t.par = s.par
  ie : t.ie = s.ie
  rej : t.rej = s.rej
  arg : t.arg = s.arg
  inLen : t.inLen = s.inLen
  sampleRate : t.sampleRate = s.sampleRate
  baudRate : t.baudRate = s.baudRate
  syncMs : t.syncMs = s.syncMs
  modCfg : t.modCfg = s.modCfg
  inBytes : ∀ a, t.inBuf.read a = s.inBuf.read a
  pending : t.pending = s.pending
  readData : t.readData = s.readData

/-- OUT_LEN and every byte of OUT are unchanged. -/
structure SameOut (s t : State) : Prop where
  outLen : t.outLen = s.outLen
  outBytes : ∀ a, t.outBuf.read a = s.outBuf.read a

/-- VIEW, of which SMP_COUNT, SMP_RATE and SMP_INFO are projections, and SMP_POS are unchanged. -/
structure SameView (s t : State) : Prop where
  view : t.view = s.view
  smpPos : t.smpPos = s.smpPos

/-- SYNC_STATE, CYC_START, CYC_LEN, DEMOD_BYTES and BYTES are unchanged. -/
structure SameSync (s t : State) : Prop where
  inBlock : t.inBlock = s.inBlock
  halfUnits : t.halfUnits = s.halfUnits
  workingByte : t.workingByte = s.workingByte
  cycStart : t.cycStart = s.cycStart
  cycLen : t.cycLen = s.cycLen
  demodBytes : t.demodBytes = s.demodBytes
  bytes : t.bytes = s.bytes

/-- SYNC_STATE, CYC_START, CYC_LEN and DEMOD_BYTES are all 0 and BYTES is empty. -/
structure State.SyncZero (t : State) : Prop where
  inBlock : t.inBlock = false
  halfUnits : t.halfUnits = 0
  workingByte : t.workingByte = 0
  cycStart : t.cycStart = 0
  cycLen : t.cycLen = 0
  demodBytes : t.demodBytes = 0
  bytes : t.bytes = []

/-- T0 and T1 are unchanged. -/
structure SameTones (s t : State) : Prop where
  tone0 : t.tone0 = s.tone0
  tone1 : t.tone1 = s.tone1

/-- Only STATUS may differ. -/
structure OnlyStatus (s t : State) : Prop where
  host : SameHost s t
  out : SameOut s t
  view : SameView s t
  smpRaw : t.smpRaw = s.smpRaw
  sync : SameSync s t
  tones : SameTones s t

/-- What WRAP, UNWRAP and MODULATE leave: all but STATUS, OUT, OUT_LEN and the tone tables
(spec/60_exceptions.md R267; spec/42_modulator.md R188). -/
structure OnlyOut (s t : State) : Prop where
  host : SameHost s t
  view : SameView s t
  smpRaw : t.smpRaw = s.smpRaw
  sync : SameSync s t

/-- The errors each command can raise, as (ERRCODE, ERRDETAIL) (spec/60_exceptions.md R262). -/
def mayRaise : Instr → List (BitVec 4 × BitVec 4)
  | .nop => []
  | .wrap => [(9, 1), (9, 2), (3, 3)]
  | .unwrap => [(9, 1), (9, 2), (3, 1), (3, 2), (3, 4), (4, 1)]
  | .modulate => [(9, 1), (9, 2), (8, 1), (8, 2), (8, 3), (8, 4)]
  | .demodulate =>
    [(9, 1), (9, 2), (8, 1), (1, 1), (1, 2), (1, 3), (1, 4), (1, 5), (1, 6), (1, 7), (1, 8)] ++
    [(2, 1), (2, 2), (2, 3), (5, 1), (5, 2), (3, 1), (3, 2), (3, 4), (4, 1)]
  | .openView =>
    [(9, 1), (1, 1), (1, 2), (1, 3), (1, 4), (1, 5), (1, 6), (1, 7), (1, 8), (2, 1), (2, 2), (2, 3)]
  | .seek => [(6, 1)]
  | .read => [(6, 2)]
  | .reserved8 => [(7, 1)]
  | .reserved9 => [(7, 1)]
  | .reservedA => [(7, 1)]
  | .reservedB => [(7, 1)]
  | .reservedC => [(7, 1)]
  | .reservedD => [(7, 1)]
  | .reservedE => [(7, 1)]
  | .reset => []
  | .illegal _ _ => [(7, 2)]

/-! ### The terms in which results are stated -/

/-- Byte `a` of IN as a number. -/
def State.inNat (s : State) (a : Nat) : Nat := (s.inBuf.read a).toNat

/-- Byte `a` of OUT as a number. -/
def State.outNat (s : State) (a : Nat) : Nat := (s.outBuf.read a).toNat

/-- The sum of the `k` bytes of IN from `a` on (spec/00_scope.md R11). -/
def State.inSum (s : State) (a k : Nat) : Nat := ((List.range k).map fun i => s.inNat (a + i)).sum

/-- The value of bit window `q` of MODULATE's sample list: the leader, then twelve windows a byte
(spec/42_modulator.md R185 to R187). -/
def windowBit (leader : Nat) (byte : Nat → Byte) (q : Nat) : Nat :=
  if q < leader then 1
  else
    let w := (q - leader) % 12
    if w = 2 then 0
    else if 3 ≤ w ∧ w ≤ 10 then if (byte ((q - leader) / 12)).getLsbD (w - 3) then 1 else 0
    else 1

/-- The exact wave of spec/42_modulator.md R183: `w` is w(b, i). -/
def IsWave (par : Params) (reverse : Bool) (n b i : Nat) (w : ℝ) : Prop :=
  let base := Real.sin (2 * Real.pi * (b + 1) * i / n)
  let v := if n ≤ 8 then min (par.sqHi : ℝ) (max (par.sqLo : ℝ) base) else base
  w = if reverse then -v else v

/-- The exact code of a wave: `c` is Q8(w) or Q16(w) (spec/41_sample_buffer.md R141, R142). -/
def IsCode (depth : Depth) (w : ℝ) (c : Int) : Prop :=
  match depth with
  | .eight => c = min 255 (max 0 ⌊(w + 1) * (255 / 2) + 1 / 2⌋)
  | .sixteen =>
    (0 ≤ w → c = min 32767 ⌊w * 32767 + 1 / 2⌋) ∧ (w < 0 → c = max (-32768) (-⌊-w * 32768 + 1 / 2⌋))

/-- SYNC over a sequence of regular cycles, each low or high (spec/43_demodulator.md R221). -/
def syncAll : List Bool → State → Except Err State
  | [], s => .ok s
  | low :: rest, s =>
    match sync low s with
    | .ok t => syncAll rest t
    | .error e => .error e

/-- The cycles of a byte's eight data bits, least significant bit first: one low cycle for a 0, two high cycles for
a 1 (spec/43_demodulator.md R224; spec/42_modulator.md R186). -/
def byteCycles (b : Byte) : List Bool :=
  (List.range 8).flatMap fun k => if b.getLsbD k then [false, false] else [true]

end Sys2Proof.Machine
end

