-- ==== Sys2Proof/Certificates/Slice0/Obligations.lean ====
section
/-! DEFINITION. The statements about the model, for the provers. Each docstring names the rules of spec/ a
statement formalises, and says where it rests on a choice of the model. -/

open Sys2Proof Sys2Proof.Machine

/-! ### Encoding -/

/-- The command words of R101, of R102's reserved opcodes and two illegal words, written out bit by bit; among them
the four encoding examples of R108, with the completion of the two that are not commands. -/
def Obligations.DecodeSpecWords : Prop :=
  decode 0b0000_0000_0000_0000_0000_0000_0000_0000 = .nop ∧
  decode 0b0000_0000_0000_0000_0000_0000_0000_0001 = .wrap ∧
  decode 0b0000_0000_0000_0000_0000_0000_0000_0010 = .unwrap ∧
  decode 0b0000_0000_0000_0000_0000_0000_0000_0011 = .modulate ∧
  decode 0b0000_0000_0000_0000_0000_0000_0000_0100 = .demodulate ∧
  decode 0b0000_0000_0000_0000_0000_0000_0000_0101 = .openView ∧
  decode 0b0000_0000_0000_0000_0000_0000_0000_0110 = .seek ∧
  decode 0b0000_0000_0000_0000_0000_0000_0000_0111 = .read ∧
  decode 0b0000_0000_0000_0000_0000_0000_0000_1000 = .reserved8 ∧
  decode 0b0000_0000_0000_0000_0000_0000_0000_1010 = .reservedA ∧
  decode 0b0000_0000_0000_0000_0000_0000_0000_1110 = .reservedE ∧
  decode 0b0000_0000_0000_0000_0000_0000_0000_1111 = .reset ∧
  decode 0b0000_0000_0000_0000_0000_0000_0001_0011 = .illegal 1 3 ∧
  decode 0b1000_0000_0000_0000_0000_0000_0000_1111 = .illegal 0x8000000 0xF ∧
  ∀ s : State, s.seq = .idle →
    (∃ t, hostWrite .w32 0x04 0x00000013 s = .next t ∧ t.FailedWith 7 2) ∧
    (∃ t, hostWrite .w32 0x04 0x0000000A s = .next t ∧ t.FailedWith 7 1)

/-- Decode and encode agree, both ways: no bit of a command word is dropped. Every instruction is covered, with
every value of an illegal word's fields. -/
def Obligations.DecodeEncodeAgree : Prop :=
  (∀ i : Instr, i.wf = true → decode (encode i) = i) ∧
  (∀ w : Word, encode (decode w) = w ∧ (decode w).wf = true)

/-- R103: RESET is only the exact word 0x0000000F; with RSVD not zero, OP = 0xF is illegal, and while the block is
Busy it is rejected. -/
def Obligations.ResetWordIsExact : Prop :=
  ∀ w : Word,
    (decode w = .reset ↔ w = 0x0000000F) ∧
    (opField w = 0xF → rsvdField w ≠ 0 →
      decode w = .illegal (rsvdField w) 0xF ∧
      ∀ s : State,
        (s.seq = .idle → ∃ t, hostWrite .w32 0x04 w s = .next t ∧ t.FailedWith 7 2 ∧ OnlyStatus s t) ∧
        (s.isBusy = true → hostWrite .w32 0x04 w s = .next { s with rej := true }))

/-! ### The step -/

/-- A step whose turn is a command issued to an Idle block and waited for is exec of the decoded command; the turn
is consumed. What withFetchWord places is run so. Logs 1 and 2: turns, and the script's RUN as one turn, are the
model's. -/
def Obligations.StepRunsTheIssuedCommand : Prop :=
  (∀ (s : State) (w : Word) (i : Instr) (rest : List Turn),
    s.par.Ok → s.seq = .idle → s.pending = .issue w :: rest → decode w = i →
    step s = exec i { s with pending := rest }) ∧
  (∀ (s : State) (nbits w : Nat) (i : Instr), s.par.Ok → decodeTableWord nbits w = some i →
    step (s.withFetchWord nbits w) = exec i { s with seq := .idle })

/-- Every other step: a host access, the reset input, and the sequencer's turn, which is also the step of a machine
with no turn left; a Busy sequencer completes its command by exec of the command it was accepted with. Log 1. -/
def Obligations.StepTakesTheNextTurn : Prop :=
  ∀ s : State, s.par.Ok → ∀ rest : List Turn,
    (∀ width o, s.pending = .read width o :: rest → step s = hostRead width o { s with pending := rest }) ∧
    (∀ width o v, s.pending = .write width o v :: rest → step s = hostWrite width o v { s with pending := rest }) ∧
    (s.pending = .rst :: rest → step s = .next (State.resetBlock { s with pending := rest })) ∧
    (s.pending = .block :: rest → s.seq = .idle → step s = .next { s with pending := rest }) ∧
    (∀ op p, s.pending = .block :: rest → s.seq = .busy op p → step s = exec op.instr { s with pending := rest }) ∧
    (s.pending = [] → s.seq = .idle → step s = .next s) ∧
    (∀ op p, s.pending = [] → s.seq = .busy op p → step s = exec op.instr s)

/-- R270, with R294 to R296: a host write to CMD, and the writes a Busy block rejects: to the RW registers and to the
IN window, at every width and offset of it. -/
def Obligations.CommandAcceptance : Prop :=
  ∀ (s : State) (w : Word),
    (s.isBusy = true → w = 0x0000000F → hostWrite .w32 0x04 w s = .next s.resetBlock) ∧
    (s.isBusy = true → w ≠ 0x0000000F → hostWrite .w32 0x04 w s = .next { s with rej := true }) ∧
    (s.isBusy = true → ∀ v : Word, ∀ o ∈ [0x00, 0x0C, 0x10, 0x18, 0x1C, 0x20, (0x24 : Word)],
      hostWrite .w32 o v s = .next { s with rej := true }) ∧
    (s.isBusy = true → ∀ (width : Width) (v : Word) (a : Nat), a < 2 ^ 24 →
      hostWrite width (BitVec.ofNat 32 (0x1000000 + a)) v s = .next { s with rej := true }) ∧
    (∀ v : Word, ∃ t, hostWrite .w32 0x08 v s = .next t ∧ (t.rej = true → s.rej = true)) ∧
    (s.seq = .idle → rsvdField w ≠ 0 → hostWrite .w32 0x04 w s =
      .next { s with done := true, err := true, errCode := 7, errDetail := 2 }) ∧
    (s.seq = .idle → rsvdField w = 0 → 8 ≤ (opField w).toNat → (opField w).toNat ≤ 14 →
      hostWrite .w32 0x04 w s = .next { s with done := true, err := true, errCode := 7, errDetail := 1 }) ∧
    (s.seq = .idle → w = 0x00000000 → hostWrite .w32 0x04 w s =
      .next { s with done := true, err := false, errCode := 0, errDetail := 0 }) ∧
    (s.seq = .idle → w = 0x0000000F → hostWrite .w32 0x04 w s = .next s.resetBlock) ∧
    (s.seq = .idle → ∀ p ∈ [((1 : Word), Op.wrap), (2, .unwrap), (3, .modulate), (4, .demodulate), (5, .openView),
      (6, .seek), (7, .read)], w = p.1 → hostWrite .w32 0x04 w s = .next { s with
        done := false
        err := false
        errCode := 0
        errDetail := 0
        seq := .busy p.2 ⟨s.sampleRate, s.baudRate, s.syncMs, s.modCfg, s.arg, s.inLen⟩ })

/-- An accepted command, run from the state its acceptance leaves, gives what exec gives from the Idle state before it.
That exec of an Idle state computes from the live registers is the model's choice, log 15. -/
def Obligations.AcceptedCommandRunsAsExec : Prop :=
  ∀ (s : State) (w : Word) (op : Op), s.seq = .idle → longOp (decode w) = some op →
    ∃ t, hostWrite .w32 0x04 w s = .next t ∧ t.seq = .busy op s.liveSnap ∧ exec op.instr t = exec (decode w) s

/-! ### The commands that complete at acceptance -/

/-- R250: NOP completes at once and changes only STATUS; it clears an earlier error report, raises IRQ when IE is 1,
and is rejected while Busy. -/
def Obligations.NopCompletes : Prop :=
  ∀ s : State,
    (∃ t, exec .nop s = .next t ∧ t.done = true ∧ t.err = false ∧ t.errCode = 0 ∧ t.errDetail = 0 ∧ t.seq = s.seq ∧
      t.irq = s.ie ∧ OnlyStatus s t) ∧
    (s.seq = .idle → hostWrite .w32 0x04 0 s = exec .nop s) ∧
    (s.isBusy = true → hostWrite .w32 0x04 0 s = .next { s with rej := true })

/-- R251, R290, R291 and R48: the RESET command, whether the block is Idle or Busy, and the reset input leave the
same state: every register at its reset value, SEQ Idle, the view closed, BYTES empty, IRQ low. Nothing is said of
the bytes of IN and OUT or of T0 and T1, which hold any value. And R22: what each register reads right after reset, at
its offset. That OUT_LEN is 0, where R82 and R32 read otherwise, is log 11; that the parameters, the turns and the read
latch stay is the model's choice, log 14. -/
def Obligations.ResetReturnsEverythingToReset : Prop :=
  (∀ p ∈ [((0x00 : Word), (0x00000000 : Word)), (0x04, 0), (0x08, 0), (0x0C, 0), (0x10, 0), (0x14, 0),
      (0x18, 0x00004E20), (0x1C, 0x000009C4), (0x20, 0x00000BB8), (0x24, 0x00000800)] ++
      [(0x28, 0), (0x2C, 0), (0x30, 0), (0x34, 0), (0x38, 0), (0x3C, 0), (0x40, 0), (0x44, 0), (0x48, 0)],
    ∃ t, hostRead .w32 p.1 State.reset = .next t ∧ t.readData = p.2) ∧
  ∀ s : State, ∃ t,
    exec .reset s = .next t ∧ hostWrite .w32 0x04 0x0000000F s = .next t ∧ takeTurn .rst s = .next t ∧
    t.ie = false ∧ t.statusWord = 0 ∧ t.arg = 0 ∧ t.inLen = 0 ∧ t.outLen = 0 ∧
    t.sampleRate = 20000 ∧ t.baudRate = 2500 ∧ t.syncMs = 3000 ∧ t.modCfg.word = 0x00000800 ∧
    t.view = .closed ∧ t.smpPos = 0 ∧ t.smpRaw = 0 ∧ t.SyncZero ∧ t.seq = .idle ∧ t.irq = false ∧
    t.par = s.par ∧ t.pending = s.pending ∧ t.readData = s.readData

/-- R102: reserved and illegal words complete with IllegalCommand and touch nothing but STATUS. -/
def Obligations.IllegalAndReservedWords : Prop :=
  (∀ w : Word, rsvdField w ≠ 0 → decode w = .illegal (rsvdField w) (opField w)) ∧
  (∀ (w : Word) (s : State), rsvdField w = 0 → 8 ≤ (opField w).toNat → (opField w).toNat ≤ 14 →
    ∃ t, exec (decode w) s = .next t ∧ t.FailedWith 7 1 ∧ OnlyStatus s t) ∧
  (∀ (s : State) (r : BitVec 28) (o : BitVec 4),
    ∃ t, exec (.illegal r o) s = .next t ∧ t.FailedWith 7 2 ∧ OnlyStatus s t) ∧
  (∀ (s : State), ∀ i ∈ [Instr.reserved8, .reserved9, .reservedA, .reservedB, .reservedC, .reservedD, .reservedE],
    ∃ t, exec i s = .next t ∧ t.FailedWith 7 1 ∧ OnlyStatus s t) ∧
  (∀ (w : Word) (s : State), s.seq = .idle →
    (rsvdField w ≠ 0 → ∃ t, hostWrite .w32 0x04 w s = .next t ∧ t.FailedWith 7 2 ∧ OnlyStatus s t) ∧
    (rsvdField w = 0 → 8 ≤ (opField w).toNat → (opField w).toNat ≤ 14 →
      ∃ t, hostWrite .w32 0x04 w s = .next t ∧ t.FailedWith 7 1 ∧ OnlyStatus s t)) ∧
  (∀ (w : Word) (s : State), s.isBusy = true →
    rsvdField w ≠ 0 ∨ (8 ≤ (opField w).toNat ∧ (opField w).toNat ≤ 14) →
    hostWrite .w32 0x04 w s = .next { s with rej := true })

/-! ### The envelope -/

/-- R123: WRAP, on every input length: the three errors in their order, and on success the envelope byte by byte. -/
def Obligations.WrapBuildsTheEnvelope : Prop :=
  ∀ (s : State) (n : Nat), s.par.Ok → n = s.snap.inLen.toNat →
    ∃ t, exec .wrap s = .next t ∧ OnlyOut s t ∧ SameTones s t ∧
      (s.par.inCap < n → t.FailedWith 9 1 ∧ t.outLen = 0) ∧
      (n ≤ s.par.inCap → 65535 ≤ n → t.FailedWith 3 3 ∧ t.outLen = 0) ∧
      (n ≤ s.par.inCap → n < 65535 → s.par.outCap < n + 6 → t.FailedWith 9 2 ∧ t.outLen = 0) ∧
      (n ≤ s.par.inCap → n < 65535 → n + 6 ≤ s.par.outCap →
        t.Succeeded ∧ t.outLen.toNat = n + 6 ∧
        t.outNat 0 = (n + 1) / 256 ∧ t.outNat 1 = (n + 1) % 256 ∧
        (∀ i < n, t.outBuf.read (2 + i) = s.inBuf.read i) ∧ t.outBuf.read (2 + n) = 0xFF ∧
        t.outNat (3 + n) * 65536 + t.outNat (4 + n) * 256 + t.outNat (5 + n) = (s.inSum 0 n + 255) % 2 ^ 24)

/-- R122: the envelope check and the order of its errors, and what passes. -/
def Obligations.EnvelopeCheckOrder : Prop :=
  ∀ b : List Byte,
    let len := byteAt b 0 * 256 + byteAt b 1
    let stored := byteAt b (2 + len) * 65536 + byteAt b (3 + len) * 256 + byteAt b (4 + len)
    (b.length < 2 → envCheck b = some ⟨.lengthMismatch, 4⟩) ∧
    (2 ≤ b.length → b.length ≠ len + 5 → envCheck b = some ⟨.lengthMismatch, 1⟩) ∧
    (2 ≤ b.length → b.length = len + 5 → len = 0 → envCheck b = some ⟨.lengthMismatch, 2⟩) ∧
    (2 ≤ b.length → b.length = len + 5 → len ≠ 0 →
      (((List.range len).map fun i => byteAt b (2 + i)).sum % 2 ^ 24 ≠ stored →
        envCheck b = some ⟨.checksumMismatch, 1⟩) ∧
      (((List.range len).map fun i => byteAt b (2 + i)).sum % 2 ^ 24 = stored → envCheck b = none))

/-- R124: UNWRAP, on every input: the six errors in their order, and on success the raw data byte by byte. -/
def Obligations.UnwrapReturnsTheRawData : Prop :=
  ∀ (s : State) (n len stored : Nat), s.par.Ok → n = s.snap.inLen.toNat →
    len = s.inNat 0 * 256 + s.inNat 1 →
    stored = s.inNat (2 + len) * 65536 + s.inNat (3 + len) * 256 + s.inNat (4 + len) →
    ∃ t, exec .unwrap s = .next t ∧ OnlyOut s t ∧ SameTones s t ∧
      (s.par.inCap < n → t.FailedWith 9 1 ∧ t.outLen = 0) ∧
      (n ≤ s.par.inCap →
        (n < 2 → t.FailedWith 3 4 ∧ t.outLen = 0) ∧
        (2 ≤ n → n ≠ len + 5 → t.FailedWith 3 1 ∧ t.outLen = 0) ∧
        (2 ≤ n → n = len + 5 → len = 0 → t.FailedWith 3 2 ∧ t.outLen = 0) ∧
        (2 ≤ n → n = len + 5 → len ≠ 0 → s.inSum 2 len % 2 ^ 24 ≠ stored → t.FailedWith 4 1 ∧ t.outLen = 0) ∧
        (2 ≤ n → n = len + 5 → len ≠ 0 → s.inSum 2 len % 2 ^ 24 = stored → s.par.outCap < len - 1 →
          t.FailedWith 9 2 ∧ t.outLen = 0) ∧
        (2 ≤ n → n = len + 5 → len ≠ 0 → s.inSum 2 len % 2 ^ 24 = stored → len - 1 ≤ s.par.outCap →
          t.Succeeded ∧ t.outLen.toNat = len - 1 ∧ n = t.outLen.toNat + 6 ∧
          ∀ i < len - 1, t.outBuf.read i = s.inBuf.read (2 + i)))

/-- R125: WRAP of D followed by UNWRAP of WRAP's output returns D. `u` is any state whose IN holds WRAP's output. -/
def Obligations.WrapThenUnwrap : Prop :=
  ∀ s : State, s.par.Ok → s.snap.inLen.toNat ≤ 65534 → s.snap.inLen.toNat + 6 ≤ s.par.outCap →
    s.snap.inLen.toNat + 6 ≤ s.par.inCap →
    ∃ t, exec .wrap s = .next t ∧ t.Succeeded ∧
      ∀ u : State, u.par = s.par → u.snap.inLen = t.outLen →
        (∀ a < t.outLen.toNat, u.inBuf.read a = t.outBuf.read a) →
        ∃ v, exec .unwrap u = .next v ∧ v.Succeeded ∧ v.outLen = s.snap.inLen ∧
          ∀ a < v.outLen.toNat, v.outBuf.read a = s.inBuf.read a

/-- R126, for an envelope of at least one payload byte, which is what UNWRAP accepts (R122 answers an empty payload
with LengthMismatch(2) before it looks at the checksum): flipping one bit of a valid envelope makes UNWRAP fail, with
ChecksumMismatch(1) in payload or checksum, with LengthMismatch(1) in the length prefix. R127: so does an envelope one
byte short or one byte long, with LengthMismatch(1). -/
def Obligations.CorruptedEnvelopes : Prop :=
  (∀ (u : State) (len : Nat), len = u.inNat 0 * 256 + u.inNat 1 → u.snap.inLen.toNat ≤ u.par.inCap →
    u.snap.inLen.toNat = len + 4 ∨ u.snap.inLen.toNat = len + 6 →
    ∃ t, exec .unwrap u = .next t ∧ t.FailedWith 3 1 ∧ t.outLen = 0) ∧
  ∀ (s u : State) (len j k : Nat), len ≠ 0 → len = s.inNat 0 * 256 + s.inNat 1 →
    s.inSum 2 len = s.inNat (2 + len) * 65536 + s.inNat (3 + len) * 256 + s.inNat (4 + len) →
    u.snap.inLen.toNat = len + 5 → len + 5 ≤ u.par.inCap → j < len + 5 → k < 8 →
    u.inBuf.read j = s.inBuf.read j ^^^ BitVec.twoPow 8 k → (∀ a, a ≠ j → u.inBuf.read a = s.inBuf.read a) →
    ∃ t, exec .unwrap u = .next t ∧ (j < 2 → t.FailedWith 3 1) ∧ (2 ≤ j → t.FailedWith 4 1)

/-- R128: WRAP and UNWRAP are functions of IN_LEN and IN (and of the capacities, R263): two states that agree on
those, whatever else they hold, get the same STATUS and the same result; and neither changes the view or the
demodulator's registers. -/
def Obligations.EnvelopeCommandsArePure : Prop :=
  ∀ (s u : State), ∀ i ∈ [Instr.wrap, .unwrap], u.par = s.par → u.snap.inLen = s.snap.inLen →
    (∀ a < s.snap.inLen.toNat, u.inBuf.read a = s.inBuf.read a) →
    ∃ t v, exec i s = .next t ∧ exec i u = .next v ∧
      v.done = t.done ∧ v.err = t.err ∧ v.errCode = t.errCode ∧ v.errDetail = t.errDetail ∧ v.outLen = t.outLen ∧
      (∀ a < t.outLen.toNat, v.outBuf.read a = t.outBuf.read a) ∧ OnlyOut s t ∧ OnlyOut u v

/-- R121: the checksum is the sum mod 2^24, the same as reducing after every addition, and for at most 65535 bytes
it is the sum itself. -/
def Obligations.ChecksumNeverWraps : Prop :=
  ∀ p : List Byte,
    csum p = (p.map fun b => b.toNat).sum % 2 ^ 24 ∧
    csum p = p.foldl (fun acc b => (acc + b.toNat) % 2 ^ 24) 0 ∧
    (p.length ≤ 65535 → (p.map fun b => b.toNat).sum ≤ 16711425 ∧ csum p = (p.map fun b => b.toNat).sum)

/-! ### Sample codes, the writer and the reader -/

/-- R147 and R148, with the quantisers of R141 and R142: the values the rules list, and each quantiser undoes its
map on every code. -/
def Obligations.QuantisersInvertNormalisation : Prop :=
  (∀ c : Int, norm8 c = (2 * c - 255) / 255) ∧
  norm8 0 = -1 ∧ norm8 255 = 1 ∧ norm8 127 = mkRat (-1) 255 ∧ norm8 128 = mkRat 1 255 ∧
  (∀ c : Int, norm8 c ≠ 0) ∧
  (∀ c : Int, -32768 ≤ c → c < 0 → norm16 c = c / 32768) ∧
  (∀ c : Int, 0 ≤ c → c ≤ 32767 → norm16 c = c / 32767) ∧
  norm16 (-32768) = -1 ∧ norm16 32767 = 1 ∧
  q8 (-1) = 0 ∧ q8 0 = 128 ∧ q8 1 = 255 ∧ q16 (-1) = -32768 ∧ q16 0 = 0 ∧ q16 1 = 32767 ∧
  (∀ c : Int, 0 ≤ c → c ≤ 255 → q8 (norm8 c) = c) ∧
  (∀ c : Int, -32768 ≤ c → c ≤ 32767 → q16 (norm16 c) = c)

/-- R143 and R145: the container's length, its header field by field and its sample bytes. -/
def Obligations.ContainerLayout : Prop :=
  ∀ (rate : Nat) (depth : Depth) (codes : List Int),
    let bps := match depth with | .eight => 1 | .sixteen => 2
    let db := codes.length * bps
    let c := container rate depth codes
    rate < 2 ^ 32 → rate * bps < 2 ^ 32 → 36 + db < 2 ^ 32 →
    c.length = 44 + db ∧
    slice c 0 4 = [0x52, 0x49, 0x46, 0x46] ∧ u32le c 4 = 36 + db ∧ slice c 8 12 = [0x57, 0x41, 0x56, 0x45] ∧
    slice c 12 16 = [0x66, 0x6D, 0x74, 0x20] ∧ u32le c 16 = 16 ∧ u16le c 20 = 1 ∧ u16le c 22 = 1 ∧
    u32le c 24 = rate ∧ u32le c 28 = rate * bps ∧ u16le c 32 = bps ∧ u16le c 34 = 8 * bps ∧
    slice c 36 40 = [0x64, 0x61, 0x74, 0x61] ∧ u32le c 40 = db ∧
    (∀ j < codes.length,
      match depth with
      | .eight => byteAt c (44 + j) = (codes.getD j 0 % 256).toNat
      | .sixteen => u16le c (44 + 2 * j) = (codes.getD j 0 % 65536).toNat)

/-- R150: PARSE: the header checks in order, then the chunk scan, which from any offset does one chunk and goes on
(so no bound on the number of chunks is hidden in the model's fuel), then the checks of the two chunks found. -/
def Obligations.ParseFollowsTheRule : Prop :=
  (∀ b : List Byte,
    let stop := 8 + u32le b 4
    (b.length < 12 ∨ slice b 0 4 ≠ [0x52, 0x49, 0x46, 0x46] → parse b = .error ⟨.malformedContainer, 1⟩) ∧
    (12 ≤ b.length → slice b 0 4 = [0x52, 0x49, 0x46, 0x46] →
      (slice b 8 12 ≠ [0x57, 0x41, 0x56, 0x45] → parse b = .error ⟨.malformedContainer, 2⟩) ∧
      (slice b 8 12 = [0x57, 0x41, 0x56, 0x45] →
        (b.length < stop → parse b = .error ⟨.malformedContainer, 3⟩) ∧
        (stop ≤ b.length →
          parse b = (scanChunks b stop b.length 12 ⟨none, none⟩).bind (viewOfChunks b))))) ∧
  (∀ (b : List Byte) (stop p fuel : Nat) (found : Chunks), stop - p < fuel →
    let size := u32le b (p + 4)
    let next := p + 8 + size + size % 2
    (stop < p + 8 → scanChunks b stop fuel p found = .ok found) ∧
    (p + 8 ≤ stop → stop < p + 8 + size → scanChunks b stop fuel p found = .error ⟨.malformedContainer, 3⟩) ∧
    (p + 8 + size ≤ stop →
      (slice b p (p + 4) = [0x66, 0x6D, 0x74, 0x20] →
        (found.fmt ≠ none → scanChunks b stop fuel p found = .error ⟨.malformedContainer, 6⟩) ∧
        (found.fmt = none → scanChunks b stop fuel p found =
          scanChunks b stop fuel next ⟨some (p + 8, size), found.data⟩)) ∧
      (slice b p (p + 4) = [0x64, 0x61, 0x74, 0x61] →
        (found.data ≠ none → scanChunks b stop fuel p found = .error ⟨.malformedContainer, 7⟩) ∧
        (found.data = none → scanChunks b stop fuel p found =
          scanChunks b stop fuel next ⟨found.fmt, some (p + 8, size)⟩)) ∧
      (slice b p (p + 4) ≠ [0x66, 0x6D, 0x74, 0x20] → slice b p (p + 4) ≠ [0x64, 0x61, 0x74, 0x61] →
        scanChunks b stop fuel p found = scanChunks b stop fuel next found))) ∧
  (∀ (b : List Byte) (d : Option (Nat × Nat)), viewOfChunks b ⟨none, d⟩ = .error ⟨.malformedContainer, 4⟩) ∧
  (∀ (b : List Byte) (f : Nat × Nat), viewOfChunks b ⟨some f, none⟩ = .error ⟨.malformedContainer, 5⟩) ∧
  (∀ (b : List Byte) (fo fs base ds : Nat),
    let result := viewOfChunks b ⟨some (fo, fs), some (base, ds)⟩
    (fs < 16 → result = .error ⟨.malformedContainer, 8⟩) ∧
    (16 ≤ fs →
      (u16le b fo ≠ 1 → result = .error ⟨.unsupportedFormat, 1⟩) ∧
      (u16le b fo = 1 → u16le b (fo + 2) ≠ 1 → result = .error ⟨.unsupportedFormat, 2⟩) ∧
      (u16le b fo = 1 → u16le b (fo + 2) = 1 →
        (u16le b (fo + 14) ≠ 8 → u16le b (fo + 14) ≠ 16 → result = .error ⟨.unsupportedFormat, 3⟩) ∧
        (u16le b (fo + 14) = 8 →
          result = .ok (.opened base .eight (BitVec.ofNat 32 ds) (BitVec.ofNat 32 (u32le b (fo + 4))))) ∧
        (u16le b (fo + 14) = 16 →
          result = .ok (.opened base .sixteen (BitVec.ofNat 32 (ds / 2)) (BitVec.ofNat 32 (u32le b (fo + 4))))))))

/-- The reader accepts whatever the writer produces, with the writer's rate, width and count, and reads the codes
back (R143, R145, R149, R152). -/
def Obligations.ReaderAcceptsTheWriter : Prop :=
  ∀ (rate : Nat) (depth : Depth) (codes : List Int) (m : Memory),
    let c := container rate depth codes
    rate < 2 ^ 32 → c.length ≤ 2 ^ 24 → (∀ a < c.length, m.read a = c.getD a 0) →
    parse (m.readRange 0 c.length) =
      .ok (.opened 44 depth (BitVec.ofNat 32 codes.length) (BitVec.ofNat 32 rate)) ∧
    ∀ i < codes.length,
      (match depth with
        | .eight => 0 ≤ codes.getD i 0 ∧ codes.getD i 0 ≤ 255
        | .sixteen => -32768 ≤ codes.getD i 0 ∧ codes.getD i 0 ≤ 32767) →
      codeAt m 44 depth i = codes.getD i 0

/-- R158 with R156: OPEN, on every input: it closes the view on an error and else opens the parsed one with the cursor
at 0; nothing else changes but STATUS. -/
def Obligations.OpenAppliesTheParse : Prop :=
  ∀ s : State, ∃ t, exec .openView s = .next t ∧ SameHost s t ∧ SameOut s t ∧ t.smpRaw = s.smpRaw ∧ SameSync s t ∧
    SameTones s t ∧
    (s.par.inCap < s.snap.inLen.toNat → t.FailedWith 9 1 ∧ t.view = .closed ∧ t.smpPos = 0) ∧
    (s.snap.inLen.toNat ≤ s.par.inCap →
      (∀ e, parse (s.inBuf.readRange 0 s.snap.inLen.toNat) = .error e →
        t.FailedWith e.kind.code e.detail ∧ t.view = .closed ∧ t.smpPos = 0) ∧
      (∀ v, parse (s.inBuf.readRange 0 s.snap.inLen.toNat) = .ok v →
        t.Succeeded ∧ t.view = v ∧ t.smpPos = 0))

/-- R161: SEEK, on every index. -/
def Obligations.SeekMovesTheCursor : Prop :=
  ∀ s : State, ∃ t, exec .seek s = .next t ∧ SameHost s t ∧ SameOut s t ∧ t.view = s.view ∧ t.smpRaw = s.smpRaw ∧
    SameSync s t ∧ SameTones s t ∧
    (s.view.count.toNat ≤ s.snap.arg.toNat → t.FailedWith 6 1 ∧ t.smpPos = s.smpPos) ∧
    (s.view = .closed → t.FailedWith 6 1) ∧
    (s.snap.arg.toNat < s.view.count.toNat → t.Succeeded ∧ t.smpPos = s.snap.arg)

/-- R160 with R149: READ, with no view, with the cursor past the samples, and on each width of sample. -/
def Obligations.ReadReturnsTheCode : Prop :=
  ∀ s : State, ∃ t, exec .read s = .next t ∧ SameHost s t ∧ SameOut s t ∧ t.view = s.view ∧ SameSync s t ∧
    SameTones s t ∧
    (s.view = .closed ∨ s.view.count.toNat ≤ s.smpPos.toNat →
      t.FailedWith 6 2 ∧ t.smpPos = s.smpPos ∧ t.smpRaw = s.smpRaw) ∧
    (∀ base count rate, s.view = .opened base .eight count rate → s.smpPos.toNat < count.toNat →
      t.Succeeded ∧ t.smpPos.toNat = s.smpPos.toNat + 1 ∧
      t.smpRaw = (s.inBuf.read (base + s.smpPos.toNat)).setWidth 32) ∧
    (∀ base count rate, s.view = .opened base .sixteen count rate → s.smpPos.toNat < count.toNat →
      t.Succeeded ∧ t.smpPos.toNat = s.smpPos.toNat + 1 ∧
      t.smpRaw = (s.inBuf.read (base + 2 * s.smpPos.toNat + 1) ++
        s.inBuf.read (base + 2 * s.smpPos.toNat) : BitVec 16).signExtend 32)

/-- R162: SEEK to an index, then READ: the code there, whose normalised value is the sample, and the cursor after it;
or OutOfRange(1) from SEEK. -/
def Obligations.SeekThenRead : Prop :=
  ∀ s : State, ∃ t, exec .seek s = .next t ∧
    (s.view.count.toNat ≤ s.snap.arg.toNat → t.FailedWith 6 1) ∧
    (s.snap.arg.toNat < s.view.count.toNat → t.Succeeded ∧
      ∃ u, exec .read t = .next u ∧ u.Succeeded ∧ u.smpPos.toNat = s.snap.arg.toNat + 1 ∧
        u.smpRaw.toInt = s.code s.snap.arg.toNat ∧
        ∀ base depth count rate, s.view = .opened base depth count rate →
          norm depth u.smpRaw.toInt = s.sample s.snap.arg.toNat)

/-! ### The modulator -/

/-- R180: MODULATE's five configuration checks, in their order; it fails before it computes anything. -/
def Obligations.ModulateConfigurationChecks : Prop :=
  ∀ (s : State) (p : Snapshot) (bits : Nat), p = s.snap → bits = p.modCfg.bitsPerSample.toNat →
    ∃ t, exec .modulate s = .next t ∧ OnlyOut s t ∧
      (s.par.inCap < p.inLen.toNat → t.FailedWith 9 1 ∧ t.outLen = 0 ∧ SameTones s t) ∧
      (p.inLen.toNat ≤ s.par.inCap →
        (p.baudRate = 0 → t.FailedWith 8 1 ∧ t.outLen = 0 ∧ SameTones s t) ∧
        (p.baudRate ≠ 0 →
          (p.sampleRate.toNat < p.baudRate.toNat → t.FailedWith 8 2 ∧ t.outLen = 0 ∧ SameTones s t) ∧
          (p.baudRate.toNat ≤ p.sampleRate.toNat →
            (bits ≠ 8 → bits ≠ 16 → t.FailedWith 8 3 ∧ t.outLen = 0 ∧ SameTones s t) ∧
            (bits = 8 ∨ bits = 16 → 2 ^ 32 - 1 < p.sampleRate.toNat * (bits / 8) →
              t.FailedWith 8 4 ∧ t.outLen = 0 ∧ SameTones s t))))

/-- R188 with R185, R186 and R187: MODULATE, on every input. The first check that fails gives the error. Else N, Lc and
the size are as the rules compute them; too long a result fails; else OUT holds the container of the sample list, whose
code at each place is the tone table's entry for the window's bit (what that entry is: ToneCodesRoundTheExactSine). -/
def Obligations.ModulateWritesTheContainer : Prop :=
  ∀ (s : State) (p : Snapshot) (bits : Nat), s.par.Ok → p = s.snap → bits = p.modCfg.bitsPerSample.toNat →
    let firstError : Option (BitVec 4 × BitVec 4) :=
      if s.par.inCap < p.inLen.toNat then some (9, 1)
      else if p.baudRate = 0 then some (8, 1)
      else if p.sampleRate.toNat < p.baudRate.toNat then some (8, 2)
      else if bits ≠ 8 ∧ bits ≠ 16 then some (8, 3)
      else if 2 ^ 32 - 1 < p.sampleRate.toNat * (bits / 8) then some (8, 4)
      else none
    ∃ t, exec .modulate s = .next t ∧ OnlyOut s t ∧
      (∀ e, firstError = some e → t.FailedWith e.1 e.2 ∧ t.outLen = 0) ∧
      (∀ (depth : Depth) (n leader samples size : Nat), firstError = none → bits = depth.bits →
        n = p.sampleRate.toNat / p.baudRate.toNat →
        leader = (p.sampleRate.toNat * p.syncMs.toNat + 1000 * n - 1) / (1000 * n) →
        samples = n * (leader + 12 * p.inLen.toNat) → size = 44 + samples * (bits / 8) →
        (s.par.outCap < size → t.FailedWith 9 2 ∧ t.outLen = 0) ∧
        (size ≤ s.par.outCap → t.Succeeded ∧ t.outLen.toNat = size ∧
          ∃ codes : List Int, codes.length = samples ∧
            (∀ a < size, t.outBuf.read a = (container p.sampleRate.toNat depth codes).getD a 0) ∧
            ∀ j < samples, codes.getD j 0 =
              toneCode s.par p.modCfg.reversePhase depth n (windowBit leader s.inBuf.read (j / n)) (j % n)))

/-- R183: every entry of a tone table is the code of the exact real wave, for every N. And the model's rational
enclosure, with which it settles most codes, holds that wave. -/
def Obligations.ToneCodesRoundTheExactSine : Prop :=
  ∀ (par : Params) (reverse : Bool) (depth : Depth) (n b i : Nat) (w : ℝ) (c : Int), par.Ok →
    0 < n → b ≤ 1 → i < n → IsWave par reverse n b i w → IsCode depth w c →
    (toneTable par reverse depth n b).length = n ∧ (toneTable par reverse depth n b)[i]? = some c ∧
    toneCode par reverse depth n b i = c ∧
    ((toneWave par reverse n b i).lo : ℝ) ≤ w ∧ w ≤ ((toneWave par reverse n b i).hi : ℝ)

/-- R183 and R184: the tone tables all of whose sines are rational. One and two samples a cycle give the zero code
only; four give the zero code and the two clamp levels for value 0 and the zero code for value 1; and the value-1 table
of eight samples a cycle is the zero code and the two clamp levels. -/
def Obligations.RationalToneTables : Prop :=
  ∀ (par : Params) (reverse : Bool) (depth : Depth), par.Ok →
    let level (v : Rat) : Int := quantise depth (if reverse then -v else v)
    let zero : Int := match depth with | .eight => 128 | .sixteen => 0
    (∀ b, b ≤ 1 → toneTable par reverse depth 1 b = [zero] ∧ toneTable par reverse depth 2 b = [zero, zero]) ∧
    toneTable par reverse depth 4 0 = [zero, level par.sqHi, zero, level par.sqLo] ∧
    toneTable par reverse depth 4 1 = [zero, zero, zero, zero] ∧
    toneTable par reverse depth 8 1 =
      [zero, level par.sqHi, zero, level par.sqLo, zero, level par.sqHi, zero, level par.sqLo]

/-- R191: the counts at the default configuration. -/
def Obligations.DefaultModulateCounts : Prop :=
  ∀ s : State, s.par.Ok → s.snap.sampleRate = 20000 → s.snap.baudRate = 2500 → s.snap.syncMs = 3000 →
    s.snap.modCfg = ⟨false, 8⟩ → s.snap.inLen.toNat ≤ s.par.inCap →
    60044 + 96 * s.snap.inLen.toNat ≤ s.par.outCap →
    ∃ t, exec .modulate s = .next t ∧ t.Succeeded ∧ t.outLen.toNat = 60044 + 96 * s.snap.inLen.toNat ∧
      t.outNat 40 + 256 * t.outNat 41 + 65536 * t.outNat 42 + 16777216 * t.outNat 43 =
        60000 + 96 * s.snap.inLen.toNat

/-! ### The demodulator -/

/-- R211: which samples exceed the threshold, by value and by code, and the sign of a cycle's start. -/
def Obligations.ThresholdByCode : Prop :=
  (∀ x : Rat, exceeds x = true ↔ mkRat 1 5 < |x|) ∧
  (∀ x : Rat, (0 < x → signOf x = 1) ∧ (x ≤ 0 → signOf x = -1)) ∧
  (∀ c : Int, 0 ≤ c → c ≤ 255 → (exceeds (norm8 c) = true ↔ c ≤ 101 ∨ 154 ≤ c)) ∧
  (∀ c : Int, -32768 ≤ c → c ≤ 32767 → (exceeds (norm16 c) = true ↔ c ≤ -6554 ∨ 6554 ≤ c))

/-- R212: FIND returns the first triple: each of its three indices is the least that meets its condition, s < m < e,
and it returns none exactly when one of them does not exist. -/
def Obligations.FindReturnsTheFirstTriple : Prop :=
  ∀ (sample : Nat → Rat) (count p : Nat),
    (∀ s m e, findTriple sample count p = some (s, m, e) ↔
      (p ≤ s ∧ s < count ∧ mkRat 1 5 < |sample s| ∧ ∀ i, p ≤ i → i < s → |sample i| ≤ mkRat 1 5) ∧
      (s < m ∧ m < count ∧ signOf (sample s) * sample m < -mkRat 1 5 ∧
        ∀ i, s < i → i < m → -mkRat 1 5 ≤ signOf (sample s) * sample i) ∧
      (m < e ∧ e < count ∧ mkRat 1 5 < signOf (sample s) * sample e ∧
        ∀ i, m < i → i < e → signOf (sample s) * sample i ≤ mkRat 1 5)) ∧
    (findTriple sample count p = none ↔
      ∀ s m e, p ≤ s → s < m → m < e → e < count → mkRat 1 5 < |sample s| →
        (∀ i, p ≤ i → i < s → |sample i| ≤ mkRat 1 5) →
        signOf (sample s) * sample m < -mkRat 1 5 →
        signOf (sample s) * sample e ≤ mkRat 1 5)

/-- R214 with R213: DETECT, in its four cases, and what it leaves alone. -/
def Obligations.DetectReportsTheEvent : Prop :=
  ∀ s : State, s.smpPos ≤ s.view.count →
    (findTriple s.sample s.view.count.toNat s.smpPos.toNat = none →
      detect s = (if s.inBlock then .eob else .eof, { s with smpPos := s.view.count, inBlock := false })) ∧
    (∀ a m e, findTriple s.sample s.view.count.toNat s.smpPos.toNat = some (a, m, e) →
      (detect s).1 = (if s.inBlock then .cycle a (e - a) else .sob a (e - a)) ∧
      (detect s).2.smpPos.toNat = e ∧ (detect s).2.cycStart.toNat = a ∧ (detect s).2.cycLen.toNat = e - a ∧
      (detect s).2 = { s with
        smpPos := (detect s).2.smpPos
        cycStart := (detect s).2.cycStart
        cycLen := (detect s).2.cycLen
        inBlock := true } ∧
      mkRat 1 5 < |s.sample e|) ∧
    (detect s).2.smpPos ≤ s.view.count

/-- R215: after end-of-block the next DETECT returns end-of-file, so a second block cannot start; the first regular
cycle's start is the end of the cycle before it. -/
def Obligations.OneBlockOnly : Prop :=
  ∀ s : State,
    ((detect s).1 = .eob ∨ (detect s).1 = .eof → (detect (detect s).2).1 = .eof) ∧
    (∀ a l b k, (detect s).1 = .sob a l ∨ (detect s).1 = .cycle a l →
      (detect (detect s).2).1 = .cycle b k → b = a + l)

/-- R220 and R221 with R222 to R225: the low test, that a regular cycle inside a block is put to it, and SYNC in
each of its cases. -/
def Obligations.SynchroniserStep : Prop :=
  (∀ rate baud l : Nat, isLow rate baud l = true ↔ 2 * rate < 3 * baud * l) ∧
  (∀ (s : State) (a l : Nat), consume true (.cycle a l) s =
    sync (decide (2 * s.view.rate.toNat < 3 * s.snap.baudRate.toNat * l)) s) ∧
  (∀ l, isLow 20000 2500 l = true ↔ 6 ≤ l) ∧ (∀ l, isLow 40000 2500 l = true ↔ 11 ≤ l) ∧
  (∀ s : State, s.halfUnits = 0 → sync true s = .ok { s with halfUnits := 2 } ∧ sync false s = .ok s) ∧
  (∀ s : State, s.halfUnits ≠ 0 → s.halfUnits.toNat % 2 = 1 → sync true s = .error ⟨.protocolViolation, 1⟩) ∧
  (∀ s : State, s.halfUnits ≠ 0 → s.halfUnits.toNat % 2 = 0 →
    (s.halfUnits ≠ 16 →
      sync true s = .ok { s with halfUnits := s.halfUnits + 2, workingByte := s.workingByte >>> 1 }) ∧
    (s.halfUnits = 16 → sync true s = .ok { s with
      halfUnits := 0
      workingByte := 0
      bytes := s.bytes ++ [s.workingByte >>> 1]
      demodBytes := s.demodBytes + 1 }) ∧
    sync false s = .ok { s with halfUnits := s.halfUnits + 1 }) ∧
  (∀ s : State, s.halfUnits.toNat % 2 = 1 →
    (s.halfUnits ≠ 17 → sync false s = .ok { s with
      halfUnits := s.halfUnits + 1
      workingByte := (s.workingByte >>> 1) ||| 0x80 }) ∧
    (s.halfUnits = 17 → sync false s = .ok { s with
      halfUnits := 0
      workingByte := 0
      bytes := s.bytes ++ [(s.workingByte >>> 1) ||| 0x80]
      demodBytes := s.demodBytes + 1 }))

/-- R226: after a start bit, the cycles of a byte's eight bits, least significant first, emit exactly that byte,
whatever WORKING_BYTE held; the accumulator is then at 0. -/
def Obligations.ByteCyclesEmitTheByte : Prop :=
  ∀ (s : State) (b : Byte), s.halfUnits = 2 →
    syncAll (byteCycles b) s = .ok { s with
      halfUnits := 0
      workingByte := 0
      bytes := s.bytes ++ [b]
      demodBytes := s.demodBytes + 1 }

/-- R227, R228 and R229: the block boundaries. Outside a block a cycle or an end-of-block is a violation, but DETECT
never gives one there, so DEMODULATE never reports the two detail codes. -/
def Obligations.BlockBoundaries : Prop :=
  (∀ (s : State) (was : Bool) (a l : Nat),
    consume was (.sob a l) s = .ok { s with halfUnits := 0, workingByte := 0 }) ∧
  (∀ s : State, s.halfUnits ≠ 0 → consume true .eob s = .error ⟨.protocolViolation, 2⟩) ∧
  (∀ s : State, s.halfUnits = 0 → consume true .eob s = .ok s) ∧
  (∀ (s : State) (a l : Nat), consume false (.cycle a l) s = .error ⟨.protocolViolation, 3⟩) ∧
  (∀ s : State, consume false .eob s = .error ⟨.protocolViolation, 4⟩) ∧
  (∀ (s : State) (a l : Nat), (detect s).1 = .cycle a l ∨ (detect s).1 = .eob → s.inBlock = true) ∧
  (∀ s t : State, exec .demodulate s = .next t → t.errCode = 5 → t.errDetail ≠ 3 ∧ t.errDetail ≠ 4)

/-- R230's loop: from any place of the samples, with the model's fuel, one event is detected and consumed, and the
same loop goes on from there unless the event or an error ends it; so no bound on the number of cycles is hidden in
the fuel. -/
def Obligations.DemodulateLoop : Prop :=
  ∀ s : State, s.smpPos ≤ s.view.count →
    let fuel := s.view.count.toNat + 1
    let ev := (detect s).1
    let s1 := (detect s).2
    (∀ e, consume s.inBlock ev s1 = .error e → demodLoop fuel s = (s1, some e)) ∧
    (∀ s2, consume s.inBlock ev s1 = .ok s2 →
      (ev = .eof ∨ ev = .eob → demodLoop fuel s = (s2, none)) ∧
      (ev ≠ .eof → ev ≠ .eob → s2.smpPos ≤ s2.view.count ∧ s2.view = s.view ∧
        demodLoop fuel s = demodLoop fuel s2))

/-- R230 and R267: DEMODULATE failing before its PARSE succeeds, in the order of the checks. -/
def Obligations.DemodulateEarlyFailures : Prop :=
  ∀ (s : State) (n : Nat), n = s.snap.inLen.toNat →
    ∃ t, exec .demodulate s = .next t ∧ SameHost s t ∧ t.smpRaw = s.smpRaw ∧ SameTones s t ∧
      (s.par.inCap < n →
        t.FailedWith 9 1 ∧ t.outLen = 0 ∧ t.view = .closed ∧ t.smpPos = 0 ∧ t.SyncZero) ∧
      (n ≤ s.par.inCap → s.snap.baudRate = 0 →
        t.FailedWith 8 1 ∧ t.outLen = 0 ∧ t.view = .closed ∧ t.smpPos = 0 ∧ t.SyncZero) ∧
      (∀ e, n ≤ s.par.inCap → s.snap.baudRate ≠ 0 → parse (s.inBuf.readRange 0 n) = .error e →
        t.FailedWith e.kind.code e.detail ∧ t.outLen = 0 ∧ t.view = .closed ∧ t.smpPos = 0 ∧ t.SyncZero)

/-- R230, R232 and R233: DEMODULATE once its PARSE succeeded. `r` and `stream` are what the loop leaves. The view
stays open; the cursor, the synchroniser and the cycle registers stay as the loop left them; the cursor is at the end
of the samples, or, after a violation inside a byte, at the end of the offending cycle; and the outcome is the stream
error, else the envelope's, else the capacity's, else success with the bytes in OUT. That the bytes emitted stay in
BYTES after the command (SameSync) is log 10. -/
def Obligations.DemodulateResult : Prop :=
  ∀ (s : State) (v : View), s.par.Ok → s.snap.inLen.toNat ≤ s.par.inCap → s.snap.baudRate ≠ 0 →
    parse (s.inBuf.readRange 0 s.snap.inLen.toNat) = .ok v →
    let r := (demodLoop (v.count.toNat + 1) (s.clearDemod.setView v)).1
    let stream := (demodLoop (v.count.toNat + 1) (s.clearDemod.setView v)).2
    ∃ t, exec .demodulate s = .next t ∧ SameHost s t ∧ t.smpRaw = s.smpRaw ∧ SameTones s t ∧
      t.view = v ∧ t.smpPos = r.smpPos ∧ SameSync r t ∧
      (stream = none → t.smpPos = v.count ∧ t.inBlock = false ∧ t.halfUnits = 0) ∧
      (stream = some ⟨.protocolViolation, 2⟩ → t.smpPos = v.count ∧ t.inBlock = false) ∧
      (stream = some ⟨.protocolViolation, 1⟩ →
        t.smpPos.toNat = t.cycStart.toNat + t.cycLen.toNat ∧ t.inBlock = true) ∧
      (∀ e, stream = some e → (e = ⟨.protocolViolation, 1⟩ ∨ e = ⟨.protocolViolation, 2⟩) ∧
        t.FailedWith e.kind.code e.detail ∧ t.outLen = 0) ∧
      (∀ e, stream = none → envCheck r.bytes = some e → t.FailedWith e.kind.code e.detail ∧ t.outLen = 0) ∧
      (stream = none → envCheck r.bytes = none → s.par.outCap < r.bytes.length →
        t.FailedWith 9 2 ∧ t.outLen = 0) ∧
      (stream = none → envCheck r.bytes = none → r.bytes.length ≤ s.par.outCap →
        t.Succeeded ∧ t.outLen.toNat = r.bytes.length ∧ ∀ a < r.bytes.length, t.outBuf.read a = r.bytes.getD a 0)

/-- R231: silence, no sample beyond the threshold, ends in LengthMismatch(4) with no block and no byte. -/
def Obligations.SilenceHasNoBlock : Prop :=
  ∀ (s : State) (v : View), s.snap.inLen.toNat ≤ s.par.inCap → s.snap.baudRate ≠ 0 →
    parse (s.inBuf.readRange 0 s.snap.inLen.toNat) = .ok v →
    (∀ i < v.count.toNat, |(s.setView v).sample i| ≤ mkRat 1 5) →
    ∃ t, exec .demodulate s = .next t ∧ t.FailedWith 3 4 ∧ t.outLen = 0 ∧ t.view = v ∧ t.smpPos = v.count ∧ t.SyncZero

/-! ### Errors, completion and the interrupt -/

/-- R262: no command raises an error that is not in its list; NOP and RESET raise nothing. -/
def Obligations.WhatEachCommandRaises : Prop :=
  ∀ (i : Instr) (s t : State), exec i s = .next t →
    (t.err = true → (t.errCode, t.errDetail) ∈ mayRaise i) ∧
    (t.err = false → t.errCode = 0 ∧ t.errDetail = 0) ∧
    (i = .nop ∨ i = .reset → t.err = false)

/-- R267: the state after a failed command, besides STATUS, for every command. -/
def Obligations.StateAfterAFailedCommand : Prop :=
  ∀ (i : Instr) (s t : State), exec i s = .next t → t.err = true →
    SameHost s t ∧ t.smpRaw = s.smpRaw ∧
    (i = .wrap ∨ i = .unwrap ∨ i = .modulate → t.outLen = 0 ∧ SameView s t ∧ SameSync s t) ∧
    (i = .demodulate → t.outLen = 0) ∧
    (i = .demodulate →
      s.par.inCap < s.snap.inLen.toNat ∨ s.snap.baudRate = 0 ∨
        (∃ e, parse (s.inBuf.readRange 0 s.snap.inLen.toNat) = .error e) →
      t.view = .closed ∧ t.smpPos = 0 ∧ t.SyncZero) ∧
    (∀ v, i = .demodulate → s.snap.inLen.toNat ≤ s.par.inCap → s.snap.baudRate ≠ 0 →
      parse (s.inBuf.readRange 0 s.snap.inLen.toNat) = .ok v →
      t.view = v ∧ t.smpPos = (demodLoop (v.count.toNat + 1) (s.clearDemod.setView v)).1.smpPos ∧
      SameSync (demodLoop (v.count.toNat + 1) (s.clearDemod.setView v)).1 t) ∧
    (i = .openView → SameOut s t ∧ t.view = .closed ∧ t.smpPos = 0 ∧ SameSync s t) ∧
    (i = .seek ∨ i = .read → SameOut s t ∧ SameView s t ∧ SameSync s t) ∧
    (∀ r o, i = .illegal r o → OnlyStatus s t) ∧
    (i ∈ [Instr.reserved8, .reserved9, .reservedA, .reservedB, .reservedC, .reservedD, .reservedE] →
      OnlyStatus s t)

/-- R268: a failed command issued again, on the state it left, fails with the same error. -/
def Obligations.ReissueGivesTheSameError : Prop :=
  ∀ (i : Instr) (s t : State), s.snap = s.liveSnap → exec i s = .next t → t.err = true →
    ∃ u, exec i t = .next u ∧ u.FailedWith t.errCode t.errDetail

/-- R73: a command reads no byte of IN at or beyond IN_LEN and writes none: changing those bytes changes nothing else
of its result. (READ is not in the list: it reads through the view.) -/
def Obligations.CommandsReadOnlyTheirInput : Prop :=
  ∀ (s t : State) (m : Memory), ∀ i ∈ [Instr.wrap, .unwrap, .modulate, .demodulate, .openView],
    (∀ a < s.snap.inLen.toNat, m.read a = s.inBuf.read a) → exec i s = .next t →
    exec i { s with inBuf := m } = .next { t with inBuf := m }

/-- R47, with R271: every command but RESET completes with DONE = 1, so IRQ then equals IE whether it succeeded or
failed; acceptance, a STATUS write with bit 1 and RESET lower it. -/
def Obligations.CompletionRaisesTheInterrupt : Prop :=
  (∀ s : State, s.irq = true ↔ s.ie = true ∧ s.done = true) ∧
  (∀ (i : Instr) (s t : State), i ≠ .reset → exec i s = .next t → t.done = true ∧ t.irq = s.ie) ∧
  (∀ s t : State, exec .reset s = .next t → t.irq = false) ∧
  (∀ (s : State) (op : Op), (s.accept op).irq = false) ∧
  (∀ (s t : State) (v : Word), v.getLsbD 1 = true → hostWrite .w32 0x08 v s = .next t → t.irq = false)

/-! ### The host interface -/

/-- R25: STATUS, field by field as it reads, and a write to it, at any time. -/
def Obligations.StatusRegister : Prop :=
  ∀ s : State,
    (∃ t, hostRead .w32 0x08 s = .next t ∧
      t.readData.getLsbD 0 = s.isBusy ∧ t.readData.getLsbD 1 = s.done ∧ t.readData.getLsbD 2 = s.err ∧
      t.readData.getLsbD 3 = s.rej ∧ t.readData.extractLsb' 4 4 = 0 ∧ t.readData.extractLsb' 8 4 = s.errCode ∧
      t.readData.extractLsb' 12 4 = s.errDetail ∧ t.readData.extractLsb' 16 16 = 0) ∧
    (∀ v : Word, hostWrite .w32 0x08 v s = .next { s with
      done := if v.getLsbD 1 then false else s.done
      rej := if v.getLsbD 3 then false else s.rej })

/-- R22 with R23, R25, R36, R37 and R39: what a read of each register gives an Idle block's host, field by field, and
that it changes nothing but the read latch, which is the model's (log 12). -/
def Obligations.RegisterReads : Prop :=
  ∀ s : State, s.seq = .idle →
    (∃ x : Word, hostRead .w32 0x00 s = .next { s with readData := x } ∧ x.getLsbD 0 = s.ie ∧
      x.extractLsb' 1 31 = 0) ∧
    hostRead .w32 0x04 s = .next { s with readData := 0 } ∧
    (∃ x : Word, hostRead .w32 0x08 s = .next { s with readData := x } ∧ x.getLsbD 0 = false ∧ x.getLsbD 1 = s.done ∧
      x.getLsbD 2 = s.err ∧ x.getLsbD 3 = s.rej ∧ x.extractLsb' 4 4 = 0 ∧ x.extractLsb' 8 4 = s.errCode ∧
      x.extractLsb' 12 4 = s.errDetail ∧ x.extractLsb' 16 16 = 0) ∧
    hostRead .w32 0x0C s = .next { s with readData := s.arg } ∧
    hostRead .w32 0x10 s = .next { s with readData := s.inLen } ∧
    hostRead .w32 0x14 s = .next { s with readData := s.outLen } ∧
    hostRead .w32 0x18 s = .next { s with readData := s.sampleRate } ∧
    hostRead .w32 0x1C s = .next { s with readData := s.baudRate } ∧
    hostRead .w32 0x20 s = .next { s with readData := s.syncMs } ∧
    (∃ x : Word, hostRead .w32 0x24 s = .next { s with readData := x } ∧ x.getLsbD 0 = s.modCfg.reversePhase ∧
      x.extractLsb' 1 7 = 0 ∧ x.extractLsb' 8 8 = s.modCfg.bitsPerSample ∧ x.extractLsb' 16 16 = 0) ∧
    (s.view = .closed → ∀ o ∈ [0x28, 0x2C, (0x30 : Word)], hostRead .w32 o s = .next { s with readData := 0 }) ∧
    (∀ base depth count rate, s.view = .opened base depth count rate →
      hostRead .w32 0x28 s = .next { s with readData := count } ∧
      hostRead .w32 0x2C s = .next { s with readData := rate } ∧
      ∃ x : Word, hostRead .w32 0x30 s = .next { s with readData := x } ∧ x.getLsbD 0 = true ∧
        x.extractLsb' 1 7 = 0 ∧ (x.extractLsb' 8 8).toNat = depth.bits ∧ x.extractLsb' 16 8 = 1 ∧
        x.extractLsb' 24 8 = 0) ∧
    hostRead .w32 0x34 s = .next { s with readData := s.smpPos } ∧
    hostRead .w32 0x38 s = .next { s with readData := s.smpRaw } ∧
    (∃ x : Word, hostRead .w32 0x3C s = .next { s with readData := x } ∧ x.extractLsb' 0 5 = s.halfUnits ∧
      x.extractLsb' 5 3 = 0 ∧ x.extractLsb' 8 8 = s.workingByte ∧ x.getLsbD 16 = s.inBlock ∧
      x.extractLsb' 17 15 = 0) ∧
    hostRead .w32 0x40 s = .next { s with readData := s.cycStart } ∧
    hostRead .w32 0x44 s = .next { s with readData := s.cycLen } ∧
    hostRead .w32 0x48 s = .next { s with readData := s.demodBytes }

/-- R22 with R23, R30, R31, R33 to R36: what a write to each read/write register of an Idle block stores; a write to a
read-only register stores nothing, Idle or Busy, and sets no flag. -/
def Obligations.RegisterWrites : Prop :=
  ∀ (s : State) (v : Word),
    (s.seq = .idle →
      hostWrite .w32 0x00 v s = .next { s with ie := v.getLsbD 0 } ∧
      hostWrite .w32 0x0C v s = .next { s with arg := v } ∧
      hostWrite .w32 0x10 v s = .next { s with inLen := v } ∧
      hostWrite .w32 0x18 v s = .next { s with sampleRate := v } ∧
      hostWrite .w32 0x1C v s = .next { s with baudRate := v } ∧
      hostWrite .w32 0x20 v s = .next { s with syncMs := v } ∧
      hostWrite .w32 0x24 v s = .next { s with modCfg := ⟨v.getLsbD 0, v.extractLsb' 8 8⟩ }) ∧
    (∀ o ∈ [0x14, 0x28, 0x2C, 0x30, 0x34, 0x38, 0x3C, 0x40, 0x44, (0x48 : Word)], hostWrite .w32 o v s = .next s)

/-- R42 and the reserved range of R71: reads give 0, writes change nothing, Idle or Busy. R75: a misaligned access to
the register window: a write is ignored and sets no REJ, a read returns some value and changes nothing else; neither
stops the machine. (That both hold at every width in the reserved range, and R75 at 0x4C to 0xFF: log 7.) -/
def Obligations.ReservedAndMisalignedAccesses : Prop :=
  ∀ (s : State) (o v : Word),
    (∀ width, o.toNat < 0x100 → width ≠ .w32 ∨ o.toNat % 4 ≠ 0 → hostWrite width o v s = .next s ∧
      ∃ x d, hostRead width o s = .next { s with readData := x, draws := d }) ∧
    (0x4C ≤ o.toNat → o.toNat ≤ 0xFC → o.toNat % 4 = 0 →
      hostRead .w32 o s = .next { s with readData := 0 } ∧ hostWrite .w32 o v s = .next s) ∧
    (∀ width, 0x100 ≤ o.toNat → o.toNat < 0x1000000 →
      hostRead width o s = .next { s with readData := 0 } ∧ hostWrite width o v s = .next s)

/-- R76, R77 and R81 for writes to the IN window of an Idle block: which bytes change to what, that bytes at or beyond
the capacity are ignored one by one, and that misaligned writes are ignored. -/
def Obligations.InWindowWrites : Prop :=
  ∀ (s : State) (a : Nat) (v : Word), s.seq = .idle → a < 2 ^ 24 →
    (∃ m, hostWrite .w8 (BitVec.ofNat 32 (0x1000000 + a)) v s = .next { s with inBuf := m } ∧
      ∀ b, m.read b = if b = a ∧ a < s.par.inCap then v.extractLsb' 0 8 else s.inBuf.read b) ∧
    (a % 4 = 0 → ∃ m, hostWrite .w32 (BitVec.ofNat 32 (0x1000000 + a)) v s = .next { s with inBuf := m } ∧
      ∀ b, m.read b =
        if a ≤ b ∧ b < a + 4 ∧ b < s.par.inCap then v.extractLsb' (8 * (b - a)) 8 else s.inBuf.read b) ∧
    hostWrite .w16 (BitVec.ofNat 32 (0x1000000 + a)) v s = .next s ∧
    (a % 4 ≠ 0 → hostWrite .w32 (BitVec.ofNat 32 (0x1000000 + a)) v s = .next s)

/-- R76, R77, R78 and R81 for reads: IN at any time, OUT of an Idle block, in every width. A byte below the capacity is
the stored one, also in a word that reaches beyond the capacity; a byte at or beyond it, and a misaligned read, is some
value. A byte read is zero-extended, and the read latch and the count of free values are the model's (logs 4 and 12).
R78: a write to the OUT window is ignored, Idle or Busy. -/
def Obligations.WindowReads : Prop :=
  ∀ (s : State) (a : Nat), a < 2 ^ 24 →
    (∀ win ∈ [(0x1000000, s.inBuf, s.par.inCap), (0x2000000, s.outBuf, s.par.outCap)],
      win.1 = 0x1000000 ∨ s.seq = .idle →
      (∃ x d, hostRead .w8 (BitVec.ofNat 32 (win.1 + a)) s = .next { s with readData := x, draws := d } ∧
        x.extractLsb' 8 24 = 0 ∧ (a < win.2.2 → x.extractLsb' 0 8 = win.2.1.read a)) ∧
      (∃ x d, hostRead .w16 (BitVec.ofNat 32 (win.1 + a)) s = .next { s with readData := x, draws := d }) ∧
      (∃ x d, hostRead .w32 (BitVec.ofNat 32 (win.1 + a)) s = .next { s with readData := x, draws := d } ∧
        (a % 4 = 0 → ∀ k < 4, a + k < win.2.2 → x.extractLsb' (8 * k) 8 = win.2.1.read (a + k)))) ∧
    (∀ width v, hostWrite width (BitVec.ofNat 32 (0x2000000 + a)) v s = .next s)

/-- R85: a host read changes nothing but what the read itself returned (and how many free values were drawn). -/
def Obligations.ReadsHaveNoSideEffect : Prop :=
  ∀ (width : Width) (o : Word) (s t : State), hostRead width o s = .next t →
    t = { s with readData := t.readData, draws := t.draws }

/-- R49: what a Busy block's host reads: STATUS with BUSY = 1, the seven configuration registers, and some value from
the result registers and from OUT; and R24: CMD reads 0 then too. -/
def Obligations.BusyReads : Prop :=
  ∀ s : State, s.isBusy = true →
    (∃ t, hostRead .w32 0x08 s = .next t ∧ t.readData = s.statusWord ∧ t.readData.getLsbD 0 = true) ∧
    hostRead .w32 0x00 s = .next { s with readData := s.ctrlWord } ∧
    hostRead .w32 0x04 s = .next { s with readData := 0 } ∧
    hostRead .w32 0x0C s = .next { s with readData := s.arg } ∧
    hostRead .w32 0x10 s = .next { s with readData := s.inLen } ∧
    hostRead .w32 0x18 s = .next { s with readData := s.sampleRate } ∧
    hostRead .w32 0x1C s = .next { s with readData := s.baudRate } ∧
    hostRead .w32 0x20 s = .next { s with readData := s.syncMs } ∧
    hostRead .w32 0x24 s = .next { s with readData := s.modCfg.word } ∧
    (∀ o ∈ [0x14, 0x28, 0x2C, 0x30, 0x34, 0x38, 0x3C, 0x40, 0x44, (0x48 : Word)],
      ∃ x d, hostRead .w32 o s = .next { s with readData := x, draws := d }) ∧
    (∀ width a, a < 2 ^ 24 →
      ∃ x d, hostRead width (BitVec.ofNat 32 (0x2000000 + a)) s = .next { s with readData := x, draws := d })

/-- R29: REJ, once set, stays set until a STATUS write with bit 3, the reset input or the RESET word. -/
def Obligations.RejIsSticky : Prop :=
  ∀ (s t : State), s.rej = true → step s = .next t → t.rej = true ∨
    ∃ turn rest, s.pending = turn :: rest ∧
      ((∃ v : Word, turn = .write .w32 0x08 v ∧ v.getLsbD 3 = true) ∨ turn = .rst ∨
        turn = .write .w32 0x04 0x0000000F ∨ turn = .issue 0x0000000F)

/-- R84: while the block is Busy no host access but RESET changes the command or anything it computes from or on: of
the block's state only REJ and, by a STATUS write, DONE. -/
def Obligations.BusyCommandIsUndisturbed : Prop :=
  ∀ (s t : State) (turn : Turn) (rest : List Turn), s.isBusy = true → s.pending = turn :: rest →
    (∃ width o, turn = .read width o) ∨
      (∃ width o v, turn = .write width o v ∧ ¬(width = .w32 ∧ o = 0x04 ∧ v = 0x0000000F)) →
    step s = .next t →
    t = { s with pending := rest, rej := t.rej, done := t.done, readData := t.readData, draws := t.draws }

/-! ### The whole machine -/

/-- The invariant holds right after reset. (The parameters and turns of that state are the model's, logs 1 and 3.) -/
def Obligations.InvariantAtReset : Prop := State.reset.Inv

/-- Every step keeps the invariant: the parameters in range, both buffers in canonical form and inside their
capacities, OUT_LEN at most OUT_CAP, the view inside IN, the cursor in [0, SMP_COUNT], HALF_UNITS 0 or 2 to 17,
DEMOD_BYTES the length of BYTES, the snapshot equal to the live registers, and an error report the spec lists. -/
def Obligations.StepKeepsTheInvariant : Prop :=
  ∀ s t : State, s.Inv → step s = .next t → t.Inv

/-- When a step completes and when it stops: with parameters in range every command and every host access inside the
aperture completes; an access outside it is the model's fault (log 8), parameters out of range its refusal
(93_implementation_defined.md U4, log 3). -/
def Obligations.StepStopsOnlyOutsideTheSpec : Prop :=
  (∀ (i : Instr) (s : State), ∃ t, exec i s = .next t) ∧
  (∀ s : State, s.par.Ok →
    ((∀ turn rest, s.pending = turn :: rest → turn.inAperture = true) → ∃ t, step s = .next t) ∧
    (∀ turn rest, s.pending = turn :: rest → turn.inAperture = false → step s = .fault .outsideAperture)) ∧
  (∀ s : State, ¬s.par.Ok → step s = .refused .parametersOutOfRange)

/-- R300: a command completes after a finite time: when the host's turns are over, one more step leaves the block
Idle. That the sequencer completes when no turn is left is the model's choice, log 1. -/
def Obligations.CommandsComplete : Prop :=
  ∀ s : State, s.par.Ok → (∀ turn ∈ s.pending, turn.inAperture = true) →
    ∃ t, runSteps (s.pending.length + 1) s = .next t ∧ t.seq = .idle ∧ t.pending = []
end

