-- ==== Sys2Proof/Laws/State.lean ====
section
/-! SUPPORT. What each shared operation leaves in each field of State: one lemma a field, true by rfl, so that no
later proof unfolds an operation. -/

namespace Sys2Proof.Machine.State

/-! ### succeed -/

@[simp] theorem succeed_par (s : State) : (s.succeed).par = s.par := rfl
@[simp] theorem succeed_ie (s : State) : (s.succeed).ie = s.ie := rfl
@[simp] theorem succeed_done (s : State) : (s.succeed).done = true := rfl
@[simp] theorem succeed_err (s : State) : (s.succeed).err = false := rfl
@[simp] theorem succeed_rej (s : State) : (s.succeed).rej = s.rej := rfl
@[simp] theorem succeed_errCode (s : State) : (s.succeed).errCode = 0 := rfl
@[simp] theorem succeed_errDetail (s : State) : (s.succeed).errDetail = 0 := rfl
@[simp] theorem succeed_arg (s : State) : (s.succeed).arg = s.arg := rfl
@[simp] theorem succeed_inLen (s : State) : (s.succeed).inLen = s.inLen := rfl
@[simp] theorem succeed_outLen (s : State) : (s.succeed).outLen = s.outLen := rfl
@[simp] theorem succeed_sampleRate (s : State) : (s.succeed).sampleRate = s.sampleRate := rfl
@[simp] theorem succeed_baudRate (s : State) : (s.succeed).baudRate = s.baudRate := rfl
@[simp] theorem succeed_syncMs (s : State) : (s.succeed).syncMs = s.syncMs := rfl
@[simp] theorem succeed_modCfg (s : State) : (s.succeed).modCfg = s.modCfg := rfl
@[simp] theorem succeed_view (s : State) : (s.succeed).view = s.view := rfl
@[simp] theorem succeed_smpPos (s : State) : (s.succeed).smpPos = s.smpPos := rfl
@[simp] theorem succeed_smpRaw (s : State) : (s.succeed).smpRaw = s.smpRaw := rfl
@[simp] theorem succeed_inBlock (s : State) : (s.succeed).inBlock = s.inBlock := rfl
@[simp] theorem succeed_halfUnits (s : State) : (s.succeed).halfUnits = s.halfUnits := rfl
@[simp] theorem succeed_workingByte (s : State) : (s.succeed).workingByte = s.workingByte := rfl
@[simp] theorem succeed_cycStart (s : State) : (s.succeed).cycStart = s.cycStart := rfl
@[simp] theorem succeed_cycLen (s : State) : (s.succeed).cycLen = s.cycLen := rfl
@[simp] theorem succeed_demodBytes (s : State) : (s.succeed).demodBytes = s.demodBytes := rfl
@[simp] theorem succeed_seq (s : State) : (s.succeed).seq = .idle := rfl
@[simp] theorem succeed_tone0 (s : State) : (s.succeed).tone0 = s.tone0 := rfl
@[simp] theorem succeed_tone1 (s : State) : (s.succeed).tone1 = s.tone1 := rfl
@[simp] theorem succeed_bytes (s : State) : (s.succeed).bytes = s.bytes := rfl
@[simp] theorem succeed_inBuf (s : State) : (s.succeed).inBuf = s.inBuf := rfl
@[simp] theorem succeed_outBuf (s : State) : (s.succeed).outBuf = s.outBuf := rfl
@[simp] theorem succeed_pending (s : State) : (s.succeed).pending = s.pending := rfl
@[simp] theorem succeed_readData (s : State) : (s.succeed).readData = s.readData := rfl
@[simp] theorem succeed_draws (s : State) : (s.succeed).draws = s.draws := rfl

/-! ### raise -/

@[simp] theorem raise_par (s : State) (e : Err) : (s.raise e).par = s.par := rfl
@[simp] theorem raise_ie (s : State) (e : Err) : (s.raise e).ie = s.ie := rfl
@[simp] theorem raise_done (s : State) (e : Err) : (s.raise e).done = true := rfl
@[simp] theorem raise_err (s : State) (e : Err) : (s.raise e).err = true := rfl
@[simp] theorem raise_rej (s : State) (e : Err) : (s.raise e).rej = s.rej := rfl
@[simp] theorem raise_errCode (s : State) (e : Err) : (s.raise e).errCode = e.kind.code := rfl
@[simp] theorem raise_errDetail (s : State) (e : Err) : (s.raise e).errDetail = e.detail := rfl
@[simp] theorem raise_arg (s : State) (e : Err) : (s.raise e).arg = s.arg := rfl
@[simp] theorem raise_inLen (s : State) (e : Err) : (s.raise e).inLen = s.inLen := rfl
@[simp] theorem raise_outLen (s : State) (e : Err) : (s.raise e).outLen = s.outLen := rfl
@[simp] theorem raise_sampleRate (s : State) (e : Err) : (s.raise e).sampleRate = s.sampleRate := rfl
@[simp] theorem raise_baudRate (s : State) (e : Err) : (s.raise e).baudRate = s.baudRate := rfl
@[simp] theorem raise_syncMs (s : State) (e : Err) : (s.raise e).syncMs = s.syncMs := rfl
@[simp] theorem raise_modCfg (s : State) (e : Err) : (s.raise e).modCfg = s.modCfg := rfl
@[simp] theorem raise_view (s : State) (e : Err) : (s.raise e).view = s.view := rfl
@[simp] theorem raise_smpPos (s : State) (e : Err) : (s.raise e).smpPos = s.smpPos := rfl
@[simp] theorem raise_smpRaw (s : State) (e : Err) : (s.raise e).smpRaw = s.smpRaw := rfl
@[simp] theorem raise_inBlock (s : State) (e : Err) : (s.raise e).inBlock = s.inBlock := rfl
@[simp] theorem raise_halfUnits (s : State) (e : Err) : (s.raise e).halfUnits = s.halfUnits := rfl
@[simp] theorem raise_workingByte (s : State) (e : Err) : (s.raise e).workingByte = s.workingByte := rfl
@[simp] theorem raise_cycStart (s : State) (e : Err) : (s.raise e).cycStart = s.cycStart := rfl
@[simp] theorem raise_cycLen (s : State) (e : Err) : (s.raise e).cycLen = s.cycLen := rfl
@[simp] theorem raise_demodBytes (s : State) (e : Err) : (s.raise e).demodBytes = s.demodBytes := rfl
@[simp] theorem raise_seq (s : State) (e : Err) : (s.raise e).seq = .idle := rfl
@[simp] theorem raise_tone0 (s : State) (e : Err) : (s.raise e).tone0 = s.tone0 := rfl
@[simp] theorem raise_tone1 (s : State) (e : Err) : (s.raise e).tone1 = s.tone1 := rfl
@[simp] theorem raise_bytes (s : State) (e : Err) : (s.raise e).bytes = s.bytes := rfl
@[simp] theorem raise_inBuf (s : State) (e : Err) : (s.raise e).inBuf = s.inBuf := rfl
@[simp] theorem raise_outBuf (s : State) (e : Err) : (s.raise e).outBuf = s.outBuf := rfl
@[simp] theorem raise_pending (s : State) (e : Err) : (s.raise e).pending = s.pending := rfl
@[simp] theorem raise_readData (s : State) (e : Err) : (s.raise e).readData = s.readData := rfl
@[simp] theorem raise_draws (s : State) (e : Err) : (s.raise e).draws = s.draws := rfl

/-! ### raiseOut -/

@[simp] theorem raiseOut_par (s : State) (e : Err) : (s.raiseOut e).par = s.par := rfl
@[simp] theorem raiseOut_ie (s : State) (e : Err) : (s.raiseOut e).ie = s.ie := rfl
@[simp] theorem raiseOut_done (s : State) (e : Err) : (s.raiseOut e).done = true := rfl
@[simp] theorem raiseOut_err (s : State) (e : Err) : (s.raiseOut e).err = true := rfl
@[simp] theorem raiseOut_rej (s : State) (e : Err) : (s.raiseOut e).rej = s.rej := rfl
@[simp] theorem raiseOut_errCode (s : State) (e : Err) : (s.raiseOut e).errCode = e.kind.code := rfl
@[simp] theorem raiseOut_errDetail (s : State) (e : Err) : (s.raiseOut e).errDetail = e.detail := rfl
@[simp] theorem raiseOut_arg (s : State) (e : Err) : (s.raiseOut e).arg = s.arg := rfl
@[simp] theorem raiseOut_inLen (s : State) (e : Err) : (s.raiseOut e).inLen = s.inLen := rfl
@[simp] theorem raiseOut_outLen (s : State) (e : Err) : (s.raiseOut e).outLen = 0 := rfl
@[simp] theorem raiseOut_sampleRate (s : State) (e : Err) : (s.raiseOut e).sampleRate = s.sampleRate := rfl
@[simp] theorem raiseOut_baudRate (s : State) (e : Err) : (s.raiseOut e).baudRate = s.baudRate := rfl
@[simp] theorem raiseOut_syncMs (s : State) (e : Err) : (s.raiseOut e).syncMs = s.syncMs := rfl
@[simp] theorem raiseOut_modCfg (s : State) (e : Err) : (s.raiseOut e).modCfg = s.modCfg := rfl
@[simp] theorem raiseOut_view (s : State) (e : Err) : (s.raiseOut e).view = s.view := rfl
@[simp] theorem raiseOut_smpPos (s : State) (e : Err) : (s.raiseOut e).smpPos = s.smpPos := rfl
@[simp] theorem raiseOut_smpRaw (s : State) (e : Err) : (s.raiseOut e).smpRaw = s.smpRaw := rfl
@[simp] theorem raiseOut_inBlock (s : State) (e : Err) : (s.raiseOut e).inBlock = s.inBlock := rfl
@[simp] theorem raiseOut_halfUnits (s : State) (e : Err) : (s.raiseOut e).halfUnits = s.halfUnits := rfl
@[simp] theorem raiseOut_workingByte (s : State) (e : Err) : (s.raiseOut e).workingByte = s.workingByte := rfl
@[simp] theorem raiseOut_cycStart (s : State) (e : Err) : (s.raiseOut e).cycStart = s.cycStart := rfl
@[simp] theorem raiseOut_cycLen (s : State) (e : Err) : (s.raiseOut e).cycLen = s.cycLen := rfl
@[simp] theorem raiseOut_demodBytes (s : State) (e : Err) : (s.raiseOut e).demodBytes = s.demodBytes := rfl
@[simp] theorem raiseOut_seq (s : State) (e : Err) : (s.raiseOut e).seq = .idle := rfl
@[simp] theorem raiseOut_tone0 (s : State) (e : Err) : (s.raiseOut e).tone0 = s.tone0 := rfl
@[simp] theorem raiseOut_tone1 (s : State) (e : Err) : (s.raiseOut e).tone1 = s.tone1 := rfl
@[simp] theorem raiseOut_bytes (s : State) (e : Err) : (s.raiseOut e).bytes = s.bytes := rfl
@[simp] theorem raiseOut_inBuf (s : State) (e : Err) : (s.raiseOut e).inBuf = s.inBuf := rfl
@[simp] theorem raiseOut_outBuf (s : State) (e : Err) : (s.raiseOut e).outBuf = Memory.unspecified s.draws := rfl
@[simp] theorem raiseOut_pending (s : State) (e : Err) : (s.raiseOut e).pending = s.pending := rfl
@[simp] theorem raiseOut_readData (s : State) (e : Err) : (s.raiseOut e).readData = s.readData := rfl
@[simp] theorem raiseOut_draws (s : State) (e : Err) : (s.raiseOut e).draws = s.draws + 1 := rfl

/-! ### yieldOut -/

@[simp] theorem yieldOut_par (s : State) (r : List Byte) : (s.yieldOut r).par = s.par := rfl
@[simp] theorem yieldOut_ie (s : State) (r : List Byte) : (s.yieldOut r).ie = s.ie := rfl
@[simp] theorem yieldOut_done (s : State) (r : List Byte) : (s.yieldOut r).done = true := rfl
@[simp] theorem yieldOut_err (s : State) (r : List Byte) : (s.yieldOut r).err = false := rfl
@[simp] theorem yieldOut_rej (s : State) (r : List Byte) : (s.yieldOut r).rej = s.rej := rfl
@[simp] theorem yieldOut_errCode (s : State) (r : List Byte) : (s.yieldOut r).errCode = 0 := rfl
@[simp] theorem yieldOut_errDetail (s : State) (r : List Byte) : (s.yieldOut r).errDetail = 0 := rfl
@[simp] theorem yieldOut_arg (s : State) (r : List Byte) : (s.yieldOut r).arg = s.arg := rfl
@[simp] theorem yieldOut_inLen (s : State) (r : List Byte) : (s.yieldOut r).inLen = s.inLen := rfl
@[simp] theorem yieldOut_outLen (s : State) (r : List Byte) : (s.yieldOut r).outLen = BitVec.ofNat 32 r.length := rfl
@[simp] theorem yieldOut_sampleRate (s : State) (r : List Byte) : (s.yieldOut r).sampleRate = s.sampleRate := rfl
@[simp] theorem yieldOut_baudRate (s : State) (r : List Byte) : (s.yieldOut r).baudRate = s.baudRate := rfl
@[simp] theorem yieldOut_syncMs (s : State) (r : List Byte) : (s.yieldOut r).syncMs = s.syncMs := rfl
@[simp] theorem yieldOut_modCfg (s : State) (r : List Byte) : (s.yieldOut r).modCfg = s.modCfg := rfl
@[simp] theorem yieldOut_view (s : State) (r : List Byte) : (s.yieldOut r).view = s.view := rfl
@[simp] theorem yieldOut_smpPos (s : State) (r : List Byte) : (s.yieldOut r).smpPos = s.smpPos := rfl
@[simp] theorem yieldOut_smpRaw (s : State) (r : List Byte) : (s.yieldOut r).smpRaw = s.smpRaw := rfl
@[simp] theorem yieldOut_inBlock (s : State) (r : List Byte) : (s.yieldOut r).inBlock = s.inBlock := rfl
@[simp] theorem yieldOut_halfUnits (s : State) (r : List Byte) : (s.yieldOut r).halfUnits = s.halfUnits := rfl
@[simp] theorem yieldOut_workingByte (s : State) (r : List Byte) : (s.yieldOut r).workingByte = s.workingByte := rfl
@[simp] theorem yieldOut_cycStart (s : State) (r : List Byte) : (s.yieldOut r).cycStart = s.cycStart := rfl
@[simp] theorem yieldOut_cycLen (s : State) (r : List Byte) : (s.yieldOut r).cycLen = s.cycLen := rfl
@[simp] theorem yieldOut_demodBytes (s : State) (r : List Byte) : (s.yieldOut r).demodBytes = s.demodBytes := rfl
@[simp] theorem yieldOut_seq (s : State) (r : List Byte) : (s.yieldOut r).seq = .idle := rfl
@[simp] theorem yieldOut_tone0 (s : State) (r : List Byte) : (s.yieldOut r).tone0 = s.tone0 := rfl
@[simp] theorem yieldOut_tone1 (s : State) (r : List Byte) : (s.yieldOut r).tone1 = s.tone1 := rfl
@[simp] theorem yieldOut_bytes (s : State) (r : List Byte) : (s.yieldOut r).bytes = s.bytes := rfl
@[simp] theorem yieldOut_inBuf (s : State) (r : List Byte) : (s.yieldOut r).inBuf = s.inBuf := rfl
@[simp] theorem yieldOut_outBuf (s : State) (r : List Byte) : (s.yieldOut r).outBuf = Memory.ofBytes r s.draws := rfl
@[simp] theorem yieldOut_pending (s : State) (r : List Byte) : (s.yieldOut r).pending = s.pending := rfl
@[simp] theorem yieldOut_readData (s : State) (r : List Byte) : (s.yieldOut r).readData = s.readData := rfl
@[simp] theorem yieldOut_draws (s : State) (r : List Byte) : (s.yieldOut r).draws = s.draws + 1 := rfl

/-! ### clearReport -/

@[simp] theorem clearReport_par (s : State) : (s.clearReport).par = s.par := rfl
@[simp] theorem clearReport_ie (s : State) : (s.clearReport).ie = s.ie := rfl
@[simp] theorem clearReport_done (s : State) : (s.clearReport).done = false := rfl
@[simp] theorem clearReport_err (s : State) : (s.clearReport).err = false := rfl
@[simp] theorem clearReport_rej (s : State) : (s.clearReport).rej = s.rej := rfl
@[simp] theorem clearReport_errCode (s : State) : (s.clearReport).errCode = 0 := rfl
@[simp] theorem clearReport_errDetail (s : State) : (s.clearReport).errDetail = 0 := rfl
@[simp] theorem clearReport_arg (s : State) : (s.clearReport).arg = s.arg := rfl
@[simp] theorem clearReport_inLen (s : State) : (s.clearReport).inLen = s.inLen := rfl
@[simp] theorem clearReport_outLen (s : State) : (s.clearReport).outLen = s.outLen := rfl
@[simp] theorem clearReport_sampleRate (s : State) : (s.clearReport).sampleRate = s.sampleRate := rfl
@[simp] theorem clearReport_baudRate (s : State) : (s.clearReport).baudRate = s.baudRate := rfl
@[simp] theorem clearReport_syncMs (s : State) : (s.clearReport).syncMs = s.syncMs := rfl
@[simp] theorem clearReport_modCfg (s : State) : (s.clearReport).modCfg = s.modCfg := rfl
@[simp] theorem clearReport_view (s : State) : (s.clearReport).view = s.view := rfl
@[simp] theorem clearReport_smpPos (s : State) : (s.clearReport).smpPos = s.smpPos := rfl
@[simp] theorem clearReport_smpRaw (s : State) : (s.clearReport).smpRaw = s.smpRaw := rfl
@[simp] theorem clearReport_inBlock (s : State) : (s.clearReport).inBlock = s.inBlock := rfl
@[simp] theorem clearReport_halfUnits (s : State) : (s.clearReport).halfUnits = s.halfUnits := rfl
@[simp] theorem clearReport_workingByte (s : State) : (s.clearReport).workingByte = s.workingByte := rfl
@[simp] theorem clearReport_cycStart (s : State) : (s.clearReport).cycStart = s.cycStart := rfl
@[simp] theorem clearReport_cycLen (s : State) : (s.clearReport).cycLen = s.cycLen := rfl
@[simp] theorem clearReport_demodBytes (s : State) : (s.clearReport).demodBytes = s.demodBytes := rfl
@[simp] theorem clearReport_seq (s : State) : (s.clearReport).seq = s.seq := rfl
@[simp] theorem clearReport_tone0 (s : State) : (s.clearReport).tone0 = s.tone0 := rfl
@[simp] theorem clearReport_tone1 (s : State) : (s.clearReport).tone1 = s.tone1 := rfl
@[simp] theorem clearReport_bytes (s : State) : (s.clearReport).bytes = s.bytes := rfl
@[simp] theorem clearReport_inBuf (s : State) : (s.clearReport).inBuf = s.inBuf := rfl
@[simp] theorem clearReport_outBuf (s : State) : (s.clearReport).outBuf = s.outBuf := rfl
@[simp] theorem clearReport_pending (s : State) : (s.clearReport).pending = s.pending := rfl
@[simp] theorem clearReport_readData (s : State) : (s.clearReport).readData = s.readData := rfl
@[simp] theorem clearReport_draws (s : State) : (s.clearReport).draws = s.draws := rfl

/-! ### accept -/

@[simp] theorem accept_par (s : State) (op : Op) : (s.accept op).par = s.par := rfl
@[simp] theorem accept_ie (s : State) (op : Op) : (s.accept op).ie = s.ie := rfl
@[simp] theorem accept_done (s : State) (op : Op) : (s.accept op).done = false := rfl
@[simp] theorem accept_err (s : State) (op : Op) : (s.accept op).err = false := rfl
@[simp] theorem accept_rej (s : State) (op : Op) : (s.accept op).rej = s.rej := rfl
@[simp] theorem accept_errCode (s : State) (op : Op) : (s.accept op).errCode = 0 := rfl
@[simp] theorem accept_errDetail (s : State) (op : Op) : (s.accept op).errDetail = 0 := rfl
@[simp] theorem accept_arg (s : State) (op : Op) : (s.accept op).arg = s.arg := rfl
@[simp] theorem accept_inLen (s : State) (op : Op) : (s.accept op).inLen = s.inLen := rfl
@[simp] theorem accept_outLen (s : State) (op : Op) : (s.accept op).outLen = s.outLen := rfl
@[simp] theorem accept_sampleRate (s : State) (op : Op) : (s.accept op).sampleRate = s.sampleRate := rfl
@[simp] theorem accept_baudRate (s : State) (op : Op) : (s.accept op).baudRate = s.baudRate := rfl
@[simp] theorem accept_syncMs (s : State) (op : Op) : (s.accept op).syncMs = s.syncMs := rfl
@[simp] theorem accept_modCfg (s : State) (op : Op) : (s.accept op).modCfg = s.modCfg := rfl
@[simp] theorem accept_view (s : State) (op : Op) : (s.accept op).view = s.view := rfl
@[simp] theorem accept_smpPos (s : State) (op : Op) : (s.accept op).smpPos = s.smpPos := rfl
@[simp] theorem accept_smpRaw (s : State) (op : Op) : (s.accept op).smpRaw = s.smpRaw := rfl
@[simp] theorem accept_inBlock (s : State) (op : Op) : (s.accept op).inBlock = s.inBlock := rfl
@[simp] theorem accept_halfUnits (s : State) (op : Op) : (s.accept op).halfUnits = s.halfUnits := rfl
@[simp] theorem accept_workingByte (s : State) (op : Op) : (s.accept op).workingByte = s.workingByte := rfl
@[simp] theorem accept_cycStart (s : State) (op : Op) : (s.accept op).cycStart = s.cycStart := rfl
@[simp] theorem accept_cycLen (s : State) (op : Op) : (s.accept op).cycLen = s.cycLen := rfl
@[simp] theorem accept_demodBytes (s : State) (op : Op) : (s.accept op).demodBytes = s.demodBytes := rfl
@[simp] theorem accept_seq (s : State) (op : Op) : (s.accept op).seq = .busy op s.liveSnap := rfl
@[simp] theorem accept_tone0 (s : State) (op : Op) : (s.accept op).tone0 = s.tone0 := rfl
@[simp] theorem accept_tone1 (s : State) (op : Op) : (s.accept op).tone1 = s.tone1 := rfl
@[simp] theorem accept_bytes (s : State) (op : Op) : (s.accept op).bytes = s.bytes := rfl
@[simp] theorem accept_inBuf (s : State) (op : Op) : (s.accept op).inBuf = s.inBuf := rfl
@[simp] theorem accept_outBuf (s : State) (op : Op) : (s.accept op).outBuf = s.outBuf := rfl
@[simp] theorem accept_pending (s : State) (op : Op) : (s.accept op).pending = s.pending := rfl
@[simp] theorem accept_readData (s : State) (op : Op) : (s.accept op).readData = s.readData := rfl
@[simp] theorem accept_draws (s : State) (op : Op) : (s.accept op).draws = s.draws := rfl

/-! ### closeView -/

@[simp] theorem closeView_par (s : State) : (s.closeView).par = s.par := rfl
@[simp] theorem closeView_ie (s : State) : (s.closeView).ie = s.ie := rfl
@[simp] theorem closeView_done (s : State) : (s.closeView).done = s.done := rfl
@[simp] theorem closeView_err (s : State) : (s.closeView).err = s.err := rfl
@[simp] theorem closeView_rej (s : State) : (s.closeView).rej = s.rej := rfl
@[simp] theorem closeView_errCode (s : State) : (s.closeView).errCode = s.errCode := rfl
@[simp] theorem closeView_errDetail (s : State) : (s.closeView).errDetail = s.errDetail := rfl
@[simp] theorem closeView_arg (s : State) : (s.closeView).arg = s.arg := rfl
@[simp] theorem closeView_inLen (s : State) : (s.closeView).inLen = s.inLen := rfl
@[simp] theorem closeView_outLen (s : State) : (s.closeView).outLen = s.outLen := rfl
@[simp] theorem closeView_sampleRate (s : State) : (s.closeView).sampleRate = s.sampleRate := rfl
@[simp] theorem closeView_baudRate (s : State) : (s.closeView).baudRate = s.baudRate := rfl
@[simp] theorem closeView_syncMs (s : State) : (s.closeView).syncMs = s.syncMs := rfl
@[simp] theorem closeView_modCfg (s : State) : (s.closeView).modCfg = s.modCfg := rfl
@[simp] theorem closeView_view (s : State) : (s.closeView).view = .closed := rfl
@[simp] theorem closeView_smpPos (s : State) : (s.closeView).smpPos = 0 := rfl
@[simp] theorem closeView_smpRaw (s : State) : (s.closeView).smpRaw = s.smpRaw := rfl
@[simp] theorem closeView_inBlock (s : State) : (s.closeView).inBlock = s.inBlock := rfl
@[simp] theorem closeView_halfUnits (s : State) : (s.closeView).halfUnits = s.halfUnits := rfl
@[simp] theorem closeView_workingByte (s : State) : (s.closeView).workingByte = s.workingByte := rfl
@[simp] theorem closeView_cycStart (s : State) : (s.closeView).cycStart = s.cycStart := rfl
@[simp] theorem closeView_cycLen (s : State) : (s.closeView).cycLen = s.cycLen := rfl
@[simp] theorem closeView_demodBytes (s : State) : (s.closeView).demodBytes = s.demodBytes := rfl
@[simp] theorem closeView_seq (s : State) : (s.closeView).seq = s.seq := rfl
@[simp] theorem closeView_tone0 (s : State) : (s.closeView).tone0 = s.tone0 := rfl
@[simp] theorem closeView_tone1 (s : State) : (s.closeView).tone1 = s.tone1 := rfl
@[simp] theorem closeView_bytes (s : State) : (s.closeView).bytes = s.bytes := rfl
@[simp] theorem closeView_inBuf (s : State) : (s.closeView).inBuf = s.inBuf := rfl
@[simp] theorem closeView_outBuf (s : State) : (s.closeView).outBuf = s.outBuf := rfl
@[simp] theorem closeView_pending (s : State) : (s.closeView).pending = s.pending := rfl
@[simp] theorem closeView_readData (s : State) : (s.closeView).readData = s.readData := rfl
@[simp] theorem closeView_draws (s : State) : (s.closeView).draws = s.draws := rfl

/-! ### setView -/

@[simp] theorem setView_par (s : State) (v : View) : (s.setView v).par = s.par := rfl
@[simp] theorem setView_ie (s : State) (v : View) : (s.setView v).ie = s.ie := rfl
@[simp] theorem setView_done (s : State) (v : View) : (s.setView v).done = s.done := rfl
@[simp] theorem setView_err (s : State) (v : View) : (s.setView v).err = s.err := rfl
@[simp] theorem setView_rej (s : State) (v : View) : (s.setView v).rej = s.rej := rfl
@[simp] theorem setView_errCode (s : State) (v : View) : (s.setView v).errCode = s.errCode := rfl
@[simp] theorem setView_errDetail (s : State) (v : View) : (s.setView v).errDetail = s.errDetail := rfl
@[simp] theorem setView_arg (s : State) (v : View) : (s.setView v).arg = s.arg := rfl
@[simp] theorem setView_inLen (s : State) (v : View) : (s.setView v).inLen = s.inLen := rfl
@[simp] theorem setView_outLen (s : State) (v : View) : (s.setView v).outLen = s.outLen := rfl
@[simp] theorem setView_sampleRate (s : State) (v : View) : (s.setView v).sampleRate = s.sampleRate := rfl
@[simp] theorem setView_baudRate (s : State) (v : View) : (s.setView v).baudRate = s.baudRate := rfl
@[simp] theorem setView_syncMs (s : State) (v : View) : (s.setView v).syncMs = s.syncMs := rfl
@[simp] theorem setView_modCfg (s : State) (v : View) : (s.setView v).modCfg = s.modCfg := rfl
@[simp] theorem setView_view (s : State) (v : View) : (s.setView v).view = v := rfl
@[simp] theorem setView_smpPos (s : State) (v : View) : (s.setView v).smpPos = 0 := rfl
@[simp] theorem setView_smpRaw (s : State) (v : View) : (s.setView v).smpRaw = s.smpRaw := rfl
@[simp] theorem setView_inBlock (s : State) (v : View) : (s.setView v).inBlock = s.inBlock := rfl
@[simp] theorem setView_halfUnits (s : State) (v : View) : (s.setView v).halfUnits = s.halfUnits := rfl
@[simp] theorem setView_workingByte (s : State) (v : View) : (s.setView v).workingByte = s.workingByte := rfl
@[simp] theorem setView_cycStart (s : State) (v : View) : (s.setView v).cycStart = s.cycStart := rfl
@[simp] theorem setView_cycLen (s : State) (v : View) : (s.setView v).cycLen = s.cycLen := rfl
@[simp] theorem setView_demodBytes (s : State) (v : View) : (s.setView v).demodBytes = s.demodBytes := rfl
@[simp] theorem setView_seq (s : State) (v : View) : (s.setView v).seq = s.seq := rfl
@[simp] theorem setView_tone0 (s : State) (v : View) : (s.setView v).tone0 = s.tone0 := rfl
@[simp] theorem setView_tone1 (s : State) (v : View) : (s.setView v).tone1 = s.tone1 := rfl
@[simp] theorem setView_bytes (s : State) (v : View) : (s.setView v).bytes = s.bytes := rfl
@[simp] theorem setView_inBuf (s : State) (v : View) : (s.setView v).inBuf = s.inBuf := rfl
@[simp] theorem setView_outBuf (s : State) (v : View) : (s.setView v).outBuf = s.outBuf := rfl
@[simp] theorem setView_pending (s : State) (v : View) : (s.setView v).pending = s.pending := rfl
@[simp] theorem setView_readData (s : State) (v : View) : (s.setView v).readData = s.readData := rfl
@[simp] theorem setView_draws (s : State) (v : View) : (s.setView v).draws = s.draws := rfl

/-! ### clearDemod -/

@[simp] theorem clearDemod_par (s : State) : (s.clearDemod).par = s.par := rfl
@[simp] theorem clearDemod_ie (s : State) : (s.clearDemod).ie = s.ie := rfl
@[simp] theorem clearDemod_done (s : State) : (s.clearDemod).done = s.done := rfl
@[simp] theorem clearDemod_err (s : State) : (s.clearDemod).err = s.err := rfl
@[simp] theorem clearDemod_rej (s : State) : (s.clearDemod).rej = s.rej := rfl
@[simp] theorem clearDemod_errCode (s : State) : (s.clearDemod).errCode = s.errCode := rfl
@[simp] theorem clearDemod_errDetail (s : State) : (s.clearDemod).errDetail = s.errDetail := rfl
@[simp] theorem clearDemod_arg (s : State) : (s.clearDemod).arg = s.arg := rfl
@[simp] theorem clearDemod_inLen (s : State) : (s.clearDemod).inLen = s.inLen := rfl
@[simp] theorem clearDemod_outLen (s : State) : (s.clearDemod).outLen = s.outLen := rfl
@[simp] theorem clearDemod_sampleRate (s : State) : (s.clearDemod).sampleRate = s.sampleRate := rfl
@[simp] theorem clearDemod_baudRate (s : State) : (s.clearDemod).baudRate = s.baudRate := rfl
@[simp] theorem clearDemod_syncMs (s : State) : (s.clearDemod).syncMs = s.syncMs := rfl
@[simp] theorem clearDemod_modCfg (s : State) : (s.clearDemod).modCfg = s.modCfg := rfl
@[simp] theorem clearDemod_view (s : State) : (s.clearDemod).view = s.view := rfl
@[simp] theorem clearDemod_smpPos (s : State) : (s.clearDemod).smpPos = s.smpPos := rfl
@[simp] theorem clearDemod_smpRaw (s : State) : (s.clearDemod).smpRaw = s.smpRaw := rfl
@[simp] theorem clearDemod_inBlock (s : State) : (s.clearDemod).inBlock = false := rfl
@[simp] theorem clearDemod_halfUnits (s : State) : (s.clearDemod).halfUnits = 0 := rfl
@[simp] theorem clearDemod_workingByte (s : State) : (s.clearDemod).workingByte = 0 := rfl
@[simp] theorem clearDemod_cycStart (s : State) : (s.clearDemod).cycStart = 0 := rfl
@[simp] theorem clearDemod_cycLen (s : State) : (s.clearDemod).cycLen = 0 := rfl
@[simp] theorem clearDemod_demodBytes (s : State) : (s.clearDemod).demodBytes = 0 := rfl
@[simp] theorem clearDemod_seq (s : State) : (s.clearDemod).seq = s.seq := rfl
@[simp] theorem clearDemod_tone0 (s : State) : (s.clearDemod).tone0 = s.tone0 := rfl
@[simp] theorem clearDemod_tone1 (s : State) : (s.clearDemod).tone1 = s.tone1 := rfl
@[simp] theorem clearDemod_bytes (s : State) : (s.clearDemod).bytes = [] := rfl
@[simp] theorem clearDemod_inBuf (s : State) : (s.clearDemod).inBuf = s.inBuf := rfl
@[simp] theorem clearDemod_outBuf (s : State) : (s.clearDemod).outBuf = s.outBuf := rfl
@[simp] theorem clearDemod_pending (s : State) : (s.clearDemod).pending = s.pending := rfl
@[simp] theorem clearDemod_readData (s : State) : (s.clearDemod).readData = s.readData := rfl
@[simp] theorem clearDemod_draws (s : State) : (s.clearDemod).draws = s.draws := rfl

/-! ### setTones -/

@[simp] theorem setTones_par (s : State) (rev : Bool) (d : Depth) (n : Nat) : (s.setTones rev d n).par = s.par := rfl
@[simp] theorem setTones_ie (s : State) (rev : Bool) (d : Depth) (n : Nat) : (s.setTones rev d n).ie = s.ie := rfl
@[simp] theorem setTones_done (s : State) (rev : Bool) (d : Depth) (n : Nat) : (s.setTones rev d n).done = s.done := rfl
@[simp] theorem setTones_err (s : State) (rev : Bool) (d : Depth) (n : Nat) : (s.setTones rev d n).err = s.err := rfl
@[simp] theorem setTones_rej (s : State) (rev : Bool) (d : Depth) (n : Nat) : (s.setTones rev d n).rej = s.rej := rfl
@[simp] theorem setTones_errCode (s : State) (rev : Bool) (d : Depth) (n : Nat) : (s.setTones rev d n).errCode = s.errCode := rfl
@[simp] theorem setTones_errDetail (s : State) (rev : Bool) (d : Depth) (n : Nat) : (s.setTones rev d n).errDetail = s.errDetail := rfl
@[simp] theorem setTones_arg (s : State) (rev : Bool) (d : Depth) (n : Nat) : (s.setTones rev d n).arg = s.arg := rfl
@[simp] theorem setTones_inLen (s : State) (rev : Bool) (d : Depth) (n : Nat) : (s.setTones rev d n).inLen = s.inLen := rfl
@[simp] theorem setTones_outLen (s : State) (rev : Bool) (d : Depth) (n : Nat) : (s.setTones rev d n).outLen = s.outLen := rfl
@[simp] theorem setTones_sampleRate (s : State) (rev : Bool) (d : Depth) (n : Nat) : (s.setTones rev d n).sampleRate = s.sampleRate := rfl
@[simp] theorem setTones_baudRate (s : State) (rev : Bool) (d : Depth) (n : Nat) : (s.setTones rev d n).baudRate = s.baudRate := rfl
@[simp] theorem setTones_syncMs (s : State) (rev : Bool) (d : Depth) (n : Nat) : (s.setTones rev d n).syncMs = s.syncMs := rfl
@[simp] theorem setTones_modCfg (s : State) (rev : Bool) (d : Depth) (n : Nat) : (s.setTones rev d n).modCfg = s.modCfg := rfl
@[simp] theorem setTones_view (s : State) (rev : Bool) (d : Depth) (n : Nat) : (s.setTones rev d n).view = s.view := rfl
@[simp] theorem setTones_smpPos (s : State) (rev : Bool) (d : Depth) (n : Nat) : (s.setTones rev d n).smpPos = s.smpPos := rfl
@[simp] theorem setTones_smpRaw (s : State) (rev : Bool) (d : Depth) (n : Nat) : (s.setTones rev d n).smpRaw = s.smpRaw := rfl
@[simp] theorem setTones_inBlock (s : State) (rev : Bool) (d : Depth) (n : Nat) : (s.setTones rev d n).inBlock = s.inBlock := rfl
@[simp] theorem setTones_halfUnits (s : State) (rev : Bool) (d : Depth) (n : Nat) : (s.setTones rev d n).halfUnits = s.halfUnits := rfl
@[simp] theorem setTones_workingByte (s : State) (rev : Bool) (d : Depth) (n : Nat) : (s.setTones rev d n).workingByte = s.workingByte := rfl
@[simp] theorem setTones_cycStart (s : State) (rev : Bool) (d : Depth) (n : Nat) : (s.setTones rev d n).cycStart = s.cycStart := rfl
@[simp] theorem setTones_cycLen (s : State) (rev : Bool) (d : Depth) (n : Nat) : (s.setTones rev d n).cycLen = s.cycLen := rfl
@[simp] theorem setTones_demodBytes (s : State) (rev : Bool) (d : Depth) (n : Nat) : (s.setTones rev d n).demodBytes = s.demodBytes := rfl
@[simp] theorem setTones_seq (s : State) (rev : Bool) (d : Depth) (n : Nat) : (s.setTones rev d n).seq = s.seq := rfl
@[simp] theorem setTones_tone0 (s : State) (rev : Bool) (d : Depth) (n : Nat) : (s.setTones rev d n).tone0 = toneTable s.par rev d n 0 := rfl
@[simp] theorem setTones_tone1 (s : State) (rev : Bool) (d : Depth) (n : Nat) : (s.setTones rev d n).tone1 = toneTable s.par rev d n 1 := rfl
@[simp] theorem setTones_bytes (s : State) (rev : Bool) (d : Depth) (n : Nat) : (s.setTones rev d n).bytes = s.bytes := rfl
@[simp] theorem setTones_inBuf (s : State) (rev : Bool) (d : Depth) (n : Nat) : (s.setTones rev d n).inBuf = s.inBuf := rfl
@[simp] theorem setTones_outBuf (s : State) (rev : Bool) (d : Depth) (n : Nat) : (s.setTones rev d n).outBuf = s.outBuf := rfl
@[simp] theorem setTones_pending (s : State) (rev : Bool) (d : Depth) (n : Nat) : (s.setTones rev d n).pending = s.pending := rfl
@[simp] theorem setTones_readData (s : State) (rev : Bool) (d : Depth) (n : Nat) : (s.setTones rev d n).readData = s.readData := rfl
@[simp] theorem setTones_draws (s : State) (rev : Bool) (d : Depth) (n : Nat) : (s.setTones rev d n).draws = s.draws := rfl

/-! ### dropTones -/

@[simp] theorem dropTones_par (s : State) : (s.dropTones).par = s.par := rfl
@[simp] theorem dropTones_ie (s : State) : (s.dropTones).ie = s.ie := rfl
@[simp] theorem dropTones_done (s : State) : (s.dropTones).done = s.done := rfl
@[simp] theorem dropTones_err (s : State) : (s.dropTones).err = s.err := rfl
@[simp] theorem dropTones_rej (s : State) : (s.dropTones).rej = s.rej := rfl
@[simp] theorem dropTones_errCode (s : State) : (s.dropTones).errCode = s.errCode := rfl
@[simp] theorem dropTones_errDetail (s : State) : (s.dropTones).errDetail = s.errDetail := rfl
@[simp] theorem dropTones_arg (s : State) : (s.dropTones).arg = s.arg := rfl
@[simp] theorem dropTones_inLen (s : State) : (s.dropTones).inLen = s.inLen := rfl
@[simp] theorem dropTones_outLen (s : State) : (s.dropTones).outLen = s.outLen := rfl
@[simp] theorem dropTones_sampleRate (s : State) : (s.dropTones).sampleRate = s.sampleRate := rfl
@[simp] theorem dropTones_baudRate (s : State) : (s.dropTones).baudRate = s.baudRate := rfl
@[simp] theorem dropTones_syncMs (s : State) : (s.dropTones).syncMs = s.syncMs := rfl
@[simp] theorem dropTones_modCfg (s : State) : (s.dropTones).modCfg = s.modCfg := rfl
@[simp] theorem dropTones_view (s : State) : (s.dropTones).view = s.view := rfl
@[simp] theorem dropTones_smpPos (s : State) : (s.dropTones).smpPos = s.smpPos := rfl
@[simp] theorem dropTones_smpRaw (s : State) : (s.dropTones).smpRaw = s.smpRaw := rfl
@[simp] theorem dropTones_inBlock (s : State) : (s.dropTones).inBlock = s.inBlock := rfl
@[simp] theorem dropTones_halfUnits (s : State) : (s.dropTones).halfUnits = s.halfUnits := rfl
@[simp] theorem dropTones_workingByte (s : State) : (s.dropTones).workingByte = s.workingByte := rfl
@[simp] theorem dropTones_cycStart (s : State) : (s.dropTones).cycStart = s.cycStart := rfl
@[simp] theorem dropTones_cycLen (s : State) : (s.dropTones).cycLen = s.cycLen := rfl
@[simp] theorem dropTones_demodBytes (s : State) : (s.dropTones).demodBytes = s.demodBytes := rfl
@[simp] theorem dropTones_seq (s : State) : (s.dropTones).seq = s.seq := rfl
@[simp] theorem dropTones_tone0 (s : State) : (s.dropTones).tone0 = Config.freeTone s.draws := rfl
@[simp] theorem dropTones_tone1 (s : State) : (s.dropTones).tone1 = Config.freeTone (s.draws + 1) := rfl
@[simp] theorem dropTones_bytes (s : State) : (s.dropTones).bytes = s.bytes := rfl
@[simp] theorem dropTones_inBuf (s : State) : (s.dropTones).inBuf = s.inBuf := rfl
@[simp] theorem dropTones_outBuf (s : State) : (s.dropTones).outBuf = s.outBuf := rfl
@[simp] theorem dropTones_pending (s : State) : (s.dropTones).pending = s.pending := rfl
@[simp] theorem dropTones_readData (s : State) : (s.dropTones).readData = s.readData := rfl
@[simp] theorem dropTones_draws (s : State) : (s.dropTones).draws = s.draws + 2 := rfl

/-! ### readAny -/

@[simp] theorem readAny_par (s : State) : (s.readAny).par = s.par := rfl
@[simp] theorem readAny_ie (s : State) : (s.readAny).ie = s.ie := rfl
@[simp] theorem readAny_done (s : State) : (s.readAny).done = s.done := rfl
@[simp] theorem readAny_err (s : State) : (s.readAny).err = s.err := rfl
@[simp] theorem readAny_rej (s : State) : (s.readAny).rej = s.rej := rfl
@[simp] theorem readAny_errCode (s : State) : (s.readAny).errCode = s.errCode := rfl
@[simp] theorem readAny_errDetail (s : State) : (s.readAny).errDetail = s.errDetail := rfl
@[simp] theorem readAny_arg (s : State) : (s.readAny).arg = s.arg := rfl
@[simp] theorem readAny_inLen (s : State) : (s.readAny).inLen = s.inLen := rfl
@[simp] theorem readAny_outLen (s : State) : (s.readAny).outLen = s.outLen := rfl
@[simp] theorem readAny_sampleRate (s : State) : (s.readAny).sampleRate = s.sampleRate := rfl
@[simp] theorem readAny_baudRate (s : State) : (s.readAny).baudRate = s.baudRate := rfl
@[simp] theorem readAny_syncMs (s : State) : (s.readAny).syncMs = s.syncMs := rfl
@[simp] theorem readAny_modCfg (s : State) : (s.readAny).modCfg = s.modCfg := rfl
@[simp] theorem readAny_view (s : State) : (s.readAny).view = s.view := rfl
@[simp] theorem readAny_smpPos (s : State) : (s.readAny).smpPos = s.smpPos := rfl
@[simp] theorem readAny_smpRaw (s : State) : (s.readAny).smpRaw = s.smpRaw := rfl
@[simp] theorem readAny_inBlock (s : State) : (s.readAny).inBlock = s.inBlock := rfl
@[simp] theorem readAny_halfUnits (s : State) : (s.readAny).halfUnits = s.halfUnits := rfl
@[simp] theorem readAny_workingByte (s : State) : (s.readAny).workingByte = s.workingByte := rfl
@[simp] theorem readAny_cycStart (s : State) : (s.readAny).cycStart = s.cycStart := rfl
@[simp] theorem readAny_cycLen (s : State) : (s.readAny).cycLen = s.cycLen := rfl
@[simp] theorem readAny_demodBytes (s : State) : (s.readAny).demodBytes = s.demodBytes := rfl
@[simp] theorem readAny_seq (s : State) : (s.readAny).seq = s.seq := rfl
@[simp] theorem readAny_tone0 (s : State) : (s.readAny).tone0 = s.tone0 := rfl
@[simp] theorem readAny_tone1 (s : State) : (s.readAny).tone1 = s.tone1 := rfl
@[simp] theorem readAny_bytes (s : State) : (s.readAny).bytes = s.bytes := rfl
@[simp] theorem readAny_inBuf (s : State) : (s.readAny).inBuf = s.inBuf := rfl
@[simp] theorem readAny_outBuf (s : State) : (s.readAny).outBuf = s.outBuf := rfl
@[simp] theorem readAny_pending (s : State) : (s.readAny).pending = s.pending := rfl
@[simp] theorem readAny_readData (s : State) : (s.readAny).readData = Config.freeWord s.draws := rfl
@[simp] theorem readAny_draws (s : State) : (s.readAny).draws = s.draws + 1 := rfl

/-! ### writeCtrl -/

@[simp] theorem writeCtrl_par (s : State) (v : Word) : (s.writeCtrl v).par = s.par := rfl
@[simp] theorem writeCtrl_ie (s : State) (v : Word) : (s.writeCtrl v).ie = v.getLsbD 0 := rfl
@[simp] theorem writeCtrl_done (s : State) (v : Word) : (s.writeCtrl v).done = s.done := rfl
@[simp] theorem writeCtrl_err (s : State) (v : Word) : (s.writeCtrl v).err = s.err := rfl
@[simp] theorem writeCtrl_rej (s : State) (v : Word) : (s.writeCtrl v).rej = s.rej := rfl
@[simp] theorem writeCtrl_errCode (s : State) (v : Word) : (s.writeCtrl v).errCode = s.errCode := rfl
@[simp] theorem writeCtrl_errDetail (s : State) (v : Word) : (s.writeCtrl v).errDetail = s.errDetail := rfl
@[simp] theorem writeCtrl_arg (s : State) (v : Word) : (s.writeCtrl v).arg = s.arg := rfl
@[simp] theorem writeCtrl_inLen (s : State) (v : Word) : (s.writeCtrl v).inLen = s.inLen := rfl
@[simp] theorem writeCtrl_outLen (s : State) (v : Word) : (s.writeCtrl v).outLen = s.outLen := rfl
@[simp] theorem writeCtrl_sampleRate (s : State) (v : Word) : (s.writeCtrl v).sampleRate = s.sampleRate := rfl
@[simp] theorem writeCtrl_baudRate (s : State) (v : Word) : (s.writeCtrl v).baudRate = s.baudRate := rfl
@[simp] theorem writeCtrl_syncMs (s : State) (v : Word) : (s.writeCtrl v).syncMs = s.syncMs := rfl
@[simp] theorem writeCtrl_modCfg (s : State) (v : Word) : (s.writeCtrl v).modCfg = s.modCfg := rfl
@[simp] theorem writeCtrl_view (s : State) (v : Word) : (s.writeCtrl v).view = s.view := rfl
@[simp] theorem writeCtrl_smpPos (s : State) (v : Word) : (s.writeCtrl v).smpPos = s.smpPos := rfl
@[simp] theorem writeCtrl_smpRaw (s : State) (v : Word) : (s.writeCtrl v).smpRaw = s.smpRaw := rfl
@[simp] theorem writeCtrl_inBlock (s : State) (v : Word) : (s.writeCtrl v).inBlock = s.inBlock := rfl
@[simp] theorem writeCtrl_halfUnits (s : State) (v : Word) : (s.writeCtrl v).halfUnits = s.halfUnits := rfl
@[simp] theorem writeCtrl_workingByte (s : State) (v : Word) : (s.writeCtrl v).workingByte = s.workingByte := rfl
@[simp] theorem writeCtrl_cycStart (s : State) (v : Word) : (s.writeCtrl v).cycStart = s.cycStart := rfl
@[simp] theorem writeCtrl_cycLen (s : State) (v : Word) : (s.writeCtrl v).cycLen = s.cycLen := rfl
@[simp] theorem writeCtrl_demodBytes (s : State) (v : Word) : (s.writeCtrl v).demodBytes = s.demodBytes := rfl
@[simp] theorem writeCtrl_seq (s : State) (v : Word) : (s.writeCtrl v).seq = s.seq := rfl
@[simp] theorem writeCtrl_tone0 (s : State) (v : Word) : (s.writeCtrl v).tone0 = s.tone0 := rfl
@[simp] theorem writeCtrl_tone1 (s : State) (v : Word) : (s.writeCtrl v).tone1 = s.tone1 := rfl
@[simp] theorem writeCtrl_bytes (s : State) (v : Word) : (s.writeCtrl v).bytes = s.bytes := rfl
@[simp] theorem writeCtrl_inBuf (s : State) (v : Word) : (s.writeCtrl v).inBuf = s.inBuf := rfl
@[simp] theorem writeCtrl_outBuf (s : State) (v : Word) : (s.writeCtrl v).outBuf = s.outBuf := rfl
@[simp] theorem writeCtrl_pending (s : State) (v : Word) : (s.writeCtrl v).pending = s.pending := rfl
@[simp] theorem writeCtrl_readData (s : State) (v : Word) : (s.writeCtrl v).readData = s.readData := rfl
@[simp] theorem writeCtrl_draws (s : State) (v : Word) : (s.writeCtrl v).draws = s.draws := rfl

/-! ### writeStatus -/

@[simp] theorem writeStatus_par (s : State) (v : Word) : (s.writeStatus v).par = s.par := rfl
@[simp] theorem writeStatus_ie (s : State) (v : Word) : (s.writeStatus v).ie = s.ie := rfl
@[simp] theorem writeStatus_done (s : State) (v : Word) : (s.writeStatus v).done = (s.done && !v.getLsbD 1) := rfl
@[simp] theorem writeStatus_err (s : State) (v : Word) : (s.writeStatus v).err = s.err := rfl
@[simp] theorem writeStatus_rej (s : State) (v : Word) : (s.writeStatus v).rej = (s.rej && !v.getLsbD 3) := rfl
@[simp] theorem writeStatus_errCode (s : State) (v : Word) : (s.writeStatus v).errCode = s.errCode := rfl
@[simp] theorem writeStatus_errDetail (s : State) (v : Word) : (s.writeStatus v).errDetail = s.errDetail := rfl
@[simp] theorem writeStatus_arg (s : State) (v : Word) : (s.writeStatus v).arg = s.arg := rfl
@[simp] theorem writeStatus_inLen (s : State) (v : Word) : (s.writeStatus v).inLen = s.inLen := rfl
@[simp] theorem writeStatus_outLen (s : State) (v : Word) : (s.writeStatus v).outLen = s.outLen := rfl
@[simp] theorem writeStatus_sampleRate (s : State) (v : Word) : (s.writeStatus v).sampleRate = s.sampleRate := rfl
@[simp] theorem writeStatus_baudRate (s : State) (v : Word) : (s.writeStatus v).baudRate = s.baudRate := rfl
@[simp] theorem writeStatus_syncMs (s : State) (v : Word) : (s.writeStatus v).syncMs = s.syncMs := rfl
@[simp] theorem writeStatus_modCfg (s : State) (v : Word) : (s.writeStatus v).modCfg = s.modCfg := rfl
@[simp] theorem writeStatus_view (s : State) (v : Word) : (s.writeStatus v).view = s.view := rfl
@[simp] theorem writeStatus_smpPos (s : State) (v : Word) : (s.writeStatus v).smpPos = s.smpPos := rfl
@[simp] theorem writeStatus_smpRaw (s : State) (v : Word) : (s.writeStatus v).smpRaw = s.smpRaw := rfl
@[simp] theorem writeStatus_inBlock (s : State) (v : Word) : (s.writeStatus v).inBlock = s.inBlock := rfl
@[simp] theorem writeStatus_halfUnits (s : State) (v : Word) : (s.writeStatus v).halfUnits = s.halfUnits := rfl
@[simp] theorem writeStatus_workingByte (s : State) (v : Word) : (s.writeStatus v).workingByte = s.workingByte := rfl
@[simp] theorem writeStatus_cycStart (s : State) (v : Word) : (s.writeStatus v).cycStart = s.cycStart := rfl
@[simp] theorem writeStatus_cycLen (s : State) (v : Word) : (s.writeStatus v).cycLen = s.cycLen := rfl
@[simp] theorem writeStatus_demodBytes (s : State) (v : Word) : (s.writeStatus v).demodBytes = s.demodBytes := rfl
@[simp] theorem writeStatus_seq (s : State) (v : Word) : (s.writeStatus v).seq = s.seq := rfl
@[simp] theorem writeStatus_tone0 (s : State) (v : Word) : (s.writeStatus v).tone0 = s.tone0 := rfl
@[simp] theorem writeStatus_tone1 (s : State) (v : Word) : (s.writeStatus v).tone1 = s.tone1 := rfl
@[simp] theorem writeStatus_bytes (s : State) (v : Word) : (s.writeStatus v).bytes = s.bytes := rfl
@[simp] theorem writeStatus_inBuf (s : State) (v : Word) : (s.writeStatus v).inBuf = s.inBuf := rfl
@[simp] theorem writeStatus_outBuf (s : State) (v : Word) : (s.writeStatus v).outBuf = s.outBuf := rfl
@[simp] theorem writeStatus_pending (s : State) (v : Word) : (s.writeStatus v).pending = s.pending := rfl
@[simp] theorem writeStatus_readData (s : State) (v : Word) : (s.writeStatus v).readData = s.readData := rfl
@[simp] theorem writeStatus_draws (s : State) (v : Word) : (s.writeStatus v).draws = s.draws := rfl

/-! ### resetBlock -/

@[simp] theorem resetBlock_par (s : State) : s.resetBlock.par = s.par := rfl
@[simp] theorem resetBlock_ie (s : State) : s.resetBlock.ie = false := rfl
@[simp] theorem resetBlock_done (s : State) : s.resetBlock.done = false := rfl
@[simp] theorem resetBlock_err (s : State) : s.resetBlock.err = false := rfl
@[simp] theorem resetBlock_rej (s : State) : s.resetBlock.rej = false := rfl
@[simp] theorem resetBlock_errCode (s : State) : s.resetBlock.errCode = 0 := rfl
@[simp] theorem resetBlock_errDetail (s : State) : s.resetBlock.errDetail = 0 := rfl
@[simp] theorem resetBlock_arg (s : State) : s.resetBlock.arg = 0 := rfl
@[simp] theorem resetBlock_inLen (s : State) : s.resetBlock.inLen = 0 := rfl
@[simp] theorem resetBlock_outLen (s : State) : s.resetBlock.outLen = 0 := rfl
@[simp] theorem resetBlock_sampleRate (s : State) : s.resetBlock.sampleRate = 20000 := rfl
@[simp] theorem resetBlock_baudRate (s : State) : s.resetBlock.baudRate = 2500 := rfl
@[simp] theorem resetBlock_syncMs (s : State) : s.resetBlock.syncMs = 3000 := rfl
@[simp] theorem resetBlock_modCfg (s : State) : s.resetBlock.modCfg = ⟨false, 8⟩ := rfl
@[simp] theorem resetBlock_view (s : State) : s.resetBlock.view = .closed := rfl
@[simp] theorem resetBlock_smpPos (s : State) : s.resetBlock.smpPos = 0 := rfl
@[simp] theorem resetBlock_smpRaw (s : State) : s.resetBlock.smpRaw = 0 := rfl
@[simp] theorem resetBlock_inBlock (s : State) : s.resetBlock.inBlock = false := rfl
@[simp] theorem resetBlock_halfUnits (s : State) : s.resetBlock.halfUnits = 0 := rfl
@[simp] theorem resetBlock_workingByte (s : State) : s.resetBlock.workingByte = 0 := rfl
@[simp] theorem resetBlock_cycStart (s : State) : s.resetBlock.cycStart = 0 := rfl
@[simp] theorem resetBlock_cycLen (s : State) : s.resetBlock.cycLen = 0 := rfl
@[simp] theorem resetBlock_demodBytes (s : State) : s.resetBlock.demodBytes = 0 := rfl
@[simp] theorem resetBlock_seq (s : State) : s.resetBlock.seq = .idle := rfl
@[simp] theorem resetBlock_tone0 (s : State) : s.resetBlock.tone0 = Config.freeTone (s.draws + 2) := rfl
@[simp] theorem resetBlock_tone1 (s : State) : s.resetBlock.tone1 = Config.freeTone (s.draws + 3) := rfl
@[simp] theorem resetBlock_bytes (s : State) : s.resetBlock.bytes = [] := rfl
@[simp] theorem resetBlock_inBuf (s : State) : s.resetBlock.inBuf = ⟨[], s.draws⟩ := rfl
@[simp] theorem resetBlock_outBuf (s : State) : s.resetBlock.outBuf = ⟨[], s.draws + 1⟩ := rfl
@[simp] theorem resetBlock_pending (s : State) : s.resetBlock.pending = s.pending := rfl
@[simp] theorem resetBlock_readData (s : State) : s.resetBlock.readData = s.readData := rfl
@[simp] theorem resetBlock_draws (s : State) : s.resetBlock.draws = s.draws + 4 := rfl

/-! ### the snapshot and the view -/

theorem snap_idle (s : State) (h : s.seq = .idle) : s.snap = s.liveSnap := by simp [snap, h]

theorem snap_busy (s : State) (op : Op) (p : Snapshot) (h : s.seq = .busy op p) : s.snap = p := by simp [snap, h]

/-- The snapshot taken at acceptance is the one a command run from Idle computes from. -/
theorem accept_snap (s : State) (op : Op) (h : s.seq = .idle) : (s.accept op).snap = s.snap := by
  simp [snap, h]

@[simp] theorem clearDemod_snap (s : State) : s.clearDemod.snap = s.snap := rfl
@[simp] theorem closeView_snap (s : State) : s.closeView.snap = s.snap := rfl
@[simp] theorem setView_snap (s : State) (v : View) : (s.setView v).snap = s.snap := rfl
@[simp] theorem clearReport_snap (s : State) : s.clearReport.snap = s.snap := rfl

/-- A completed command leaves the sequencer Idle. -/
@[simp] theorem succeed_isBusy (s : State) : s.succeed.isBusy = false := rfl
@[simp] theorem raise_isBusy (s : State) (e : Err) : (s.raise e).isBusy = false := rfl
@[simp] theorem raiseOut_isBusy (s : State) (e : Err) : (s.raiseOut e).isBusy = false := rfl
@[simp] theorem yieldOut_isBusy (s : State) (r : List Byte) : (s.yieldOut r).isBusy = false := rfl

theorem isBusy_iff (s : State) : s.isBusy = true ↔ ∃ op p, s.seq = .busy op p := by
  unfold isBusy
  cases s.seq <;> simp

theorem isBusy_false_iff (s : State) : s.isBusy = false ↔ s.seq = .idle := by
  unfold isBusy
  cases s.seq <;> simp

end Sys2Proof.Machine.State
end

