-- ==== Sys2Proof/Laws/Detector.lean ====
section
/-! SUPPORT. What the cycle detector can answer, what one round of the demodulator's loop keeps, and that the
loop's fuel never runs out. -/

namespace Sys2Proof.Machine

/-! ### The least index with a property -/

theorem leastFrom_eq_some (p : Nat → Bool) (start n i : Nat) :
    leastFrom p start n = some i ↔
      start ≤ i ∧ i < start + n ∧ p i = true ∧ ∀ j, start ≤ j → j < i → p j = false := by
  induction n generalizing start with
  | zero => simp [leastFrom]; omega
  | succ n ih =>
    unfold leastFrom
    by_cases h : p start = true
    · simp only [h, if_true, Option.some.injEq]
      constructor
      · rintro rfl
        exact ⟨le_refl _, by omega, h, fun j h1 h2 => by omega⟩
      · rintro ⟨h1, h2, h3, h4⟩
        by_contra hne
        have := h4 start (le_refl _) (by omega)
        simp [h] at this
    · simp only [h, Bool.false_eq_true, if_false, ih]
      have hf : p start = false := by simpa using h
      constructor
      · rintro ⟨h1, h2, h3, h4⟩
        refine ⟨by omega, by omega, h3, fun j hj1 hj2 => ?_⟩
        by_cases hj : j = start
        · rw [hj]; exact hf
        · exact h4 j (by omega) hj2
      · rintro ⟨h1, h2, h3, h4⟩
        have : i ≠ start := by rintro rfl; simp [hf] at h3
        exact ⟨by omega, by omega, h3, fun j hj1 hj2 => h4 j (by omega) hj2⟩

theorem leastFrom_eq_none (p : Nat → Bool) (start n : Nat) :
    leastFrom p start n = none ↔ ∀ i, start ≤ i → i < start + n → p i = false := by
  induction n generalizing start with
  | zero => simp [leastFrom]; intro i h1 h2; omega
  | succ n ih =>
    unfold leastFrom
    by_cases h : p start = true
    · simp only [h, if_true, reduceCtorEq, false_iff]
      intro hall
      have := hall start (le_refl _) (by omega)
      simp [h] at this
    · have hf : p start = false := by simpa using h
      simp only [h, Bool.false_eq_true, if_false, ih]
      constructor
      · intro hall i h1 h2
        by_cases hi : i = start
        · rw [hi]; exact hf
        · exact hall i (by omega) (by omega)
      · intro hall i h1 h2
        exact hall i (by omega) (by omega)

theorem leastIn_eq_some (p : Nat → Bool) (start stop i : Nat) :
    leastIn p start stop = some i ↔
      start ≤ i ∧ i < stop ∧ p i = true ∧ ∀ j, start ≤ j → j < i → p j = false := by
  unfold leastIn
  rw [leastFrom_eq_some]
  constructor
  · rintro ⟨h1, h2, h3, h4⟩
    exact ⟨h1, by omega, h3, h4⟩
  · rintro ⟨h1, h2, h3, h4⟩
    exact ⟨h1, by omega, h3, h4⟩

theorem leastIn_eq_none (p : Nat → Bool) (start stop : Nat) :
    leastIn p start stop = none ↔ ∀ i, start ≤ i → i < stop → p i = false := by
  unfold leastIn
  rw [leastFrom_eq_none]
  constructor
  · intro h i h1 h2
    exact h i h1 (by omega)
  · intro h i h1 h2
    exact h i h1 (by omega)

/-! ### The threshold triple -/

/-- A triple that FIND returns is in order and inside the samples (43_demodulator.md R212). -/
theorem findTriple_bounds (sample : Nat → Rat) (count p a m e : Nat)
    (h : findTriple sample count p = some (a, m, e)) : p ≤ a ∧ a < m ∧ m < e ∧ e < count := by
  unfold findTriple at h
  split at h
  · cases h
  · rename_i a' ha
    simp only at h
    split at h
    · cases h
    · rename_i m' hm
      split at h
      · cases h
      · rename_i e' he
        simp only [Option.some.injEq, Prod.mk.injEq] at h
        obtain ⟨rfl, rfl, rfl⟩ := h
        rw [leastIn_eq_some] at ha hm he
        exact ⟨ha.1, by omega, by omega, he.2.1⟩

/-- Where no sample exceeds the threshold there is no triple (43_demodulator.md R212, R231). -/
theorem findTriple_silent (sample : Nat → Rat) (count p : Nat)
    (h : ∀ i, p ≤ i → i < count → exceeds (sample i) = false) : findTriple sample count p = none := by
  unfold findTriple
  rw [(leastIn_eq_none _ p count).2 h]

/-! ### DETECT -/

/-- DETECT when FIND returns nothing (43_demodulator.md R214). -/
theorem detect_none (s : State) (h : findTriple s.sample s.view.count.toNat s.smpPos.toNat = none) :
    detect s = (if s.inBlock then .eob else .eof, { s with smpPos := s.view.count, inBlock := false }) := by
  unfold detect
  rw [h]
  cases hb : s.inBlock
  · simp only [Bool.false_eq_true, if_false]
  · simp only [if_true]

/-- DETECT when FIND returns a triple (43_demodulator.md R214). -/
theorem detect_some (s : State) (a m e : Nat)
    (h : findTriple s.sample s.view.count.toNat s.smpPos.toNat = some (a, m, e)) :
    detect s =
      (if s.inBlock then .cycle a (e - a) else .sob a (e - a),
        { s with
          smpPos := BitVec.ofNat 32 e
          cycStart := BitVec.ofNat 32 a
          cycLen := BitVec.ofNat 32 (e - a)
          inBlock := true }) := by
  unfold detect
  rw [h]
  cases hb : s.inBlock
  · simp only [Bool.false_eq_true, if_false]
  · simp only [if_true]

/-- A cursor position that DETECT writes is the index it stands for. -/
theorem detect_pos_toNat (s : State) (a m e : Nat)
    (h : findTriple s.sample s.view.count.toNat s.smpPos.toNat = some (a, m, e)) :
    (BitVec.ofNat 32 e).toNat = e := by
  have hb := findTriple_bounds _ _ _ _ _ _ h
  have := s.view.count.isLt
  rw [BitVec.toNat_ofNat, Nat.mod_eq_of_lt (by omega)]

/-! ### One round of the loop -/

/-- What a SYNC step may change: HALF_UNITS, WORKING_BYTE, BYTES and DEMOD_BYTES. -/
theorem completeByte_cases (s : State) :
    s.completeByte = s ∨
    s.completeByte =
      { s with
        bytes := s.bytes ++ [s.workingByte], demodBytes := s.demodBytes + 1, halfUnits := 0, workingByte := 0 } := by
  unfold State.completeByte
  split
  · exact .inr rfl
  · exact .inl rfl

/-- The fields no step of the detector or the synchroniser writes. -/
structure DemodFrame (s t : State) : Prop where
  par : t.par = s.par
  ie : t.ie = s.ie
  done : t.done = s.done
  err : t.err = s.err
  rej : t.rej = s.rej
  errCode : t.errCode = s.errCode
  errDetail : t.errDetail = s.errDetail
  arg : t.arg = s.arg
  inLen : t.inLen = s.inLen
  outLen : t.outLen = s.outLen
  sampleRate : t.sampleRate = s.sampleRate
  baudRate : t.baudRate = s.baudRate
  syncMs : t.syncMs = s.syncMs
  modCfg : t.modCfg = s.modCfg
  view : t.view = s.view
  smpRaw : t.smpRaw = s.smpRaw
  seq : t.seq = s.seq
  tone0 : t.tone0 = s.tone0
  tone1 : t.tone1 = s.tone1
  inBuf : t.inBuf = s.inBuf
  outBuf : t.outBuf = s.outBuf
  pending : t.pending = s.pending
  readData : t.readData = s.readData
  draws : t.draws = s.draws

theorem DemodFrame.refl (s : State) : DemodFrame s s := by
  constructor <;> rfl

theorem DemodFrame.trans {s t u : State} (h : DemodFrame s t) (k : DemodFrame t u) : DemodFrame s u := by
  constructor
  · exact k.par.trans h.par
  · exact k.ie.trans h.ie
  · exact k.done.trans h.done
  · exact k.err.trans h.err
  · exact k.rej.trans h.rej
  · exact k.errCode.trans h.errCode
  · exact k.errDetail.trans h.errDetail
  · exact k.arg.trans h.arg
  · exact k.inLen.trans h.inLen
  · exact k.outLen.trans h.outLen
  · exact k.sampleRate.trans h.sampleRate
  · exact k.baudRate.trans h.baudRate
  · exact k.syncMs.trans h.syncMs
  · exact k.modCfg.trans h.modCfg
  · exact k.view.trans h.view
  · exact k.smpRaw.trans h.smpRaw
  · exact k.seq.trans h.seq
  · exact k.tone0.trans h.tone0
  · exact k.tone1.trans h.tone1
  · exact k.inBuf.trans h.inBuf
  · exact k.outBuf.trans h.outBuf
  · exact k.pending.trans h.pending
  · exact k.readData.trans h.readData
  · exact k.draws.trans h.draws

theorem detect_frame (s : State) : DemodFrame s (detect s).2 := by
  cases h : findTriple s.sample s.view.count.toNat s.smpPos.toNat with
  | none => rw [detect_none s h]; constructor <;> rfl
  | some r =>
    obtain ⟨a, m, e⟩ := r
    rw [detect_some s a m e h]
    constructor <;> rfl

theorem completeByte_frame (s : State) :
    DemodFrame s s.completeByte ∧ s.completeByte.smpPos = s.smpPos ∧ s.completeByte.inBlock = s.inBlock := by
  rcases completeByte_cases s with h | h
  · rw [h]; exact ⟨DemodFrame.refl s, rfl, rfl⟩
  · rw [h]; exact ⟨by constructor <;> rfl, rfl, rfl⟩

/-- A SYNC step leaves the cursor and IN_BLOCK alone. -/
theorem sync_frame (low : Bool) (s t : State) (h : sync low s = .ok t) :
    DemodFrame s t ∧ t.smpPos = s.smpPos ∧ t.inBlock = s.inBlock := by
  unfold sync at h
  split at h
  · split at h
    · cases h; exact ⟨by constructor <;> rfl, rfl, rfl⟩
    · cases h; exact ⟨DemodFrame.refl s, rfl, rfl⟩
  · split at h
    · split at h
      · cases h
      · cases h
        have k := completeByte_frame { s with halfUnits := s.halfUnits + 2, workingByte := s.workingByte >>> 1 }
        exact ⟨DemodFrame.trans (by constructor <;> rfl) k.1, k.2.1, k.2.2⟩
    · simp only at h
      split at h
      · cases h
        have k := completeByte_frame { s with halfUnits := s.halfUnits + 1 }
        exact ⟨DemodFrame.trans (by constructor <;> rfl) k.1, k.2.1, k.2.2⟩
      · cases h
        have k := completeByte_frame
          { s with halfUnits := s.halfUnits + 1, workingByte := (s.workingByte >>> 1) ||| 0x80 }
        exact ⟨DemodFrame.trans (by constructor <;> rfl) k.1, k.2.1, k.2.2⟩

/-- SYNC fails only with "0 bit inside a 1 bit" (43_demodulator.md R221). -/
theorem sync_error (low : Bool) (s : State) (e : Err) (h : sync low s = .error e) :
    e = ⟨.protocolViolation, 1⟩ := by
  unfold sync at h
  split at h
  · split at h <;> cases h
  · split at h
    · split at h
      · cases h; rfl
      · cases h
    · simp only at h
      split at h <;> cases h

theorem consume_frame (was : Bool) (ev : Event) (s t : State) (h : consume was ev s = .ok t) :
    DemodFrame s t ∧ t.smpPos = s.smpPos ∧ t.inBlock = s.inBlock := by
  cases ev with
  | eof => cases h; exact ⟨DemodFrame.refl s, rfl, rfl⟩
  | sob a l => cases h; exact ⟨by constructor <;> rfl, rfl, rfl⟩
  | cycle a l =>
    simp only [consume] at h
    split at h
    · exact sync_frame _ s t h
    · cases h
  | eob =>
    simp only [consume] at h
    split at h
    · split at h
      · cases h; exact ⟨DemodFrame.refl s, rfl, rfl⟩
      · cases h
    · cases h

/-- The frame of the whole loop. -/
theorem demodLoop_frame (fuel : Nat) (s : State) : DemodFrame s (demodLoop fuel s).1 := by
  induction fuel generalizing s with
  | zero => exact DemodFrame.refl s
  | succ n ih =>
    unfold demodLoop
    have hd := detect_frame s
    rcases hdet : detect s with ⟨ev, s1⟩
    rw [hdet] at hd
    simp only
    split
    · exact hd
    · rename_i s2 hc
      have hcf := (consume_frame _ _ _ _ hc).1
      split
      · exact hd.trans hcf
      · exact (hd.trans hcf).trans (ih s2)

/-- A round that does not end the loop has moved the cursor on, inside the samples. -/
theorem round_advances (s s1 s2 : State) (ev : Event) (h : detect s = (ev, s1))
    (hc : consume s.inBlock ev s1 = .ok s2) (he : ev.ends = false) :
    s.smpPos.toNat < s2.smpPos.toNat ∧ s2.smpPos.toNat < s.view.count.toNat ∧ s2.view = s.view := by
  cases hf : findTriple s.sample s.view.count.toNat s.smpPos.toNat with
  | none =>
    rw [detect_none s hf] at h
    cases hb : s.inBlock <;> simp [hb] at h <;> obtain ⟨rfl, rfl⟩ := h <;> simp [Event.ends] at he
  | some r =>
    obtain ⟨a, m, e⟩ := r
    have hb := findTriple_bounds _ _ _ _ _ _ hf
    have ht := detect_pos_toNat s a m e hf
    rw [detect_some s a m e hf] at h
    simp only [Prod.mk.injEq] at h
    obtain ⟨-, h2⟩ := h
    have hcf := consume_frame _ _ _ _ hc
    have hp : s2.smpPos.toNat = e := by rw [hcf.2.1, ← h2, ht]
    have hv : s2.view = s.view := by rw [hcf.1.view, ← h2]
    rw [hp, hv]
    exact ⟨by omega, by omega, rfl⟩

/-- More fuel than samples left does not change what the loop does: the fuel never runs out (log 16). -/
theorem demodLoop_fuel (k n : Nat) (s : State) (hk : s.view.count.toNat - s.smpPos.toNat < k) (hn : k ≤ n) :
    demodLoop n s = demodLoop k s := by
  induction k generalizing n s with
  | zero => omega
  | succ k ih =>
    obtain ⟨n', rfl⟩ : ∃ n', n = n' + 1 := ⟨n - 1, by omega⟩
    unfold demodLoop
    rcases hdet : detect s with ⟨ev, s1⟩
    simp only
    split
    · rfl
    · rename_i s2 hc
      split
      · rfl
      · rename_i he
        have hadv := round_advances s s1 s2 ev hdet hc (by simpa using he)
        apply ih n' s2
        · rw [hadv.2.2]; omega
        · omega

/-- The cursor the loop leaves is a sample index or the sample count (43_demodulator.md R213). -/
theorem demodLoop_pos (fuel : Nat) (s : State) (h : s.smpPos ≤ s.view.count) :
    (demodLoop fuel s).1.smpPos ≤ s.view.count := by
  induction fuel generalizing s with
  | zero => exact h
  | succ n ih =>
    unfold demodLoop
    rcases hdet : detect s with ⟨ev, s1⟩
    have hs1 : s1.smpPos ≤ s.view.count := by
      cases hf : findTriple s.sample s.view.count.toNat s.smpPos.toNat with
      | none =>
        rw [detect_none s hf] at hdet
        simp only [Prod.mk.injEq] at hdet
        rw [← hdet.2]
        exact BitVec.le_refl _
      | some r =>
        obtain ⟨a, m, e⟩ := r
        have hb := findTriple_bounds _ _ _ _ _ _ hf
        have ht := detect_pos_toNat s a m e hf
        rw [detect_some s a m e hf] at hdet
        simp only [Prod.mk.injEq] at hdet
        rw [← hdet.2]
        show BitVec.ofNat 32 e ≤ s.view.count
        rw [BitVec.le_def, ht]
        omega
    simp only
    split
    · exact hs1
    · rename_i s2 hc
      have hcf := consume_frame _ _ _ _ hc
      split
      · show s2.smpPos ≤ _
        rw [hcf.2.1]; exact hs1
      · rename_i he
        have hadv := round_advances s s1 s2 ev hdet hc (by simpa using he)
        have := ih s2 (by rw [hadv.2.2, hcf.2.1]; exact hs1)
        rwa [hadv.2.2] at this

/-! ### HALF_UNITS -/

/-- HALF_UNITS is 0 or 2 to 17 (10_state.md R38). -/
abbrev UnitsOk (h : BitVec 5) : Prop := h = 0 ∨ (2 ≤ h.toNat ∧ h.toNat ≤ 17)

theorem low_unitsOk : ∀ h : BitVec 5, UnitsOk h → h ≠ 0 → h.getLsbD 0 = false →
    h + 2 = Config.unitsPerByte ∨ UnitsOk (h + 2) := by decide

theorem high_unitsOk : ∀ h : BitVec 5, UnitsOk h → h ≠ 0 →
    h + 1 = Config.unitsPerByte ∨ UnitsOk (h + 1) := by decide

theorem completeByte_unitsOk (s : State) (h : s.halfUnits = Config.unitsPerByte ∨ UnitsOk s.halfUnits) :
    UnitsOk s.completeByte.halfUnits := by
  unfold State.completeByte
  split
  · exact .inl rfl
  · rename_i hne
    rcases h with h | h
    · exact absurd h hne
    · exact h

theorem sync_unitsOk (low : Bool) (s t : State) (hu : UnitsOk s.halfUnits) (h : sync low s = .ok t) :
    UnitsOk t.halfUnits := by
  unfold sync at h
  split at h
  · split at h
    · cases h; exact (by decide : UnitsOk 2)
    · cases h; exact hu
  · rename_i h0
    split at h
    · split at h
      · cases h
      · rename_i hodd
        cases h
        exact completeByte_unitsOk _ (low_unitsOk _ hu h0 (by simpa using hodd))
    · simp only at h
      split at h <;> cases h <;> exact completeByte_unitsOk _ (high_unitsOk _ hu h0)

theorem consume_unitsOk (was : Bool) (ev : Event) (s t : State) (hu : UnitsOk s.halfUnits)
    (h : consume was ev s = .ok t) : UnitsOk t.halfUnits := by
  cases ev with
  | eof => cases h; exact hu
  | sob a l => cases h; exact .inl rfl
  | cycle a l =>
    simp only [consume] at h
    split at h
    · exact sync_unitsOk _ s t hu h
    · cases h
  | eob =>
    simp only [consume] at h
    split at h
    · split at h
      · cases h; exact hu
      · cases h
    · cases h

theorem detect_sync_fields (s : State) :
    (detect s).2.halfUnits = s.halfUnits ∧ (detect s).2.bytes = s.bytes ∧
    (detect s).2.demodBytes = s.demodBytes ∧ (detect s).2.workingByte = s.workingByte := by
  cases h : findTriple s.sample s.view.count.toNat s.smpPos.toNat with
  | none => rw [detect_none s h]; exact ⟨rfl, rfl, rfl, rfl⟩
  | some r =>
    obtain ⟨a, m, e⟩ := r
    rw [detect_some s a m e h]
    exact ⟨rfl, rfl, rfl, rfl⟩

theorem demodLoop_unitsOk (fuel : Nat) (s : State) (hu : UnitsOk s.halfUnits) :
    UnitsOk (demodLoop fuel s).1.halfUnits := by
  induction fuel generalizing s with
  | zero => exact hu
  | succ n ih =>
    unfold demodLoop
    have hd := (detect_sync_fields s).1
    rcases hdet : detect s with ⟨ev, s1⟩
    rw [hdet] at hd
    simp only at hd ⊢
    have hu1 : UnitsOk s1.halfUnits := by rw [hd]; exact hu
    split
    · exact hu1
    · rename_i s2 hc
      have hu2 := consume_unitsOk _ _ _ _ hu1 hc
      split
      · exact hu2
      · exact ih s2 hu2

/-! ### DEMOD_BYTES counts BYTES -/

theorem completeByte_counts (s : State) (h : s.demodBytes = BitVec.ofNat 32 s.bytes.length) :
    s.completeByte.demodBytes = BitVec.ofNat 32 s.completeByte.bytes.length := by
  rcases completeByte_cases s with hc | hc
  · rw [hc]; exact h
  · rw [hc]
    simp only [List.length_append, List.length_cons, List.length_nil, BitVec.ofNat_add, h]
    rfl

theorem sync_counts (low : Bool) (s t : State) (hu : s.demodBytes = BitVec.ofNat 32 s.bytes.length)
    (h : sync low s = .ok t) : t.demodBytes = BitVec.ofNat 32 t.bytes.length := by
  unfold sync at h
  split at h
  · split at h <;> cases h <;> exact hu
  · split at h
    · split at h
      · cases h
      · cases h; exact completeByte_counts _ hu
    · simp only at h
      split at h <;> cases h <;> exact completeByte_counts _ hu

theorem demodLoop_counts (fuel : Nat) (s : State) (hu : s.demodBytes = BitVec.ofNat 32 s.bytes.length) :
    (demodLoop fuel s).1.demodBytes = BitVec.ofNat 32 (demodLoop fuel s).1.bytes.length := by
  induction fuel generalizing s with
  | zero => exact hu
  | succ n ih =>
    unfold demodLoop
    have hd := detect_sync_fields s
    rcases hdet : detect s with ⟨ev, s1⟩
    rw [hdet] at hd
    simp only at hd ⊢
    have hu1 : s1.demodBytes = BitVec.ofNat 32 s1.bytes.length := by rw [hd.2.2.1, hd.2.1]; exact hu
    split
    · exact hu1
    · rename_i s2 hc
      have hu2 : s2.demodBytes = BitVec.ofNat 32 s2.bytes.length := by
        cases ev with
        | eof => cases hc; exact hu1
        | sob a l => cases hc; exact hu1
        | cycle a l =>
          simp only [consume] at hc
          split at hc
          · exact sync_counts _ s1 s2 hu1 hc
          · cases hc
        | eob =>
          simp only [consume] at hc
          split at hc
          · split at hc
            · cases hc; exact hu1
            · cases hc
          · cases hc
      split
      · exact hu2
      · exact ih s2 hu2

/-- The loop's own errors are ProtocolViolation 1 and 2: 3 and 4 are unreachable (43_demodulator.md R229). -/
theorem demodLoop_error (fuel : Nat) (s : State) (e : Err) (h : (demodLoop fuel s).2 = some e) :
    e = ⟨.protocolViolation, 1⟩ ∨ e = ⟨.protocolViolation, 2⟩ := by
  induction fuel generalizing s with
  | zero => cases h
  | succ n ih =>
    unfold demodLoop at h
    rcases hdet : detect s with ⟨ev, s1⟩
    rw [hdet] at h
    simp only at h
    split at h
    · rename_i e' hc
      cases h
      cases hf : findTriple s.sample s.view.count.toNat s.smpPos.toNat with
      | none =>
        rw [detect_none s hf] at hdet
        simp only [Prod.mk.injEq] at hdet
        cases hb : s.inBlock <;> simp only [hb, if_true, Bool.false_eq_true, if_false] at hdet hc <;>
          rw [← hdet.1] at hc <;> simp only [consume, if_true] at hc
        · cases hc
        · split at hc
          · cases hc
          · cases hc; exact .inr rfl
      | some r =>
        obtain ⟨a, m, e⟩ := r
        rw [detect_some s a m e hf] at hdet
        simp only [Prod.mk.injEq] at hdet
        cases hb : s.inBlock <;> simp only [hb, if_true, Bool.false_eq_true, if_false] at hdet hc <;>
          rw [← hdet.1] at hc <;> simp only [consume, if_true] at hc
        · cases hc
        · exact .inl (sync_error _ _ _ hc)
    · split at h
      · cases h
      · exact ih _ h

end Sys2Proof.Machine
end

