-- ==== Sys2Proof/Laws/Memory.lean ====
section
/-! SUPPORT. The laws of a buffer: read after write, the canonical form, and what a result written to OUT reads
as. -/

namespace Sys2Proof.Machine

/-! ### One stored byte -/

theorem lookup_insertCell_same (a : Nat) (v : Byte) (cs : List Host.Cell) :
    (insertCell a v cs).lookup a = some v := by
  induction cs with
  | nil => simp [insertCell]
  | cons c rest ih =>
    obtain ⟨b, w⟩ := c
    unfold insertCell
    split
    · simp
    · split
      · simp
      · rename_i h
        have h' : (a == b) = false := beq_false_of_ne h
        simpa [List.lookup_cons, h'] using ih

theorem lookup_insertCell_other (a a' : Nat) (v : Byte) (cs : List Host.Cell) (h : a' ≠ a) :
    (insertCell a v cs).lookup a' = cs.lookup a' := by
  have h' : (a' == a) = false := beq_false_of_ne h
  induction cs with
  | nil => simp [insertCell, List.lookup_cons, h']
  | cons c rest ih =>
    obtain ⟨b, w⟩ := c
    unfold insertCell
    split
    · simp [List.lookup_cons, h']
    · split
      · rename_i hab
        subst hab
        simp [List.lookup_cons, h']
      · simp [List.lookup_cons, ih]

theorem mem_insertCell (a : Nat) (v : Byte) (cs : List Host.Cell) (c : Host.Cell) :
    c ∈ insertCell a v cs → c = (a, v) ∨ c ∈ cs := by
  induction cs with
  | nil => simp [insertCell]
  | cons d rest ih =>
    obtain ⟨b, w⟩ := d
    unfold insertCell
    split
    · simp
    · split
      · intro h
        rcases List.mem_cons.1 h with h | h
        · exact .inl h
        · exact .inr (List.mem_cons_of_mem _ h)
      · intro h
        rcases List.mem_cons.1 h with h | h
        · exact .inr (by simp [h])
        · rcases ih h with h | h
          · exact .inl h
          · exact .inr (List.mem_cons_of_mem _ h)

/-- A read after a write to the same address gives the value written. -/
@[simp] theorem Memory.read_write_same (m : Memory) (a : Nat) (v : Byte) : (m.write a v).read a = v := by
  simp [Memory.read, Memory.stored, Memory.write, lookup_insertCell_same]

/-- A write leaves every other address alone. -/
theorem Memory.read_write_other (m : Memory) (a a' : Nat) (v : Byte) (h : a' ≠ a) :
    (m.write a v).read a' = m.read a' := by
  simp [Memory.read, Memory.stored, Memory.write, lookup_insertCell_other a a' v _ h]

theorem insertCell_sorted (a : Nat) (v : Byte) (cs : List Host.Cell)
    (h : cs.Pairwise fun c d => c.1 < d.1) : (insertCell a v cs).Pairwise fun c d => c.1 < d.1 := by
  induction cs with
  | nil => simp [insertCell]
  | cons c rest ih =>
    obtain ⟨b, w⟩ := c
    rw [List.pairwise_cons] at h
    unfold insertCell
    split
    · rename_i hab
      refine List.pairwise_cons.2 ⟨?_, List.pairwise_cons.2 h⟩
      intro d hd
      rcases List.mem_cons.1 hd with rfl | hd
      · exact hab
      · exact Nat.lt_trans hab (h.1 d hd)
    · split
      · rename_i hab
        subst hab
        exact List.pairwise_cons.2 h
      · refine List.pairwise_cons.2 ⟨?_, ih h.2⟩
        intro d hd
        rcases mem_insertCell a v rest d hd with rfl | hd
        · simp only
          omega
        · exact h.1 d hd

/-- A write keeps the canonical form. -/
theorem Memory.write_wf (m : Memory) (a : Nat) (v : Byte) (h : m.wf) : (m.write a v).wf :=
  insertCell_sorted a v m.cells h

/-! ### Buffers written whole -/

@[simp] theorem Memory.unspecified_wf (epoch : Nat) : (Memory.unspecified epoch).wf := List.Pairwise.nil

theorem lookup_zipIdx (bs : List Byte) (k a : Nat) :
    ((bs.zipIdx k).map fun p => ((p.2, p.1) : Host.Cell)).lookup a =
      if k ≤ a then bs[a - k]? else none := by
  induction bs generalizing k with
  | nil => simp
  | cons b rest ih =>
    rw [List.zipIdx_cons, List.map_cons, List.lookup_cons, ih]
    by_cases h : a = k
    · subst h
      simp
    · have h' : (a == k) = false := by simpa using h
      simp only [h']
      by_cases hk : k + 1 ≤ a
      · have : a - k = (a - (k + 1)) + 1 := by omega
        simp [hk, show k ≤ a by omega, this]
      · simp [hk, show ¬k ≤ a by omega]

/-- What a buffer that holds a byte string reads as: the string, and a free byte beyond it. -/
theorem Memory.read_ofBytes (bs : List Byte) (epoch a : Nat) :
    (Memory.ofBytes bs epoch).read a = (bs[a]?).getD (Config.freeByte epoch a) := by
  simp [Memory.read, Memory.stored, Memory.ofBytes, lookup_zipIdx bs 0 a]

theorem zipIdx_sorted (bs : List Byte) (k : Nat) :
    ((bs.zipIdx k).map fun p => ((p.2, p.1) : Host.Cell)).Pairwise fun c d => c.1 < d.1 := by
  induction bs generalizing k with
  | nil => simp
  | cons b rest ih =>
    rw [List.zipIdx_cons, List.map_cons, List.pairwise_cons]
    refine ⟨?_, ih (k + 1)⟩
    intro d hd
    simp only [List.mem_map, Prod.exists] at hd
    obtain ⟨x, i, hx, rfl⟩ := hd
    have := List.mem_zipIdx hx
    simp only
    omega

@[simp] theorem Memory.ofBytes_wf (bs : List Byte) (epoch : Nat) : (Memory.ofBytes bs epoch).wf :=
  zipIdx_sorted bs 0

theorem Memory.ofBytes_bounded (bs : List Byte) (epoch : Nat) :
    ∀ c ∈ (Memory.ofBytes bs epoch).cells, c.1 < bs.length := by
  intro c hc
  simp only [Memory.ofBytes, List.mem_map, Prod.exists] at hc
  obtain ⟨x, i, hx, rfl⟩ := hc
  have := List.mem_zipIdx hx
  simp only
  omega

@[simp] theorem Memory.length_readRange (m : Memory) (a n : Nat) : (m.readRange a n).length = n := by
  simp [Memory.readRange]

theorem Memory.getElem_readRange (m : Memory) (a n i : Nat) (h : i < (m.readRange a n).length) :
    (m.readRange a n)[i] = m.read (a + i) := by
  simp [Memory.readRange]

theorem Memory.getElem?_readRange (m : Memory) (a n i : Nat) (h : i < n) :
    (m.readRange a n)[i]? = some (m.read (a + i)) := by
  simp [Memory.readRange, h]

/-- Two buffers that agree on a range give the same byte string. -/
theorem Memory.readRange_congr (m m' : Memory) (a n : Nat)
    (h : ∀ i, i < n → m.read (a + i) = m'.read (a + i)) : m.readRange a n = m'.readRange a n := by
  unfold Memory.readRange
  apply List.map_congr_left
  intro i hi
  exact h i (List.mem_range.1 hi)

/-- Reading back a result gives the result. -/
@[simp] theorem Memory.readRange_ofBytes (bs : List Byte) (epoch : Nat) :
    (Memory.ofBytes bs epoch).readRange 0 bs.length = bs := by
  apply List.ext_getElem
  · simp
  · intro i h1 h2
    rw [Memory.getElem_readRange, Memory.read_ofBytes]
    simp [h2]

/-! ### The host's stores -/

theorem storeByte_wf (cap : Nat) (m : Memory) (a : Nat) (v : Byte) (h : m.wf) : (storeByte cap m a v).wf := by
  unfold storeByte
  split
  · exact Memory.write_wf m a v h
  · exact h

theorem storeByte_bounded (cap : Nat) (m : Memory) (a : Nat) (v : Byte) (h : ∀ c ∈ m.cells, c.1 < cap) :
    ∀ c ∈ (storeByte cap m a v).cells, c.1 < cap := by
  unfold storeByte
  split
  · rename_i ha
    intro c hc
    rcases mem_insertCell a v m.cells c hc with rfl | hc
    · exact ha
    · exact h c hc
  · exact h

theorem storeBytes_wf (cap : Nat) (vs : List Byte) (m : Memory) (a : Nat) (h : m.wf) :
    (storeBytes cap m a vs).wf := by
  induction vs generalizing m a with
  | nil => exact h
  | cons v rest ih => exact ih _ _ (storeByte_wf cap m a v h)

theorem storeBytes_bounded (cap : Nat) (vs : List Byte) (m : Memory) (a : Nat) (h : ∀ c ∈ m.cells, c.1 < cap) :
    ∀ c ∈ (storeBytes cap m a vs).cells, c.1 < cap := by
  induction vs generalizing m a with
  | nil => exact h
  | cons v rest ih => exact ih _ _ (storeByte_bounded cap m a v h)

theorem read_storeByte (cap : Nat) (m : Memory) (a a' : Nat) (v : Byte) :
    (storeByte cap m a v).read a' = if a' = a ∧ a < cap then v else m.read a' := by
  unfold storeByte
  by_cases ha : a < cap
  · by_cases h : a' = a
    · subst h
      simp [ha]
    · simp [ha, h, Memory.read_write_other m a a' v h]
  · simp [ha]

/-- Everything a store of consecutive bytes does: the byte for its address, if below the capacity, and nothing
elsewhere. -/
theorem read_storeBytes (cap : Nat) (vs : List Byte) (m : Memory) (a a' : Nat) :
    (storeBytes cap m a vs).read a' =
      if a ≤ a' ∧ a' < a + vs.length ∧ a' < cap then (vs[a' - a]?).getD 0 else m.read a' := by
  induction vs generalizing m a with
  | nil =>
    have : ¬(a ≤ a' ∧ a' < a + ([] : List Byte).length ∧ a' < cap) := by simp; omega
    simp only [storeBytes, this, if_false]
  | cons v rest ih =>
    rw [storeBytes, ih, read_storeByte, List.length_cons]
    by_cases h1 : a' = a
    · subst h1
      by_cases h2 : a' < cap <;> simp [h2]
    · by_cases h2 : a + 1 ≤ a' ∧ a' < a + 1 + rest.length ∧ a' < cap
      · have h3 : a ≤ a' ∧ a' < a + (rest.length + 1) ∧ a' < cap := by omega
        have h4 : a' - a = (a' - (a + 1)) + 1 := by omega
        rw [if_pos h2, if_pos h3, h4, List.getElem?_cons_succ]
      · have h3 : ¬(a ≤ a' ∧ a' < a + (rest.length + 1) ∧ a' < cap) := by omega
        rw [if_neg h2, if_neg h3]
        simp [h1]

end Sys2Proof.Machine
end

