-- ==== Sys2Proof/Laws/Reader.lean ====
section
/-! SUPPORT. Byte strings, the container writer and the container reader. -/

namespace Sys2Proof.Machine

/-! ### Byte strings -/

theorem byteAt_lt (b : List Byte) (i : Nat) : byteAt b i < 256 := (b.getD i 0).isLt

theorem u16le_lt (b : List Byte) (i : Nat) : u16le b i < 2 ^ 16 := by
  have h0 := byteAt_lt b i
  have h1 := byteAt_lt b (i + 1)
  unfold u16le
  omega

theorem u32le_lt (b : List Byte) (i : Nat) : u32le b i < 2 ^ 32 := by
  have h0 := u16le_lt b i
  have h1 := u16le_lt b (i + 2)
  unfold u32le
  omega

theorem u16be_lt (b : List Byte) (i : Nat) : u16be b i < 2 ^ 16 := by
  have h0 := byteAt_lt b i
  have h1 := byteAt_lt b (i + 1)
  unfold u16be
  omega

@[simp] theorem length_le16 (v : Nat) : (le16 v).length = 2 := rfl
@[simp] theorem length_le32 (v : Nat) : (le32 v).length = 4 := rfl
@[simp] theorem length_be16 (v : Nat) : (be16 v).length = 2 := rfl
@[simp] theorem length_be24 (v : Nat) : (be24 v).length = 3 := rfl

theorem length_codeBytes (d : Depth) (c : Int) : (codeBytes d c).length = d.bytes := by
  cases d <;> simp [codeBytes, Depth.bytes, Depth.bits]

theorem depth_bytes_pos (d : Depth) : 0 < d.bytes := by cases d <;> decide

/-! ### The writer -/

@[simp] theorem length_containerHeader (rate : Nat) (d : Depth) (db : Nat) :
    (containerHeader rate d db).length = 44 := rfl

theorem length_flatMap_codeBytes (d : Depth) (codes : List Int) :
    (codes.flatMap (codeBytes d)).length = codes.length * d.bytes := by
  induction codes with
  | nil => simp
  | cons c rest ih =>
    rw [List.flatMap_cons, List.length_append, ih, length_codeBytes, List.length_cons, Nat.add_mul, Nat.one_mul,
      Nat.add_comm]

/-- No pad byte: the container is exactly 44 bytes and the data bytes (41_sample_buffer.md R145). -/
@[simp] theorem length_container (rate : Nat) (d : Depth) (codes : List Int) :
    (container rate d codes).length = 44 + codes.length * d.bytes := by
  unfold container
  rw [List.length_append, length_containerHeader, length_flatMap_codeBytes]

/-! ### The reader -/

/-- Every chunk the scan records lies inside the declared end. -/
theorem scanChunks_bounds (b : List Byte) (stop fuel p : Nat) (found r : Chunks)
    (h : scanChunks b stop fuel p found = .ok r)
    (hf : ∀ o z, found.fmt = some (o, z) → o + z ≤ stop)
    (hd : ∀ o z, found.data = some (o, z) → o + z ≤ stop) :
    (∀ o z, r.fmt = some (o, z) → o + z ≤ stop) ∧ (∀ o z, r.data = some (o, z) → o + z ≤ stop) := by
  induction fuel generalizing p found with
  | zero => cases h; exact ⟨hf, hd⟩
  | succ n ih =>
    unfold scanChunks at h
    split at h
    · cases h; exact ⟨hf, hd⟩
    · simp only at h
      split at h
      · cases h
      · split at h
        · split at h
          · cases h
          · refine ih _ _ h ?_ hd
            intro o z hz
            simp only [Option.some.injEq, Prod.mk.injEq] at hz
            omega
        · split at h
          · split at h
            · cases h
            · refine ih _ _ h hf ?_
              intro o z hz
              simp only [Option.some.injEq, Prod.mk.injEq] at hz
              omega
          · exact ih _ _ h hf hd

/-- The samples of a parsed view lie inside the parsed bytes, and the view is open. -/
theorem parse_ok (b : List Byte) (v : View) (h : parse b = .ok v) : v.Fits b.length ∧ v ≠ .closed := by
  unfold parse at h
  simp only at h
  split at h
  · cases h
  · split at h
    · cases h
    · split at h
      · cases h
      · rename_i hstop
        split at h
        · cases h
        · rename_i found hs
          have hb := scanChunks_bounds b _ _ _ _ _ hs (by simp) (by simp)
          unfold viewOfChunks at h
          split at h
          · cases h
          · cases h
          · rename_i fo fs base ds hfmt hdata
            have hds := hb.2 base ds hdata
            split at h
            · cases h
            · split at h
              · cases h
              · split at h
                · cases h
                · simp only at h
                  have key : ∀ k, 0 < k → base + (BitVec.ofNat 32 (ds / k)).toNat * k ≤ b.length := by
                    intro k hk
                    have h1 : (BitVec.ofNat 32 (ds / k)).toNat ≤ ds / k := by
                      rw [BitVec.toNat_ofNat]; exact Nat.mod_le _ _
                    have h2 := Nat.mul_le_mul_right k h1
                    have h3 := Nat.div_mul_le_self ds k
                    omega
                  split at h
                  · cases h
                    exact ⟨key _ (depth_bytes_pos _), by simp⟩
                  · split at h
                    · cases h
                      exact ⟨key _ (depth_bytes_pos _), by simp⟩
                    · cases h

/-- The errors of the chunk scan (41_sample_buffer.md R150). -/
theorem scanChunks_error (b : List Byte) (stop fuel p : Nat) (found : Chunks) (e : Err)
    (h : scanChunks b stop fuel p found = .error e) :
    e.kind = .malformedContainer ∧ 1 ≤ e.detail.toNat ∧ e.detail.toNat ≤ 8 := by
  induction fuel generalizing p found with
  | zero => cases h
  | succ n ih =>
    unfold scanChunks at h
    split at h
    · cases h
    · simp only at h
      split at h
      · cases h; decide
      · split at h
        · split at h
          · cases h; decide
          · exact ih _ _ h
        · split at h
          · split at h
            · cases h; decide
            · exact ih _ _ h
          · exact ih _ _ h

/-- PARSE fails only with MalformedContainer 1 to 8 or UnsupportedFormat 1 to 3 (60_exceptions.md R262). -/
theorem parse_error (b : List Byte) (e : Err) (h : parse b = .error e) :
    (e.kind = .malformedContainer ∧ 1 ≤ e.detail.toNat ∧ e.detail.toNat ≤ 8) ∨
    (e.kind = .unsupportedFormat ∧ 1 ≤ e.detail.toNat ∧ e.detail.toNat ≤ 3) := by
  unfold parse at h
  simp only at h
  split at h
  · cases h; exact .inl (by decide)
  · split at h
    · cases h; exact .inl (by decide)
    · split at h
      · cases h; exact .inl (by decide)
      · split at h
        · rename_i e' hs
          cases h
          exact .inl (scanChunks_error _ _ _ _ _ _ hs)
        · unfold viewOfChunks at h
          split at h
          · cases h; exact .inl (by decide)
          · cases h; exact .inl (by decide)
          · split at h
            · cases h; exact .inl (by decide)
            · split at h
              · cases h; exact .inr (by decide)
              · split at h
                · cases h; exact .inr (by decide)
                · simp only at h
                  split at h
                  · cases h
                  · split at h
                    · cases h
                    · cases h; exact .inr (by decide)

/-- More fuel than bytes left does not change the scan: its fuel never runs out (log 16). -/
theorem scanChunks_fuel (b : List Byte) (stop k n p : Nat) (found : Chunks) (hk : stop - p < k) (hn : k ≤ n) :
    scanChunks b stop n p found = scanChunks b stop k p found := by
  induction k generalizing n p found with
  | zero => omega
  | succ k ih =>
    obtain ⟨n', rfl⟩ : ∃ n', n = n' + 1 := ⟨n - 1, by omega⟩
    unfold scanChunks
    split
    · rfl
    · simp only
      split
      · rfl
      · split
        · split
          · rfl
          · exact ih _ _ _ (by omega) (by omega)
        · split
          · split
            · rfl
            · exact ih _ _ _ (by omega) (by omega)
          · exact ih _ _ _ (by omega) (by omega)

end Sys2Proof.Machine
end

