-- ==== Sys2Proof/Laws/Commands.lean ====
section
/-! SUPPORT. Everything each command can do, said once: later proofs cite these and do not unfold a meaning. -/

namespace Sys2Proof.Machine

/-- WRAP ends in an error or in a result that fits OUT (40_envelope.md R123). -/
theorem execWrap_cases (s : State) :
    (∃ e, execWrap s = .next (s.raiseOut e) ∧
      (e = ⟨.capacityExceeded, 1⟩ ∨ e = ⟨.lengthMismatch, 3⟩ ∨ e = ⟨.capacityExceeded, 2⟩)) ∨
    (execWrap s = .next (s.yieldOut (envelopeOf (s.input s.snap.inLen.toNat))) ∧
      s.snap.inLen.toNat ≤ s.par.inCap ∧ s.snap.inLen.toNat < 65535 ∧
      (envelopeOf (s.input s.snap.inLen.toNat)).length ≤ s.par.outCap) := by
  unfold execWrap
  simp only
  split
  · exact .inl ⟨_, rfl, .inl rfl⟩
  · split
    · exact .inl ⟨_, rfl, .inr (.inl rfl)⟩
    · split
      · exact .inl ⟨_, rfl, .inr (.inr rfl)⟩
      · exact .inr ⟨rfl, by omega, by omega, by omega⟩

/-- The errors of the envelope check (40_envelope.md R122). -/
theorem envCheck_error (b : List Byte) (e : Err) (h : envCheck b = some e) :
    e = ⟨.lengthMismatch, 4⟩ ∨ e = ⟨.lengthMismatch, 1⟩ ∨ e = ⟨.lengthMismatch, 2⟩ ∨ e = ⟨.checksumMismatch, 1⟩ := by
  unfold envCheck at h
  split at h
  · cases h; exact .inl rfl
  · simp only at h
    split at h
    · cases h; exact .inr (.inl rfl)
    · split at h
      · cases h; exact .inr (.inr (.inl rfl))
      · split at h
        · cases h; exact .inr (.inr (.inr rfl))
        · cases h

/-- A byte string passes the envelope check exactly when it is a valid envelope with a payload
(40_envelope.md R120, R122). -/
theorem envCheck_none_iff (b : List Byte) :
    envCheck b = none ↔
      2 ≤ b.length ∧ b.length = u16be b 0 + 5 ∧ u16be b 0 ≠ 0 ∧
      csum (slice b 2 (2 + u16be b 0)) = u24be b (2 + u16be b 0) := by
  unfold envCheck
  simp only
  constructor
  · intro h
    split at h
    · cases h
    · split at h
      · cases h
      · split at h
        · cases h
        · split at h
          · cases h
          · rename_i h1 h2 h3 h4
            exact ⟨by omega, by omega, h3, by simpa using h4⟩
  · rintro ⟨h1, h2, h3, h4⟩
    rw [if_neg (by omega), if_neg (by omega), if_neg h3, if_neg (by simpa using h4)]

/-- UNWRAP ends in an error or in a result that fits OUT (40_envelope.md R124). -/
theorem execUnwrap_cases (s : State) :
    (∃ e, execUnwrap s = .next (s.raiseOut e) ∧
      (e = ⟨.capacityExceeded, 1⟩ ∨ envCheck (s.input s.snap.inLen.toNat) = some e ∨ e = ⟨.capacityExceeded, 2⟩)) ∨
    (execUnwrap s = .next (s.yieldOut (unwrapBytes (s.input s.snap.inLen.toNat))) ∧
      s.snap.inLen.toNat ≤ s.par.inCap ∧ envCheck (s.input s.snap.inLen.toNat) = none ∧
      (unwrapBytes (s.input s.snap.inLen.toNat)).length ≤ s.par.outCap) := by
  unfold execUnwrap
  simp only
  split
  · exact .inl ⟨_, rfl, .inl rfl⟩
  · split
    · rename_i e h
      exact .inl ⟨_, rfl, .inr (.inl h)⟩
    · rename_i h
      split
      · exact .inl ⟨_, rfl, .inr (.inr rfl)⟩
      · exact .inr ⟨rfl, by omega, h, by omega⟩

/-- OPEN closes the view or opens it on the parsed container (41_sample_buffer.md R158). -/
theorem execOpen_cases (s : State) :
    (∃ e, execOpen s = .next (s.closeView.raise e) ∧
      (e = ⟨.capacityExceeded, 1⟩ ∨ parse (s.input s.snap.inLen.toNat) = .error e)) ∨
    (∃ v, execOpen s = .next (s.setView v).succeed ∧ parse (s.input s.snap.inLen.toNat) = .ok v ∧
      s.snap.inLen.toNat ≤ s.par.inCap) := by
  unfold execOpen
  simp only
  split
  · exact .inl ⟨_, rfl, .inl rfl⟩
  · split
    · rename_i e h
      exact .inl ⟨_, rfl, .inr h⟩
    · rename_i v h
      exact .inr ⟨v, rfl, h, by omega⟩

/-- READ fails or reads the sample at the cursor (41_sample_buffer.md R160). -/
theorem execRead_cases (s : State) :
    (execRead s = .next (s.raise ⟨.outOfRange, 2⟩) ∧ (s.view = .closed ∨ s.view.count ≤ s.smpPos)) ∨
    (execRead s =
        .next { s with smpRaw := rawOfCode (s.code s.smpPos.toNat), smpPos := s.smpPos + 1 }.succeed ∧
      s.view ≠ .closed ∧ s.smpPos < s.view.count) := by
  unfold execRead
  split
  · rename_i h
    exact .inl ⟨rfl, h⟩
  · rename_i h
    rw [not_or] at h
    exact .inr ⟨rfl, h.1, by simpa using h.2⟩

/-- SEEK fails or moves the cursor (41_sample_buffer.md R161). -/
theorem execSeek_cases (s : State) :
    (execSeek s = .next (s.raise ⟨.outOfRange, 1⟩) ∧ s.view.count ≤ s.snap.arg) ∨
    (execSeek s = .next { s with smpPos := s.snap.arg }.succeed ∧ s.snap.arg < s.view.count) := by
  unfold execSeek
  split
  · rename_i h
    exact .inl ⟨rfl, h⟩
  · rename_i h
    exact .inr ⟨rfl, by simpa using h⟩

/-! ### MODULATE -/

/-- The errors of the configuration check (42_modulator.md R180). -/
theorem modulateConfig_error (par : Params) (p : Snapshot) (e : Err) (h : modulateConfig par p = .error e) :
    e = ⟨.capacityExceeded, 1⟩ ∨ (e.kind = .configInvalid ∧ 1 ≤ e.detail.toNat ∧ e.detail.toNat ≤ 4) := by
  unfold modulateConfig at h
  split at h
  · cases h; exact .inl rfl
  · split at h
    · cases h; exact .inr (by decide)
    · split at h
      · cases h; exact .inr (by decide)
      · split at h
        · cases h; exact .inr (by decide)
        · split at h
          · cases h; exact .inr (by decide)
          · cases h

/-- What passes the configuration check (42_modulator.md R180, R181). -/
theorem modulateConfig_ok (par : Params) (p : Snapshot) (n : Nat) (d : Depth)
    (h : modulateConfig par p = .ok (n, d)) :
    p.inLen.toNat ≤ par.inCap ∧ p.baudRate ≠ 0 ∧ n = p.sampleRate.toNat / p.baudRate.toNat ∧ 1 ≤ n ∧
    p.modCfg.bitsPerSample.toNat = d.bits ∧ p.sampleRate.toNat * d.bytes < 2 ^ 32 := by
  unfold modulateConfig at h
  split at h
  · cases h
  · split at h
    · cases h
    · split at h
      · cases h
      · rename_i h1 h2 h3
        split at h
        · cases h
        · rename_i d' hd
          split at h
          · cases h
          · rename_i h5
            cases h
            refine ⟨by omega, h2, rfl, Nat.pos_of_ne_zero h3, ?_, by omega⟩
            unfold depthOf at hd
            split at hd
            · rename_i hb
              cases hd
              rw [hb]; rfl
            · split at hd
              · rename_i hb
                cases hd
                rw [hb]; rfl
              · cases hd

@[simp] theorem length_toneTable (par : Params) (rev : Bool) (d : Depth) (n b : Nat) :
    (toneTable par rev d n b).length = n := by simp [toneTable]

theorem length_frame (t0 t1 : List Int) (n : Nat) (h0 : t0.length = n) (h1 : t1.length = n) (e : Byte) :
    (frame t0 t1 e).length = 12 * n := by
  have hb : ∀ k, (bitTable t0 t1 k).length = n := by
    intro k
    cases k <;> simp [bitTable, h0, h1]
  have h8 : ((List.range 8).flatMap fun k => bitTable t0 t1 (e.getLsbD k)).length = 8 * n := by
    simp [List.range, List.range.loop, hb]
    omega
  simp only [frame, List.length_append, h0, h1, h8]
  omega

/-- The length of the sample list (42_modulator.md R187). -/
theorem length_sampleList (t0 t1 : List Int) (n : Nat) (h0 : t0.length = n) (h1 : t1.length = n) (leader : Nat)
    (input : List Byte) : (sampleList t0 t1 leader input).length = n * (leader + 12 * input.length) := by
  have hf : ∀ l : List Byte, (l.flatMap (frame t0 t1)).length = l.length * (12 * n) := by
    intro l
    induction l with
    | nil => simp
    | cons e rest ih =>
      rw [List.flatMap_cons, List.length_append, ih, length_frame t0 t1 n h0 h1, List.length_cons]
      ring
  have hl : ((List.replicate leader t1).flatten).length = leader * n := by
    simp [h1]
  rw [sampleList, List.length_append, hl, hf]
  ring

/-- MODULATE ends in an error or in a container that fits OUT (42_modulator.md R188). -/
theorem execModulate_cases (s : State) :
    (∃ e, execModulate s = .next (s.raiseOut e) ∧ modulateConfig s.par s.snap = .error e) ∨
    (∃ n d, modulateConfig s.par s.snap = .ok (n, d) ∧
      ((execModulate s = .next ((s.setTones s.snap.modCfg.reversePhase d n).dropTones.raiseOut ⟨.capacityExceeded, 2⟩) ∧
          s.par.outCap <
            44 + n * (leaderCycles s.snap.sampleRate.toNat s.snap.syncMs.toNat n + 12 * s.snap.inLen.toNat) * d.bytes) ∨
       ∃ c, c = container s.snap.sampleRate.toNat d
            (sampleList (toneTable s.par s.snap.modCfg.reversePhase d n 0)
              (toneTable s.par s.snap.modCfg.reversePhase d n 1)
              (leaderCycles s.snap.sampleRate.toNat s.snap.syncMs.toNat n) (s.input s.snap.inLen.toNat)) ∧
          execModulate s = .next ((s.setTones s.snap.modCfg.reversePhase d n).dropTones.yieldOut c) ∧
          c.length =
            44 + n * (leaderCycles s.snap.sampleRate.toNat s.snap.syncMs.toNat n + 12 * s.snap.inLen.toNat) * d.bytes ∧
          c.length ≤ s.par.outCap)) := by
  unfold execModulate
  simp only
  split
  · rename_i e h
    exact .inl ⟨e, rfl, h⟩
  · rename_i n d h
    refine .inr ⟨n, d, h, ?_⟩
    split
    · rename_i hs
      exact .inl ⟨rfl, hs⟩
    · rename_i hs
      have hlen : (container s.snap.sampleRate.toNat d
            (sampleList (toneTable s.par s.snap.modCfg.reversePhase d n 0)
              (toneTable s.par s.snap.modCfg.reversePhase d n 1)
              (leaderCycles s.snap.sampleRate.toNat s.snap.syncMs.toNat n) (s.input s.snap.inLen.toNat))).length =
            44 + n * (leaderCycles s.snap.sampleRate.toNat s.snap.syncMs.toNat n + 12 * s.snap.inLen.toNat) * d.bytes := by
        rw [length_container, length_sampleList _ _ n (length_toneTable _ _ _ _ _) (length_toneTable _ _ _ _ _)]
        simp [State.input]
      exact .inr ⟨_, rfl, rfl, hlen, by omega⟩

/-! ### DEMODULATE -/

/-- The end of DEMODULATE (43_demodulator.md R230). -/
theorem finishDemod_cases (t : State) (stream : Option Err) :
    (∃ e, finishDemod t stream = t.raiseOut e ∧
      (stream = some e ∨ (stream = none ∧ envCheck t.bytes = some e) ∨
       (stream = none ∧ envCheck t.bytes = none ∧ t.par.outCap < t.bytes.length ∧ e = ⟨.capacityExceeded, 2⟩))) ∨
    (finishDemod t stream = t.yieldOut t.bytes ∧ stream = none ∧ envCheck t.bytes = none ∧
      t.bytes.length ≤ t.par.outCap) := by
  unfold finishDemod
  split
  · exact .inl ⟨_, rfl, .inl rfl⟩
  · split
    · rename_i e h
      exact .inl ⟨_, rfl, .inr (.inl ⟨rfl, h⟩)⟩
    · rename_i h
      split
      · rename_i hc
        exact .inl ⟨_, rfl, .inr (.inr ⟨rfl, h, hc, rfl⟩)⟩
      · exact .inr ⟨rfl, rfl, h, by omega⟩

/-- DEMODULATE fails before its PARSE succeeds, or runs the loop on the parsed view (43_demodulator.md R230). -/
theorem execDemodulate_cases (s : State) :
    (∃ e, execDemodulate s = .next (s.clearDemod.closeView.raiseOut e) ∧
      (e = ⟨.capacityExceeded, 1⟩ ∨ e = ⟨.configInvalid, 1⟩ ∨ parse (s.input s.snap.inLen.toNat) = .error e)) ∨
    (∃ v, parse (s.input s.snap.inLen.toNat) = .ok v ∧ s.snap.inLen.toNat ≤ s.par.inCap ∧ s.snap.baudRate ≠ 0 ∧
      execDemodulate s =
        .next (finishDemod (demodLoop (v.count.toNat + 1) (s.clearDemod.setView v)).1
          (demodLoop (v.count.toNat + 1) (s.clearDemod.setView v)).2)) := by
  unfold execDemodulate
  simp only
  split
  · exact .inl ⟨_, rfl, .inl rfl⟩
  · split
    · exact .inl ⟨_, rfl, .inr (.inl rfl)⟩
    · rename_i hn hb
      split
      · rename_i e h
        exact .inl ⟨_, rfl, .inr (.inr h)⟩
      · rename_i v h
        exact .inr ⟨v, h, by omega, hb, rfl⟩

/-- Every command answers a next state. -/
theorem exec_next (i : Instr) (s : State) : ∃ t, exec i s = .next t := by
  cases i with
  | wrap => rcases execWrap_cases s with ⟨e, h, -⟩ | ⟨h, -⟩ <;> exact ⟨_, h⟩
  | unwrap => rcases execUnwrap_cases s with ⟨e, h, -⟩ | ⟨h, -⟩ <;> exact ⟨_, h⟩
  | modulate =>
    rcases execModulate_cases s with ⟨e, h, -⟩ | ⟨n, d, -, ⟨h, -⟩ | ⟨c, -, h, -⟩⟩ <;> exact ⟨_, h⟩
  | demodulate => rcases execDemodulate_cases s with ⟨e, h, -⟩ | ⟨v, -, -, -, h⟩ <;> exact ⟨_, h⟩
  | openView => rcases execOpen_cases s with ⟨e, h, -⟩ | ⟨v, h, -⟩ <;> exact ⟨_, h⟩
  | seek => rcases execSeek_cases s with ⟨h, -⟩ | ⟨h, -⟩ <;> exact ⟨_, h⟩
  | read => rcases execRead_cases s with ⟨h, -⟩ | ⟨h, -⟩ <;> exact ⟨_, h⟩
  | nop | reserved8 | reserved9 | reservedA | reservedB | reservedC | reservedD | reservedE | reset => exact ⟨_, rfl⟩
  | illegal r o => exact ⟨_, rfl⟩

end Sys2Proof.Machine
end

