-- ==== Sys2Proof/Laws/Invariant.lean ====
section
/-! SUPPORT. The building blocks of the machine keep the invariant of Safety.lean, one lemma each. -/

namespace Sys2Proof.Machine

/-- An error the spec lists as reportable. -/
abbrev Err.Ok (e : Err) : Prop := 1 ≤ e.detail.toNat ∧ e.detail.toNat ≤ maxDetail e.kind.code

theorem code_ne_zero (k : ErrKind) : k.code ≠ 0 := by cases k <;> decide

theorem outCap_lt (s : State) (h : s.Inv) : s.par.outCap < 2 ^ 32 := by
  have := h.par_ok.2.1.2
  omega

theorem State.Inv.succeed {s : State} (h : s.Inv) : s.succeed.Inv where
  par_ok := h.par_ok
  in_wf := h.in_wf
  in_bounded := h.in_bounded
  out_wf := h.out_wf
  out_bounded := h.out_bounded
  outLen_le := h.outLen_le
  view_fits := h.view_fits
  pos_le := h.pos_le
  units := h.units
  bytes_counted := h.bytes_counted
  busy := trivial
  report := .inl ⟨rfl, rfl, rfl⟩

theorem State.Inv.raise {s : State} (h : s.Inv) (e : Err) (he : e.Ok) : (s.raise e).Inv where
  par_ok := h.par_ok
  in_wf := h.in_wf
  in_bounded := h.in_bounded
  out_wf := h.out_wf
  out_bounded := h.out_bounded
  outLen_le := h.outLen_le
  view_fits := h.view_fits
  pos_le := h.pos_le
  units := h.units
  bytes_counted := h.bytes_counted
  busy := trivial
  report := .inr ⟨rfl, code_ne_zero e.kind, he.1, he.2⟩

theorem State.Inv.raiseOut {s : State} (h : s.Inv) (e : Err) (he : e.Ok) : (s.raiseOut e).Inv where
  par_ok := h.par_ok
  in_wf := h.in_wf
  in_bounded := h.in_bounded
  out_wf := List.Pairwise.nil
  out_bounded := fun c hc => by cases hc
  outLen_le := Nat.zero_le _
  view_fits := h.view_fits
  pos_le := h.pos_le
  units := h.units
  bytes_counted := h.bytes_counted
  busy := trivial
  report := .inr ⟨rfl, code_ne_zero e.kind, he.1, he.2⟩

theorem State.Inv.yieldOut {s : State} (h : s.Inv) (r : List Byte) (hr : r.length ≤ s.par.outCap) :
    (s.yieldOut r).Inv where
  par_ok := h.par_ok
  in_wf := h.in_wf
  in_bounded := h.in_bounded
  out_wf := Memory.ofBytes_wf r _
  out_bounded := fun c hc => Nat.lt_of_lt_of_le (Memory.ofBytes_bounded r _ c hc) hr
  outLen_le := Nat.le_trans (by simpa using Nat.mod_le _ _) hr
  view_fits := h.view_fits
  pos_le := h.pos_le
  units := h.units
  bytes_counted := h.bytes_counted
  busy := trivial
  report := .inl ⟨rfl, rfl, rfl⟩

theorem State.Inv.closeView {s : State} (h : s.Inv) : s.closeView.Inv where
  par_ok := h.par_ok
  in_wf := h.in_wf
  in_bounded := h.in_bounded
  out_wf := h.out_wf
  out_bounded := h.out_bounded
  outLen_le := h.outLen_le
  view_fits := trivial
  pos_le := BitVec.le_refl _
  units := h.units
  bytes_counted := h.bytes_counted
  busy := h.busy
  report := h.report

theorem State.Inv.setView {s : State} (h : s.Inv) (v : View) (hv : v.Fits s.par.inCap) : (s.setView v).Inv where
  par_ok := h.par_ok
  in_wf := h.in_wf
  in_bounded := h.in_bounded
  out_wf := h.out_wf
  out_bounded := h.out_bounded
  outLen_le := h.outLen_le
  view_fits := hv
  pos_le := by rw [BitVec.le_def]; exact Nat.zero_le _
  units := h.units
  bytes_counted := h.bytes_counted
  busy := h.busy
  report := h.report

theorem State.Inv.clearDemod {s : State} (h : s.Inv) : s.clearDemod.Inv where
  par_ok := h.par_ok
  in_wf := h.in_wf
  in_bounded := h.in_bounded
  out_wf := h.out_wf
  out_bounded := h.out_bounded
  outLen_le := h.outLen_le
  view_fits := h.view_fits
  pos_le := h.pos_le
  units := .inl rfl
  bytes_counted := rfl
  busy := h.busy
  report := h.report

theorem State.Inv.dropTones {s : State} (h : s.Inv) (rev : Bool) (d : Depth) (n : Nat) :
    (s.setTones rev d n).dropTones.Inv where
  par_ok := h.par_ok
  in_wf := h.in_wf
  in_bounded := h.in_bounded
  out_wf := h.out_wf
  out_bounded := h.out_bounded
  outLen_le := h.outLen_le
  view_fits := h.view_fits
  pos_le := h.pos_le
  units := h.units
  bytes_counted := h.bytes_counted
  busy := h.busy
  report := h.report

theorem Fits.mono {a b : Nat} (hab : a ≤ b) (v : View) (h : v.Fits a) : v.Fits b := by
  cases v with
  | closed => trivial
  | opened base d count rate => exact Nat.le_trans h hab

/-- The demodulator's loop keeps the invariant. -/
theorem State.Inv.demodLoop {s : State} (h : s.Inv) (fuel : Nat) : (demodLoop fuel s).1.Inv where
  par_ok := by rw [(demodLoop_frame fuel s).par]; exact h.par_ok
  in_wf := by rw [(demodLoop_frame fuel s).inBuf]; exact h.in_wf
  in_bounded := by rw [(demodLoop_frame fuel s).inBuf, (demodLoop_frame fuel s).par]; exact h.in_bounded
  out_wf := by rw [(demodLoop_frame fuel s).outBuf]; exact h.out_wf
  out_bounded := by rw [(demodLoop_frame fuel s).outBuf, (demodLoop_frame fuel s).par]; exact h.out_bounded
  outLen_le := by rw [(demodLoop_frame fuel s).outLen, (demodLoop_frame fuel s).par]; exact h.outLen_le
  view_fits := by rw [(demodLoop_frame fuel s).view, (demodLoop_frame fuel s).par]; exact h.view_fits
  pos_le := by rw [(demodLoop_frame fuel s).view]; exact demodLoop_pos fuel s h.pos_le
  units := demodLoop_unitsOk fuel s h.units
  bytes_counted := demodLoop_counts fuel s h.bytes_counted
  busy := by
    have f := demodLoop_frame fuel s
    have hb := h.busy
    unfold State.BusyOk at hb ⊢
    rw [f.seq, f.done, f.err]
    unfold State.liveSnap at hb ⊢
    rw [f.sampleRate, f.baudRate, f.syncMs, f.modCfg, f.arg, f.inLen]
    exact hb
  report := by
    have f := demodLoop_frame fuel s
    have hr := h.report
    unfold State.ReportOk at hr ⊢
    rw [f.err, f.errCode, f.errDetail]
    exact hr

theorem State.Inv.accept {s : State} (h : s.Inv) (op : Op) : (s.accept op).Inv where
  par_ok := h.par_ok
  in_wf := h.in_wf
  in_bounded := h.in_bounded
  out_wf := h.out_wf
  out_bounded := h.out_bounded
  outLen_le := h.outLen_le
  view_fits := h.view_fits
  pos_le := h.pos_le
  units := h.units
  bytes_counted := h.bytes_counted
  busy := ⟨rfl, rfl, rfl⟩
  report := .inl ⟨rfl, rfl, rfl⟩

theorem State.Inv.clearReport {s : State} (h : s.Inv) (hi : s.seq = .idle) : s.clearReport.Inv where
  par_ok := h.par_ok
  in_wf := h.in_wf
  in_bounded := h.in_bounded
  out_wf := h.out_wf
  out_bounded := h.out_bounded
  outLen_le := h.outLen_le
  view_fits := h.view_fits
  pos_le := h.pos_le
  units := h.units
  bytes_counted := h.bytes_counted
  busy := by simp [State.BusyOk, hi]
  report := .inl ⟨rfl, rfl, rfl⟩

theorem State.Inv.resetBlock {s : State} (h : s.Inv) : s.resetBlock.Inv where
  par_ok := h.par_ok
  in_wf := List.Pairwise.nil
  in_bounded := fun c hc => by cases hc
  out_wf := List.Pairwise.nil
  out_bounded := fun c hc => by cases hc
  outLen_le := Nat.zero_le _
  view_fits := trivial
  pos_le := BitVec.le_refl _
  units := .inl rfl
  bytes_counted := rfl
  busy := trivial
  report := .inl ⟨rfl, rfl, rfl⟩

/-- A write that the invariant does not speak of: REJ, the last read, the turns, the draw counter. -/
theorem State.Inv.hostFields {s : State} (h : s.Inv) (rej : Bool) (pending : List Turn) (readData : Word) (draws : Nat) :
    ({ s with rej := rej, pending := pending, readData := readData, draws := draws } : State).Inv where
  par_ok := h.par_ok
  in_wf := h.in_wf
  in_bounded := h.in_bounded
  out_wf := h.out_wf
  out_bounded := h.out_bounded
  outLen_le := h.outLen_le
  view_fits := h.view_fits
  pos_le := h.pos_le
  units := h.units
  bytes_counted := h.bytes_counted
  busy := h.busy
  report := h.report

theorem State.Inv.writeStatus {s : State} (h : s.Inv) (v : Word) : (s.writeStatus v).Inv where
  par_ok := h.par_ok
  in_wf := h.in_wf
  in_bounded := h.in_bounded
  out_wf := h.out_wf
  out_bounded := h.out_bounded
  outLen_le := h.outLen_le
  view_fits := h.view_fits
  pos_le := h.pos_le
  units := h.units
  bytes_counted := h.bytes_counted
  busy := by
    have hb := h.busy
    unfold State.BusyOk at hb ⊢
    rw [State.writeStatus_seq, State.writeStatus_done, State.writeStatus_err]
    cases hs : s.seq with
    | idle => trivial
    | busy op p =>
      rw [hs] at hb
      exact ⟨hb.1, by rw [hb.2.1]; rfl, hb.2.2⟩
  report := h.report

/-- A register write to an Idle block. -/
theorem State.Inv.storeReg {s : State} (h : s.Inv) (hi : s.seq = .idle) (v : Word) (r : Reg) : (s.storeReg v r).Inv := by
  have hb : ∀ t : State, t.seq = .idle → t.BusyOk := by
    intro t ht
    simp [State.BusyOk, ht]
  cases r with
  | ctrl | arg | inLen | sampleRate | baudRate | syncMs | modCfg =>
    exact
      { par_ok := h.par_ok, in_wf := h.in_wf, in_bounded := h.in_bounded, out_wf := h.out_wf,
        out_bounded := h.out_bounded, outLen_le := h.outLen_le, view_fits := h.view_fits, pos_le := h.pos_le,
        units := h.units, bytes_counted := h.bytes_counted, busy := hb _ hi, report := h.report }
  | cmd | status | outLen | smpCount | smpRate | smpInfo | smpPos | smpRaw | syncState | cycStart | cycLen
  | demodBytes => exact h

theorem State.Inv.writeIn {s : State} (h : s.Inv) (width : Width) (a : Nat) (v : Word) :
    (s.writeIn width a v).Inv := by
  unfold State.writeIn
  split
  · exact h.hostFields true s.pending s.readData s.draws
  · exact
      { par_ok := h.par_ok
        in_wf := storeBytes_wf _ _ _ a h.in_wf
        in_bounded := storeBytes_bounded _ _ _ a h.in_bounded
        out_wf := h.out_wf, out_bounded := h.out_bounded, outLen_le := h.outLen_le, view_fits := h.view_fits
        pos_le := h.pos_le, units := h.units, bytes_counted := h.bytes_counted, busy := h.busy, report := h.report }

end Sys2Proof.Machine
end

