-- ==== Sys2Proof/Laws/Step.lean ====
section
/-! SUPPORT. What a step is, turn by turn, and what acceptance of a command word does. -/

namespace Sys2Proof.Machine

/-- A step of a machine whose parameters are in range is its next turn. -/
theorem step_ok (s : State) (h : s.par.Ok) : step s = nextTurn s := if_pos h

theorem step_refused (s : State) (h : ¬s.par.Ok) : step s = .refused .parametersOutOfRange := if_neg h

theorem nextTurn_nil (s : State) (h : s.pending = []) : nextTurn s = completeBusy s := by
  unfold nextTurn
  rw [h]

theorem nextTurn_cons (s : State) (t : Turn) (rest : List Turn) (h : s.pending = t :: rest) :
    nextTurn s = takeTurn t { s with pending := rest } := by
  unfold nextTurn
  rw [h]

theorem completeBusy_idle (s : State) (h : s.seq = .idle) : completeBusy s = .next s := by
  unfold completeBusy
  rw [h]

theorem completeBusy_busy (s : State) (op : Op) (p : Snapshot) (h : s.seq = .busy op p) :
    completeBusy s = exec op.instr s := by
  unfold completeBusy
  rw [h]

/-- Acceptance of a command that makes the block Busy (60_exceptions.md R270). -/
theorem cmdWrite_long (w : Word) (op : Op) (s : State) (hi : s.seq = .idle) (h : longOp (decode w) = some op) :
    cmdWrite w s = .next (s.accept op) := by
  unfold cmdWrite
  rw [hi]
  simp only [h]

/-- Acceptance of a command that completes at once (60_exceptions.md R270). -/
theorem cmdWrite_short (w : Word) (s : State) (hi : s.seq = .idle) (h : longOp (decode w) = none) :
    cmdWrite w s = exec (decode w) s.clearReport := by
  unfold cmdWrite
  rw [hi]
  simp only [h]

/-- A CMD write to a Busy block (60_exceptions.md R270). -/
theorem cmdWrite_busy (w : Word) (s : State) (h : s.isBusy = true) :
    cmdWrite w s = if w = 0x0000000F then .next s.resetBlock else .next { s with rej := true } := by
  obtain ⟨op, p, hs⟩ := (State.isBusy_iff s).1 h
  unfold cmdWrite
  rw [hs]
  rfl

/-! ### A command does not look at the report, and takes a live snapshot when the block is Idle -/

/-- The state acceptance leaves, for the command itself, is the state before it. -/
theorem exec_clearReport (i : Instr) (s : State) (h : longOp i = none) : exec i s.clearReport = exec i s := by
  cases i <;> first | rfl | cases h

/-- The loop of DEMODULATE does not look at the report or at SEQ, but for the snapshot. -/
theorem execWrap_accept (s : State) (op : Op) (h : s.seq = .idle) : execWrap (s.accept op) = execWrap s := by
  unfold execWrap
  rw [State.accept_snap s op h]
  rfl

theorem execUnwrap_accept (s : State) (op : Op) (h : s.seq = .idle) : execUnwrap (s.accept op) = execUnwrap s := by
  unfold execUnwrap
  rw [State.accept_snap s op h]
  rfl

theorem execModulate_accept (s : State) (op : Op) (h : s.seq = .idle) :
    execModulate (s.accept op) = execModulate s := by
  unfold execModulate
  rw [State.accept_snap s op h]
  rfl

theorem execOpen_accept (s : State) (op : Op) (h : s.seq = .idle) : execOpen (s.accept op) = execOpen s := by
  unfold execOpen
  rw [State.accept_snap s op h]
  rfl

theorem execSeek_accept (s : State) (op : Op) (h : s.seq = .idle) : execSeek (s.accept op) = execSeek s := by
  unfold execSeek
  rw [State.accept_snap s op h]
  rfl

theorem execRead_accept (s : State) (op : Op) : execRead (s.accept op) = execRead s := rfl

/-- The state with another report and another SEQ. -/
def State.withReport (s : State) (d e : Bool) (c k : BitVec 4) (q : Seq) : State :=
  { s with done := d, err := e, errCode := c, errDetail := k, seq := q }

section
variable (s : State) (d e : Bool) (c k : BitVec 4) (q : Seq)

theorem completeByte_withReport :
    (s.withReport d e c k q).completeByte = s.completeByte.withReport d e c k q := by
  by_cases h : s.halfUnits = Config.unitsPerByte
  · rw [show s.completeByte = _ from if_pos h]
    exact if_pos h
  · rw [show s.completeByte = _ from if_neg h]
    exact if_neg h

theorem sync_withReport (low : Bool) :
    sync low (s.withReport d e c k q) = (sync low s).map (State.withReport · d e c k q) := by
  by_cases h0 : s.halfUnits = 0
  · refine (if_pos h0).trans ?_
    rw [show sync low s = _ from if_pos h0]
    cases low <;> rfl
  · refine (if_neg h0).trans ?_
    rw [show sync low s = _ from if_neg h0]
    cases low with
    | false =>
      simp only [Bool.false_eq_true, if_false]
      by_cases hb : (s.halfUnits + 1).getLsbD 0 = true
      · rw [if_pos hb]
        refine (if_pos hb).trans ?_
        exact congrArg Except.ok (completeByte_withReport { s with halfUnits := s.halfUnits + 1 } d e c k q)
      · rw [if_neg hb]
        refine (if_neg hb).trans ?_
        exact congrArg Except.ok (completeByte_withReport
          { s with halfUnits := s.halfUnits + 1, workingByte := (s.workingByte >>> 1) ||| 0x80 } d e c k q)
    | true =>
      simp only [if_true]
      by_cases hb : s.halfUnits.getLsbD 0 = true
      · rw [if_pos hb]
        exact if_pos hb
      · rw [if_neg hb]
        refine (if_neg hb).trans ?_
        exact congrArg Except.ok (completeByte_withReport
          { s with halfUnits := s.halfUnits + 2, workingByte := s.workingByte >>> 1 } d e c k q)

theorem detect_withReport :
    detect (s.withReport d e c k q) = ((detect s).1, (detect s).2.withReport d e c k q) := by
  cases hf : findTriple s.sample s.view.count.toNat s.smpPos.toNat with
  | none =>
    rw [detect_none s hf, detect_none (s.withReport d e c k q) hf]
    rfl
  | some r =>
    obtain ⟨a, m, x⟩ := r
    rw [detect_some s a m x hf, detect_some (s.withReport d e c k q) a m x hf]
    rfl

/-- What is done with an event depends on SEQ through the snapshot alone. -/
theorem consume_withReport (hs : (s.withReport d e c k q).snap = s.snap) (was : Bool) (ev : Event) :
    consume was ev (s.withReport d e c k q) = (consume was ev s).map (State.withReport · d e c k q) := by
  cases ev with
  | eof => rfl
  | sob a l => rfl
  | cycle a l =>
    cases was with
    | false => rfl
    | true =>
      simp only [consume, if_true, hs]
      exact sync_withReport s d e c k q _
  | eob =>
    cases was with
    | false => rfl
    | true =>
      simp only [consume, if_true]
      by_cases h0 : s.halfUnits = 0
      · rw [if_pos h0]
        exact if_pos h0
      · rw [if_neg h0]
        exact if_neg h0

/-- A state whose snapshot is the live registers or the same recorded one. -/
theorem snap_withReport_congr (t : State) (hseq : t.seq = s.seq) (hlive : t.liveSnap = s.liveSnap)
    (hs : (s.withReport d e c k q).snap = s.snap) : (t.withReport d e c k q).snap = t.snap := by
  have h1 : (t.withReport d e c k q).snap = (s.withReport d e c k q).snap := by
    cases q with
    | idle => exact hlive
    | busy op p => rfl
  have h2 : t.snap = s.snap := by
    unfold State.snap
    rw [hlive, hseq]
  rw [h1, h2, hs]

end

theorem DemodFrame.liveSnap {s t : State} (h : DemodFrame s t) : t.liveSnap = s.liveSnap := by
  unfold State.liveSnap
  rw [h.sampleRate, h.baudRate, h.syncMs, h.modCfg, h.arg, h.inLen]

theorem demodLoop_withReport (fuel : Nat) (s : State) (d e : Bool) (c k : BitVec 4) (q : Seq)
    (hs : (s.withReport d e c k q).snap = s.snap) :
    demodLoop fuel (s.withReport d e c k q) =
      ((demodLoop fuel s).1.withReport d e c k q, (demodLoop fuel s).2) := by
  induction fuel generalizing s with
  | zero => rfl
  | succ n ih =>
    have hd := detect_frame s
    simp only [demodLoop, detect_withReport]
    rcases hds : detect s with ⟨ev, s1⟩
    rw [hds] at hd
    have h1 := snap_withReport_congr s d e c k q s1 hd.seq hd.liveSnap hs
    simp only
    rw [show (s.withReport d e c k q).inBlock = s.inBlock from rfl, consume_withReport s1 d e c k q h1]
    cases hc : consume s.inBlock ev s1 with
    | error x => rfl
    | ok s2 =>
      have hf := consume_frame _ _ _ _ hc
      simp only [Except.map]
      cases ev.ends with
      | true => rfl
      | false => exact ih s2 (snap_withReport_congr s1 d e c k q s2 hf.1.seq hf.1.liveSnap h1)

theorem finishDemod_withReport (s : State) (d e : Bool) (c k : BitVec 4) (q : Seq) (stream : Option Err) :
    finishDemod (s.withReport d e c k q) stream = finishDemod s stream := by
  cases stream with
  | some x => rfl
  | none =>
    unfold finishDemod
    simp only
    rw [show (s.withReport d e c k q).bytes = s.bytes from rfl]
    cases envCheck s.bytes with
    | some x => rfl
    | none =>
      simp only
      by_cases h : s.par.outCap < s.bytes.length
      · rw [if_pos h]
        exact if_pos h
      · rw [if_neg h]
        exact if_neg h

theorem execDemodulate_accept (s : State) (op : Op) (h : s.seq = .idle) :
    execDemodulate (s.accept op) = execDemodulate s := by
  unfold execDemodulate
  rw [State.accept_snap s op h]
  simp only [show (s.accept op).input s.snap.inLen.toNat = s.input s.snap.inLen.toNat from rfl,
    show (s.accept op).par = s.par from rfl]
  by_cases h1 : s.par.inCap < s.snap.inLen.toNat
  · rw [if_pos h1, if_pos h1]
    rfl
  · rw [if_neg h1, if_neg h1]
    by_cases h2 : s.snap.baudRate = 0
    · rw [if_pos h2, if_pos h2]
      rfl
    · rw [if_neg h2, if_neg h2]
      cases parse (s.input s.snap.inLen.toNat) with
      | error x => rfl
      | ok v =>
        have hq : ((s.clearDemod.setView v).withReport false false 0 0 (.busy op s.liveSnap)).snap =
            (s.clearDemod.setView v).snap := by
          rw [State.setView_snap, State.clearDemod_snap]
          show s.liveSnap = s.snap
          unfold State.snap
          rw [h]
        have hl := demodLoop_withReport (v.count.toNat + 1) (s.clearDemod.setView v) false false 0 0
          (.busy op s.liveSnap) hq
        simp only
        rw [show (s.accept op).clearDemod.setView v =
          (s.clearDemod.setView v).withReport false false 0 0 (.busy op s.liveSnap) from rfl, hl]
        exact congrArg Host.Outcome.next (finishDemod_withReport _ false false 0 0 (.busy op s.liveSnap) _)

/-- A command gives the same result whether it is run from the Idle state or from the state its own acceptance
leaves: acceptance and completion may be two steps or one (log 2). -/
theorem exec_accept (i : Instr) (op : Op) (s : State) (hi : s.seq = .idle) (h : longOp i = some op) :
    exec op.instr (s.accept op) = exec i s := by
  cases i <;> cases h
  · exact execWrap_accept s _ hi
  · exact execUnwrap_accept s _ hi
  · exact execModulate_accept s _ hi
  · exact execDemodulate_accept s _ hi
  · exact execOpen_accept s _ hi
  · exact execSeek_accept s _ hi
  · exact execRead_accept s _

/-- What a command leaves is Idle, when it was run from Idle or is one that makes the block Busy. -/
theorem exec_idle (i : Instr) (s t : State) (hi : s.seq = .idle) (h : exec i s = .next t) : t.seq = .idle := by
  cases i with
  | wrap => rcases execWrap_cases s with ⟨e, k, -⟩ | ⟨k, -⟩ <;> (rw [exec, k] at h; cases h; rfl)
  | unwrap => rcases execUnwrap_cases s with ⟨e, k, -⟩ | ⟨k, -⟩ <;> (rw [exec, k] at h; cases h; rfl)
  | modulate =>
    rcases execModulate_cases s with ⟨e, k, -⟩ | ⟨n, d, -, ⟨k, -⟩ | ⟨c, -, k, -⟩⟩ <;>
      (rw [exec, k] at h; cases h; rfl)
  | demodulate =>
    rcases execDemodulate_cases s with ⟨e, k, -⟩ | ⟨v, -, -, -, k⟩
    · rw [exec, k] at h; cases h; rfl
    · rw [exec, k] at h
      cases h
      rcases finishDemod_cases (demodLoop (v.count.toNat + 1) (s.clearDemod.setView v)).1
        (demodLoop (v.count.toNat + 1) (s.clearDemod.setView v)).2 with ⟨e, k, -⟩ | ⟨k, -⟩ <;> rw [k] <;> rfl
  | openView => rcases execOpen_cases s with ⟨e, k, -⟩ | ⟨v, k, -⟩ <;> (rw [exec, k] at h; cases h; rfl)
  | seek => rcases execSeek_cases s with ⟨k, -⟩ | ⟨k, -⟩ <;> (rw [exec, k] at h; cases h; rfl)
  | read => rcases execRead_cases s with ⟨k, -⟩ | ⟨k, -⟩ <;> (rw [exec, k] at h; cases h; rfl)
  | nop => cases h; exact hi
  | reserved8 | reserved9 | reservedA | reservedB | reservedC | reservedD | reservedE | reset => cases h; rfl
  | illegal r o => cases h; rfl

end Sys2Proof.Machine
end

