-- ==== Sys2Proof/Laws/Frame.lean ====
section
/-! SUPPORT. What every command leaves unchanged, said once for all commands. -/

namespace Sys2Proof.Machine

/-- What a command that is not RESET keeps and reports, in terms of the fields themselves. -/
structure CommandFrame (s t : State) : Prop where
  par : t.par = s.par
  ie : t.ie = s.ie
  rej : t.rej = s.rej
  arg : t.arg = s.arg
  inLen : t.inLen = s.inLen
  sampleRate : t.sampleRate = s.sampleRate
  baudRate : t.baudRate = s.baudRate
  syncMs : t.syncMs = s.syncMs
  modCfg : t.modCfg = s.modCfg
  inBuf : t.inBuf = s.inBuf
  pending : t.pending = s.pending
  readData : t.readData = s.readData
  done : t.done = true

theorem CommandFrame.sameHost {s t : State} (h : CommandFrame s t) : SameHost s t :=
  ⟨h.par, h.ie, h.rej, h.arg, h.inLen, h.sampleRate, h.baudRate, h.syncMs, h.modCfg, fun a => by rw [h.inBuf],
    h.pending, h.readData⟩

theorem CommandFrame.liveSnap {s t : State} (h : CommandFrame s t) : t.liveSnap = s.liveSnap := by
  unfold State.liveSnap
  rw [h.sampleRate, h.baudRate, h.syncMs, h.modCfg, h.arg, h.inLen]

theorem finishDemod_frame (s r : State) (h : DemodFrame s r) (stream : Option Err) :
    CommandFrame s (finishDemod r stream) := by
  rcases finishDemod_cases r stream with ⟨e, k, -⟩ | ⟨k, -⟩ <;> rw [k] <;>
    exact ⟨h.par, h.ie, h.rej, h.arg, h.inLen, h.sampleRate, h.baudRate, h.syncMs, h.modCfg, h.inBuf, h.pending,
      h.readData, rfl⟩

/-- Every command but RESET keeps the configuration, REJ, CTRL and IN, and completes with DONE = 1
(20_memory.md R73; 10_state.md R27). -/
theorem exec_frame (i : Instr) (s t : State) (hi : i ≠ .reset) (h : exec i s = .next t) : CommandFrame s t := by
  cases i with
  | wrap =>
    rcases execWrap_cases s with ⟨e, k, -⟩ | ⟨k, -⟩ <;>
      (cases k.symm.trans h; exact ⟨rfl, rfl, rfl, rfl, rfl, rfl, rfl, rfl, rfl, rfl, rfl, rfl, rfl⟩)
  | unwrap =>
    rcases execUnwrap_cases s with ⟨e, k, -⟩ | ⟨k, -⟩ <;>
      (cases k.symm.trans h; exact ⟨rfl, rfl, rfl, rfl, rfl, rfl, rfl, rfl, rfl, rfl, rfl, rfl, rfl⟩)
  | modulate =>
    rcases execModulate_cases s with ⟨e, k, -⟩ | ⟨n, d, -, ⟨k, -⟩ | ⟨c, -, k, -⟩⟩ <;>
      (cases k.symm.trans h; exact ⟨rfl, rfl, rfl, rfl, rfl, rfl, rfl, rfl, rfl, rfl, rfl, rfl, rfl⟩)
  | demodulate =>
    rcases execDemodulate_cases s with ⟨e, k, -⟩ | ⟨v, -, -, -, k⟩
    · (cases k.symm.trans h; exact ⟨rfl, rfl, rfl, rfl, rfl, rfl, rfl, rfl, rfl, rfl, rfl, rfl, rfl⟩)
    · have hf := finishDemod_frame (s.clearDemod.setView v)
        (demodLoop (v.count.toNat + 1) (s.clearDemod.setView v)).1 (demodLoop_frame _ _)
        (demodLoop (v.count.toNat + 1) (s.clearDemod.setView v)).2
      cases k.symm.trans h
      exact ⟨hf.par, hf.ie, hf.rej, hf.arg, hf.inLen, hf.sampleRate, hf.baudRate, hf.syncMs, hf.modCfg,
        hf.inBuf, hf.pending, hf.readData, hf.done⟩
  | openView =>
    rcases execOpen_cases s with ⟨e, k, -⟩ | ⟨v, k, -⟩ <;>
      (cases k.symm.trans h; exact ⟨rfl, rfl, rfl, rfl, rfl, rfl, rfl, rfl, rfl, rfl, rfl, rfl, rfl⟩)
  | seek =>
    rcases execSeek_cases s with ⟨k, -⟩ | ⟨k, -⟩ <;>
      (cases k.symm.trans h; exact ⟨rfl, rfl, rfl, rfl, rfl, rfl, rfl, rfl, rfl, rfl, rfl, rfl, rfl⟩)
  | read =>
    rcases execRead_cases s with ⟨k, -⟩ | ⟨k, -⟩ <;>
      (cases k.symm.trans h; exact ⟨rfl, rfl, rfl, rfl, rfl, rfl, rfl, rfl, rfl, rfl, rfl, rfl, rfl⟩)
  | reset => exact absurd rfl hi
  | nop | reserved8 | reserved9 | reservedA | reservedB | reservedC | reservedD | reservedE =>
    (cases h; exact ⟨rfl, rfl, rfl, rfl, rfl, rfl, rfl, rfl, rfl, rfl, rfl, rfl, rfl⟩)
  | illegal r o => cases h; exact ⟨rfl, rfl, rfl, rfl, rfl, rfl, rfl, rfl, rfl, rfl, rfl, rfl, rfl⟩

/-- A command accepted into Busy is not RESET. -/
theorem Op.instr_ne_reset (op : Op) : op.instr ≠ .reset := by cases op <;> decide

theorem longOp_ne_reset {i : Instr} {op : Op} (h : longOp i = some op) : i ≠ .reset := by
  rintro rfl
  cases h

/-- A command that makes the block Busy leaves it Idle, from any state. -/
theorem exec_op_idle (op : Op) (s t : State) (h : exec op.instr s = .next t) : t.seq = .idle := by
  cases op with
  | wrap => rcases execWrap_cases s with ⟨e, k, -⟩ | ⟨k, -⟩ <;> (cases k.symm.trans h; rfl)
  | unwrap => rcases execUnwrap_cases s with ⟨e, k, -⟩ | ⟨k, -⟩ <;> (cases k.symm.trans h; rfl)
  | modulate =>
    rcases execModulate_cases s with ⟨e, k, -⟩ | ⟨n, d, -, ⟨k, -⟩ | ⟨c, -, k, -⟩⟩ <;> (cases k.symm.trans h; rfl)
  | demodulate =>
    rcases execDemodulate_cases s with ⟨e, k, -⟩ | ⟨v, -, -, -, k⟩
    · cases k.symm.trans h; rfl
    · cases k.symm.trans h
      rcases finishDemod_cases (demodLoop (v.count.toNat + 1) (s.clearDemod.setView v)).1
        (demodLoop (v.count.toNat + 1) (s.clearDemod.setView v)).2 with ⟨e, k, -⟩ | ⟨k, -⟩ <;> rw [k] <;> rfl
  | openView => rcases execOpen_cases s with ⟨e, k, -⟩ | ⟨v, k, -⟩ <;> (cases k.symm.trans h; rfl)
  | seek => rcases execSeek_cases s with ⟨k, -⟩ | ⟨k, -⟩ <;> (cases k.symm.trans h; rfl)
  | read => rcases execRead_cases s with ⟨k, -⟩ | ⟨k, -⟩ <;> (cases k.symm.trans h; rfl)

end Sys2Proof.Machine
end

