-- ==== Sys2Proof/Laws/Envelope.lean ====
section
/-! SUPPORT. The bytes of IN as the envelope rules read them, and the bytes of an envelope
(spec/40_envelope.md R120 to R124). -/

namespace Sys2Proof.Machine

@[simp] theorem State.length_input (s : State) (n : Nat) : (s.input n).length = n := Memory.length_readRange _ _ _

theorem State.byteAt_input (s : State) (n i : Nat) (h : i < n) : byteAt (s.input n) i = s.inNat i := by
  unfold byteAt State.inNat State.input
  rw [List.getD_eq_getElem?_getD, Memory.getElem?_readRange _ _ _ _ h]
  simp

theorem State.slice_input (s : State) (n i j : Nat) (h : j ≤ n) : slice (s.input n) i j = s.inBuf.readRange i (j - i) := by
  unfold slice State.input Memory.readRange
  apply List.ext_getElem?
  intro k
  by_cases hk : k < j - i
  · simp [hk, show i + k < n by omega]
  · simp [hk]

theorem State.sum_readRange (s : State) (a k : Nat) :
    ((s.inBuf.readRange a k).map fun b => b.toNat).sum = s.inSum a k := by
  unfold State.inSum Memory.readRange State.inNat
  rw [List.map_map]
  rfl

/-- The checksum of a span of IN. -/
theorem State.csum_slice_input (s : State) (n i j : Nat) (h : j ≤ n) :
    csum (slice (s.input n) i j) = s.inSum i (j - i) % 2 ^ 24 := by
  unfold csum
  rw [s.slice_input n i j h, s.sum_readRange]

/-- The raw data's checksum with the terminator. -/
theorem State.csum_payload (s : State) (n : Nat) :
    csum (s.input n ++ [Config.terminator]) = (s.inSum 0 n + 255) % 2 ^ 24 := by
  unfold csum State.input
  rw [List.map_append, List.sum_append, s.sum_readRange]
  rfl

/-- The result of a command that writes OUT, byte by byte. -/
theorem State.read_yieldOut (s : State) (r : List Byte) (a : Nat) (h : a < r.length) :
    (s.yieldOut r).outBuf.read a = r.getD a 0 := by
  show (Memory.ofBytes r s.draws).read a = _
  rw [Memory.read_ofBytes, List.getD_eq_getElem?_getD, List.getElem?_eq_getElem h]
  rfl

theorem State.outLen_yieldOut (s : State) (r : List Byte) (h : r.length < 2 ^ 32) :
    (s.yieldOut r).outLen.toNat = r.length := by
  show (BitVec.ofNat 32 r.length).toNat = _
  rw [BitVec.toNat_ofNat, Nat.mod_eq_of_lt h]

theorem length_envelopeOf (d : List Byte) : (envelopeOf d).length = d.length + 6 := by
  unfold envelopeOf be16 be24
  simp only [List.length_append, List.length_cons, List.length_nil]
  omega

/-- The bytes of an envelope, by position. -/
theorem envelopeOf_bytes (d : List Byte) :
    (envelopeOf d).getD 0 0 = BitVec.ofNat 8 ((d.length + 1) / 256) ∧
    (envelopeOf d).getD 1 0 = BitVec.ofNat 8 (d.length + 1) ∧
    (∀ i < d.length, (envelopeOf d).getD (2 + i) 0 = d.getD i 0) ∧
    (envelopeOf d).getD (2 + d.length) 0 = 0xFF ∧
    (envelopeOf d).getD (3 + d.length) 0 = BitVec.ofNat 8 (csum (d ++ [Config.terminator]) / 65536) ∧
    (envelopeOf d).getD (4 + d.length) 0 = BitVec.ofNat 8 (csum (d ++ [Config.terminator]) / 256) ∧
    (envelopeOf d).getD (5 + d.length) 0 = BitVec.ofNat 8 (csum (d ++ [Config.terminator])) := by
  have hl : (d ++ [Config.terminator]).length = d.length + 1 := by simp
  have key : envelopeOf d = BitVec.ofNat 8 ((d.length + 1) / 256) :: BitVec.ofNat 8 (d.length + 1) ::
      (d ++ (Config.terminator :: be24 (csum (d ++ [Config.terminator])))) := by
    unfold envelopeOf be16
    simp only [hl]
    simp
  rw [key]
  refine ⟨rfl, rfl, ?_, ?_, ?_, ?_, ?_⟩
  · intro i hi
    rw [show 2 + i = i + 1 + 1 by omega, List.getD_cons_succ, List.getD_cons_succ, List.getD_append _ _ _ _ hi]
  · rw [show 2 + d.length = d.length + 1 + 1 by omega, List.getD_cons_succ, List.getD_cons_succ,
      List.getD_append_right _ _ _ _ (by omega), show d.length - d.length = 0 by omega]
    rfl
  · rw [show 3 + d.length = d.length + 1 + 1 + 1 by omega, List.getD_cons_succ, List.getD_cons_succ,
      List.getD_append_right _ _ _ _ (by omega), show d.length + 1 - d.length = 1 by omega]
    rfl
  · rw [show 4 + d.length = d.length + 2 + 1 + 1 by omega, List.getD_cons_succ, List.getD_cons_succ,
      List.getD_append_right _ _ _ _ (by omega), show d.length + 2 - d.length = 2 by omega]
    rfl
  · rw [show 5 + d.length = d.length + 3 + 1 + 1 by omega, List.getD_cons_succ, List.getD_cons_succ,
      List.getD_append_right _ _ _ _ (by omega), show d.length + 3 - d.length = 3 by omega]
    rfl

/-- The sum of a span of IN is at most 255 a byte, so a payload's never reaches 2^24 (40_envelope.md R121). -/
theorem State.inSum_le (s : State) (a k : Nat) : s.inSum a k ≤ 255 * k := by
  unfold State.inSum
  induction k with
  | zero => simp
  | succ n ih =>
    rw [List.range_succ, List.map_append, List.sum_append]
    have : s.inNat (a + n) < 256 := (s.inBuf.read (a + n)).isLt
    simp only [List.map_cons, List.map_nil, List.sum_cons, List.sum_nil]
    omega

end Sys2Proof.Machine
end

