-- ==== Sys2Proof/Laws/PerInstr.lean ====
section
/-! SUPPORT. Facts said of every instruction, one lemma per constructor of Instr. -/

namespace Sys2Proof.Laws

/-- The OP field of a word made of two fields is its lower field (spec/30_encoding.md R100). -/
theorem opField_append (r : BitVec 28) (o : BitVec 4) : opField (r ++ o) = o := by
  apply BitVec.eq_of_getLsbD_eq
  intro i hi
  unfold opField
  rw [BitVec.getLsbD_extractLsb']
  refine (congrArg (fun b => decide (i < 4) && b) (BitVec.getLsbD_append (x := r) (y := o) (i := 0 + i))).trans ?_
  simp [hi]

/-- The RSVD field of a word made of two fields is its upper field (R100). -/
theorem rsvdField_append (r : BitVec 28) (o : BitVec 4) : rsvdField (r ++ o) = r := by
  apply BitVec.eq_of_getLsbD_eq
  intro i hi
  unfold rsvdField
  rw [BitVec.getLsbD_extractLsb']
  refine (congrArg (fun b => decide (i < 28) && b) (BitVec.getLsbD_append (x := r) (y := o) (i := 4 + i))).trans ?_
  simp [hi]

namespace EncodedFields

/-- The encoder puts an instruction's opcode in OP and its reserved bits in RSVD (R100). -/
def Statement (i : Instr) : Prop := opField (encode i) = i.opcode ∧ rsvdField (encode i) = i.rsvd

theorem nop : Statement .nop := ⟨opField_append _ _, rsvdField_append _ _⟩
theorem wrap : Statement .wrap := ⟨opField_append _ _, rsvdField_append _ _⟩
theorem unwrap : Statement .unwrap := ⟨opField_append _ _, rsvdField_append _ _⟩
theorem modulate : Statement .modulate := ⟨opField_append _ _, rsvdField_append _ _⟩
theorem demodulate : Statement .demodulate := ⟨opField_append _ _, rsvdField_append _ _⟩
theorem openView : Statement .openView := ⟨opField_append _ _, rsvdField_append _ _⟩
theorem seek : Statement .seek := ⟨opField_append _ _, rsvdField_append _ _⟩
theorem read : Statement .read := ⟨opField_append _ _, rsvdField_append _ _⟩
theorem reserved8 : Statement .reserved8 := ⟨opField_append _ _, rsvdField_append _ _⟩
theorem reserved9 : Statement .reserved9 := ⟨opField_append _ _, rsvdField_append _ _⟩
theorem reservedA : Statement .reservedA := ⟨opField_append _ _, rsvdField_append _ _⟩
theorem reservedB : Statement .reservedB := ⟨opField_append _ _, rsvdField_append _ _⟩
theorem reservedC : Statement .reservedC := ⟨opField_append _ _, rsvdField_append _ _⟩
theorem reservedD : Statement .reservedD := ⟨opField_append _ _, rsvdField_append _ _⟩
theorem reservedE : Statement .reservedE := ⟨opField_append _ _, rsvdField_append _ _⟩
theorem reset : Statement .reset := ⟨opField_append _ _, rsvdField_append _ _⟩
theorem illegal (rsvd : BitVec 28) (op : BitVec 4) : Statement (.illegal rsvd op) :=
  ⟨opField_append _ _, rsvdField_append _ _⟩

end EncodedFields

end Sys2Proof.Laws
end

