-- ==== Sys2Proof/Laws/Sine.lean ====
section
/-! SUPPORT. The real sine behind the rational enclosure (spec/42_modulator.md R183): the 40 places of pi,
the rest of the series, that each enclosure holds its sine and is narrow, and that the comparison is exact. -/

namespace Sys2Proof.Machine

/-- A series whose terms shrink at least geometrically from some place on is near its partial sum there. -/
theorem partial_sum_near {f : Nat → ℝ} {a C r : ℝ} (hf : HasSum f a) (hr : r < 1) (n : Nat)
    (h : ∀ k, |f (n + k)| ≤ C * r ^ k) : |∑ i ∈ Finset.range n, f i - a| ≤ C / (1 - r) := by
  have ht : Filter.Tendsto (fun k => ∑ i ∈ Finset.range (n + k), f i) Filter.atTop (nhds a) := by
    have := (Filter.tendsto_add_atTop_iff_nat n).2 hf.tendsto_sum_nat
    simpa only [Nat.add_comm] using this
  have := dist_le_of_le_geometric_of_tendsto₀ r C hr (fun k => ?_) ht
  · simpa only [Real.dist_eq, Nat.add_zero] using this
  · rw [Real.dist_eq, ← Nat.add_assoc, Finset.sum_range_succ, ← abs_neg]
    simpa using h k

/-- The first `n` terms of the arctangent series. -/
def arctanSum (x : Rat) (n : Nat) : Rat :=
  match n with
  | 0 => 0
  | k + 1 => arctanSum x k + (if k % 2 = 0 then x ^ (2 * k + 1) else -x ^ (2 * k + 1)) / (2 * k + 1 : Nat)

/-- The rational partial sum is the real one. -/
theorem cast_arctanSum (x : Rat) (n : Nat) :
    ((arctanSum x n : Rat) : ℝ) = ∑ i ∈ Finset.range n, (-1) ^ i * (x : ℝ) ^ (2 * i + 1) / ((2 * i + 1 : Nat) : ℝ) := by
  induction n with
  | zero => simp [arctanSum]
  | succ k ih =>
    rw [Finset.sum_range_succ, ← ih, arctanSum]
    rcases Nat.mod_two_eq_zero_or_one k with h | h
    · rw [if_pos h, (Nat.even_iff.2 h).neg_one_pow]
      push_cast
      ring
    · rw [if_neg (by omega), (Nat.odd_iff.2 h).neg_one_pow]
      push_cast
      ring

/-- The partial sum is near the arctangent on [0, 1/2]. -/
theorem arctanSum_near (x : Rat) (h0 : 0 ≤ x) (h1 : x ≤ 1 / 2) (n : Nat) :
    |((arctanSum x n : Rat) : ℝ) - Real.arctan x| ≤ 2 * (x : ℝ) ^ (2 * n + 1) := by
  have h0' : (0 : ℝ) ≤ x := by exact_mod_cast h0
  have h1' : (x : ℝ) ≤ 1 / 2 := by
    have := (Rat.cast_le (K := ℝ)).2 h1
    push_cast at this
    exact this
  have hx : ‖(x : ℝ)‖ < 1 := by
    rw [Real.norm_eq_abs, abs_of_nonneg h0']
    linarith
  have hr : (x : ℝ) ^ 2 ≤ 1 / 4 := by nlinarith
  have := partial_sum_near (Real.hasSum_arctan hx) (C := (x : ℝ) ^ (2 * n + 1)) (r := (x : ℝ) ^ 2) (by linarith) n ?_
  · rw [cast_arctanSum]
    refine this.trans ?_
    have hp : 0 ≤ (x : ℝ) ^ (2 * n + 1) := by positivity
    rw [div_le_iff₀ (by linarith)]
    nlinarith
  · intro k
    rw [abs_div, abs_mul, abs_pow, abs_neg, abs_one, one_pow, one_mul, abs_of_nonneg (by positivity), Nat.abs_cast]
    have : (x : ℝ) ^ (2 * (n + k) + 1) = (x : ℝ) ^ (2 * n + 1) * ((x : ℝ) ^ 2) ^ k := by
      rw [← pow_mul, ← pow_add]
      congr 1
      omega
    rw [this]
    refine div_le_self (by positivity) ?_
    push_cast
    have : (0 : ℝ) ≤ (n : ℝ) + k := by positivity
    linarith

/-- Machin's formula, in rationals. -/
theorem arctanSum_pi :
    |16 * arctanSum (1 / 5) 30 - 4 * arctanSum (1 / 239) 9 - piApprox| ≤ 9 / 10 ^ 41 := by decide +kernel

/-- The 40 decimal places are those of pi. -/
theorem piApprox_near : |(piApprox : ℝ) - Real.pi| ≤ 1 / 10 ^ 40 := by
  have h := Real.four_mul_arctan_inv_5_sub_arctan_inv_239
  have a5 := arctanSum_near (1 / 5) (by norm_num) (by norm_num) 30
  have a239 := arctanSum_near (1 / 239) (by norm_num) (by norm_num) 9
  have hq : |16 * ((arctanSum (1 / 5) 30 : Rat) : ℝ) - 4 * ((arctanSum (1 / 239) 9 : Rat) : ℝ) - (piApprox : ℝ)| ≤
      9 / 10 ^ 41 := by
    have := (Rat.cast_le (K := ℝ)).2 arctanSum_pi
    rw [Rat.cast_abs] at this
    push_cast at this
    exact this
  have e5 : Real.arctan ((1 / 5 : Rat) : ℝ) = Real.arctan 5⁻¹ := by norm_num
  have e239 : Real.arctan ((1 / 239 : Rat) : ℝ) = Real.arctan 239⁻¹ := by norm_num
  rw [e5] at a5
  rw [e239] at a239
  have b5 : 2 * (((1 / 5 : Rat) : ℝ)) ^ (2 * 30 + 1) ≤ 5 / 10 ^ 43 := by norm_num
  have b239 : 2 * (((1 / 239 : Rat) : ℝ)) ^ (2 * 9 + 1) ≤ 1 / 10 ^ 43 := by norm_num
  rw [abs_le] at *
  constructor <;> norm_num at * <;> linarith [a5.1, a5.2, a239.1, a239.2, hq.1, hq.2, h]

/-- The nested form is the partial sum of the sine series. -/
theorem cast_sineSeries (y : Rat) (terms k : Nat) :
    ((sineSeries y terms k : Rat) : ℝ) / (k.factorial : ℝ) =
      ∑ j ∈ Finset.range (terms + 1), (-1) ^ j * (y : ℝ) ^ j / ((k + 2 * j).factorial : ℝ) := by
  induction terms generalizing k with
  | zero => simp [sineSeries]
  | succ t ih =>
    rw [Finset.sum_range_succ']
    have hs : ∀ j, (-1 : ℝ) ^ (j + 1) * (y : ℝ) ^ (j + 1) / ((k + 2 * (j + 1)).factorial : ℝ) =
        -(y : ℝ) * ((-1) ^ j * (y : ℝ) ^ j / ((k + 2 + 2 * j).factorial : ℝ)) := by
      intro j
      rw [show k + 2 * (j + 1) = k + 2 + 2 * j from by omega]
      ring
    rw [Finset.sum_congr rfl (fun j _ => hs j), ← Finset.mul_sum, ← ih (k + 2), sineSeries]
    have hf : ((k + 2).factorial : ℝ) = (k + 2) * (k + 1) * (k.factorial : ℝ) := by
      rw [Nat.factorial_succ, Nat.factorial_succ]
      push_cast
      ring
    have hk : (k.factorial : ℝ) ≠ 0 := by exact_mod_cast Nat.factorial_ne_zero k
    rw [hf]
    push_cast
    field_simp
    ring_nf

/-- The polynomial is the first 21 terms of the sine series. -/
theorem cast_sinePolynomial (x : Rat) :
    ((sinePolynomial x : Rat) : ℝ) =
      ∑ j ∈ Finset.range 21, (-1) ^ j * (x : ℝ) ^ (2 * j + 1) / ((2 * j + 1).factorial : ℝ) := by
  have h := cast_sineSeries (x * x) 20 1
  rw [Nat.factorial_one, Nat.cast_one, div_one] at h
  rw [sinePolynomial, Rat.cast_mul, h, Finset.mul_sum]
  refine Finset.sum_congr rfl fun j _ => ?_
  rw [Nat.add_comm 1 (2 * j)]
  push_cast
  ring

/-- The polynomial is the sine to 43 places on the first quarter turn. -/
theorem sinePolynomial_near (x : Rat) (h0 : 0 ≤ x) (h1 : x ≤ 8 / 5) :
    |((sinePolynomial x : Rat) : ℝ) - Real.sin x| ≤ 1 / 10 ^ 43 := by
  have h0' : (0 : ℝ) ≤ x := by exact_mod_cast h0
  have h1' : (x : ℝ) ≤ 8 / 5 := by
    have := (Rat.cast_le (K := ℝ)).2 h1
    push_cast at this
    exact this
  rw [cast_sinePolynomial]
  have key := partial_sum_near (Real.hasSum_sin x) (C := (8 / 5) ^ 43 / (Nat.factorial 43 : ℝ)) (r := 1 / 2)
    (by norm_num) 21 ?_
  · refine key.trans ?_
    rw [show (Nat.factorial 43) = 60415263063373835637355132068513997507264512000000000 from by decide +kernel]
    norm_num
  · intro k
    rw [abs_div, abs_mul, abs_pow, abs_neg, abs_one, one_pow, one_mul, abs_of_nonneg (by positivity), Nat.abs_cast]
    induction k with
    | zero =>
      rw [pow_zero, mul_one]
      exact div_le_div_of_nonneg_right (pow_le_pow_left₀ h0' h1' 43) (by positivity)
    | succ k ih =>
      have hf : ((2 * (21 + (k + 1)) + 1).factorial : ℝ) =
          (2 * (21 + k) + 3) * (2 * (21 + k) + 2) * ((2 * (21 + k) + 1).factorial : ℝ) := by
        rw [show 2 * (21 + (k + 1)) + 1 = (2 * (21 + k) + 1) + 1 + 1 from by omega, Nat.factorial_succ,
          Nat.factorial_succ]
        push_cast
        ring
      have hp : (x : ℝ) ^ (2 * (21 + (k + 1)) + 1) = (x : ℝ) ^ 2 * (x : ℝ) ^ (2 * (21 + k) + 1) := by
        rw [← pow_add]
        congr 1
        omega
      have hpos : (0 : ℝ) < ((2 * (21 + k) + 1).factorial : ℝ) := by exact_mod_cast Nat.factorial_pos _
      rw [hp, hf, show ((1 : ℝ) / 2) ^ (k + 1) = 1 / 2 * (1 / 2) ^ k from pow_succ' _ _, mul_div_mul_comm, mul_left_comm]
      refine mul_le_mul ?_ ih (by positivity) (by norm_num)
      rw [div_le_iff₀ (by positivity)]
      have : (0 : ℝ) ≤ k := by positivity
      nlinarith

/-- A rational enclosure contains a real number. -/
def Enclosure.Has (e : Enclosure) (x : ℝ) : Prop := (e.lo : ℝ) ≤ x ∧ x ≤ (e.hi : ℝ)

theorem Enclosure.has_exact {v : Rat} {x : ℝ} (h : (v : ℝ) = x) : (Enclosure.exact v).Has x :=
  ⟨h.le, h.ge⟩

theorem Enclosure.has_neg {e : Enclosure} {x : ℝ} (h : e.Has x) : e.neg.Has (-x) := by
  constructor <;> simp only [Enclosure.neg, Rat.cast_neg] <;> linarith [h.1, h.2]

theorem Enclosure.has_clamp {e : Enclosure} {x : ℝ} (h : e.Has x) (lo hi : Rat) :
    (e.clamp lo hi).Has (min (hi : ℝ) (max (lo : ℝ) x)) := by
  constructor <;> simp only [Enclosure.clamp, Machine.clamp, Rat.cast_min, Rat.cast_max]
  · exact min_le_min_left _ (max_le_max_left _ h.1)
  · exact min_le_min_left _ (max_le_max_left _ h.2)

/-- The quarter turn's enclosure holds the sine. -/
theorem sineQuarter_has (r n : Nat) (hn : 0 < n) (hr : r ≤ n) :
    (sineQuarter r n).Has (Real.sin (Real.pi / 2 * (r / n))) := by
  have hn' : (0 : ℝ) < n := by exact_mod_cast hn
  have hr' : (r : ℝ) ≤ n := by exact_mod_cast hr
  have hr0 : (0 : ℝ) ≤ r := by positivity
  unfold sineQuarter
  split
  · next h => exact Enclosure.has_exact (by simp [h])
  split
  · next h => exact Enclosure.has_exact (by rw [h, div_self hn'.ne', mul_one, Real.sin_pi_div_two, Rat.cast_one])
  split
  · next h =>
    have h' : (n : ℝ) = 3 * r := by exact_mod_cast h.symm
    have : Real.pi / 2 * ((r : ℝ) / n) = Real.pi / 6 := by
      rw [h'] at hn' ⊢
      have : (r : ℝ) ≠ 0 := by intro h0; simp [h0] at hn'
      field_simp
      norm_num
    refine Enclosure.has_exact ?_
    rw [this, Real.sin_pi_div_six]
    norm_num [Rat.mkRat_eq_div]
  · have hd : ((piApprox * mkRat r (2 * n) : Rat) : ℝ) = (piApprox : ℝ) / 2 * (r / n) := by
      rw [Rat.mkRat_eq_div]
      push_cast
      field_simp
    have hq0 : (0 : ℝ) ≤ (r : ℝ) / n := by positivity
    have hq1 : (r : ℝ) / n ≤ 1 := (div_le_one hn').2 hr'
    have hpa : (piApprox : ℝ) ≤ 16 / 5 := by
      have : piApprox ≤ 16 / 5 := by decide +kernel
      have := (Rat.cast_le (K := ℝ)).2 this
      push_cast at this
      exact this
    have hp0 : (0 : ℝ) ≤ (piApprox : ℝ) := by
      have : 0 ≤ piApprox := by decide +kernel
      exact_mod_cast this
    have x0 : 0 ≤ piApprox * mkRat r (2 * n) := by
      have : (0 : ℝ) ≤ ((piApprox * mkRat r (2 * n) : Rat) : ℝ) := by rw [hd]; positivity
      exact_mod_cast this
    have x1 : piApprox * mkRat r (2 * n) ≤ 8 / 5 := by
      rw [← Rat.cast_le (K := ℝ), hd]
      push_cast
      nlinarith
    have hs := sinePolynomial_near _ x0 x1
    rw [hd] at hs
    have hc : |Real.sin ((piApprox : ℝ) / 2 * (r / n)) - Real.sin (Real.pi / 2 * (r / n))| ≤ 1 / 10 ^ 40 / 2 := by
      refine (Real.abs_sin_sub_sin_le _ _).trans ?_
      rw [show (piApprox : ℝ) / 2 * (r / n) - Real.pi / 2 * (r / n) = ((piApprox : ℝ) - Real.pi) / 2 * (r / n) from by ring,
        abs_mul, abs_of_nonneg hq0, abs_div, abs_two]
      have := piApprox_near
      have h0 : 0 ≤ |(piApprox : ℝ) - Real.pi| / 2 := by positivity
      nlinarith
    have hrad : ((sineRadius : Rat) : ℝ) = 1 / (2 * 10 ^ 39) := by
      rw [sineRadius, Rat.mkRat_eq_div]
      push_cast
      norm_num
    rw [abs_le] at hs hc
    constructor <;> dsimp only <;> push_cast <;> rw [hrad] <;> norm_num at hs hc ⊢ <;>
      linarith [hs.1, hs.2, hc.1, hc.2]

/-- The quarter turn's enclosure is narrow. -/
theorem sineQuarter_width (r n : Nat) :
    (sineQuarter r n).lo ≤ (sineQuarter r n).hi ∧ (sineQuarter r n).hi - (sineQuarter r n).lo ≤ 1 / 10 ^ 39 := by
  have h : sineRadius = 1 / (2 * 10 ^ 39) := by rw [sineRadius, Rat.mkRat_eq_div]; norm_num
  unfold sineQuarter
  split
  · norm_num [Enclosure.exact]
  split
  · norm_num [Enclosure.exact]
  split
  · norm_num [Enclosure.exact]
  · dsimp only
    rw [h]
    constructor <;> norm_num
    linarith

/-- The whole turn's enclosure holds the sine. -/
theorem sineTurn_has (k n : Nat) (hn : 0 < n) : (sineTurn k n).Has (Real.sin (2 * Real.pi * (k / n))) := by
  have hn' : (0 : ℝ) < n := by exact_mod_cast hn
  have hlt : 4 * k % n < n := Nat.mod_lt _ hn
  have hk := Nat.div_add_mod (4 * k) n
  have hq := Nat.div_add_mod (4 * k / n) 4
  set r := 4 * k % n with hr
  set q := 4 * k / n with hqd
  have hang : 2 * Real.pi * ((k : ℝ) / n) = Real.pi / 2 * ((r : ℝ) / n) + (q % 4 : Nat) * (Real.pi / 2) +
      (q / 4 : Nat) * (2 * Real.pi) := by
    have h1 : (n : ℝ) * (4 * (q / 4 : Nat) + (q % 4 : Nat)) + r = 4 * k := by exact_mod_cast hq.symm ▸ hk
    have : (k : ℝ) = (n * (4 * (q / 4 : Nat) + (q % 4 : Nat)) + r) / 4 := by linarith
    rw [this]
    field_simp
    ring
  rw [hang, Real.sin_add_nat_mul_two_pi]
  have back : ((n - r : Nat) : ℝ) / n = 1 - (r : ℝ) / n := by
    rw [Nat.cast_sub hlt.le, sub_div, div_self hn'.ne']
  have hup := sineQuarter_has r n hn hlt.le
  have hdown := sineQuarter_has (n - r) n hn (Nat.sub_le _ _)
  rw [back, mul_sub, mul_one, Real.sin_pi_div_two_sub] at hdown
  unfold sineTurn
  rw [← hr, ← hqd]
  have h4 : q % 4 < 4 := Nat.mod_lt _ (by omega)
  rcases (by omega : q % 4 = 0 ∨ q % 4 = 1 ∨ q % 4 = 2 ∨ q % 4 = 3) with h | h | h | h <;> rw [h] <;> dsimp only
  · simpa using hup
  · simpa [Real.sin_add_pi_div_two] using hdown
  · have := Enclosure.has_neg hup
    rw [← Real.sin_add_pi] at this
    rwa [show ((2 : ℕ) : ℝ) * (Real.pi / 2) = Real.pi from by rw [Nat.cast_ofNat]; ring]
  · have := Enclosure.has_neg hdown
    rw [← Real.sin_add_pi_div_two, ← Real.sin_add_pi] at this
    rwa [show ((3 : ℕ) : ℝ) * (Real.pi / 2) = Real.pi / 2 + Real.pi from by rw [Nat.cast_ofNat]; ring, ← add_assoc]

/-- The whole turn's enclosure is narrow. -/
theorem sineTurn_width (k n : Nat) :
    (sineTurn k n).lo ≤ (sineTurn k n).hi ∧ (sineTurn k n).hi - (sineTurn k n).lo ≤ 1 / 10 ^ 39 := by
  have hn : ∀ e : Enclosure, e.lo ≤ e.hi ∧ e.hi - e.lo ≤ 1 / 10 ^ 39 →
      e.neg.lo ≤ e.neg.hi ∧ e.neg.hi - e.neg.lo ≤ 1 / 10 ^ 39 := by
    rintro e ⟨h1, h2⟩
    constructor <;> simp only [Enclosure.neg] <;> linarith
  unfold sineTurn
  dsimp only
  split
  · exact sineQuarter_width _ _
  · exact sineQuarter_width _ _
  · exact hn _ (sineQuarter_width _ _)
  · exact hn _ (sineQuarter_width _ _)

/-- What the count of half turns is, for `x = cos(phi)`. -/
theorem halfTurns_spec (x : Rat) (phi : ℝ) (h0 : 0 < phi) (h1 : phi < Real.pi) (hx : (x : ℝ) = Real.cos phi) (m : Nat) :
    ((halfTurns x m).1 : ℝ) * Real.pi ≤ m * phi ∧ m * phi < ((halfTurns x m).1 + 1) * Real.pi ∧
    ((halfTurns x m).2.1 : ℝ) * Real.sin phi = Real.sin (m * phi) ∧
    ((halfTurns x m).2.2 : ℝ) * Real.sin phi = Real.sin ((m + 1) * phi) := by
  have hpi := Real.pi_pos
  have hs : 0 < Real.sin phi := Real.sin_pos_of_pos_of_lt_pi h0 h1
  induction m with
  | zero => simp [halfTurns, hpi]
  | succ m ih =>
    obtain ⟨lo, hi, now, after⟩ := ih
    rw [halfTurns]
    rcases hht : halfTurns x m with ⟨count, u, v⟩
    rw [hht] at lo hi now after
    dsimp only at lo hi now after ⊢
    have hnext : ((2 * x * v - u : Rat) : ℝ) * Real.sin phi = Real.sin (((m + 1 : Nat) + 1) * phi) := by
      have e1 : Real.sin (((m + 1 : Nat) + 1) * phi) = Real.sin ((m + 1) * phi) * Real.cos phi +
          Real.cos ((m + 1) * phi) * Real.sin phi := by
        rw [← Real.sin_add]; push_cast; ring_nf
      have e2 : Real.sin (m * phi) = Real.sin ((m + 1) * phi) * Real.cos phi -
          Real.cos ((m + 1) * phi) * Real.sin phi := by
        rw [← Real.sin_sub]; ring_nf
      push_cast
      push_cast at e1
      rw [e1, sub_mul, now, e2, hx]
      linear_combination (2 * Real.cos phi) * after
    have hd0 : 0 < ((m : ℝ) + 1) * phi - count * Real.pi := by nlinarith
    have hd2 : ((m : ℝ) + 1) * phi - count * Real.pi < 2 * Real.pi := by nlinarith
    have hsin : Real.sin ((m + 1) * phi) = (-1) ^ count * Real.sin (((m : ℝ) + 1) * phi - count * Real.pi) := by
      rw [Real.sin_sub_nat_mul_pi, ← mul_assoc, ← mul_pow]
      norm_num
    have hstays : (if count % 2 = 0 then 0 < v else v < 0) ↔
        0 < Real.sin (((m : ℝ) + 1) * phi - count * Real.pi) := by
      rcases Nat.mod_two_eq_zero_or_one count with hc | hc
      · rw [if_pos hc]
        rw [(Nat.even_iff.2 hc).neg_one_pow, one_mul] at hsin
        rw [← hsin, ← after, ← Rat.cast_pos (K := ℝ)]
        exact (mul_pos_iff_of_pos_right hs).symm
      · rw [if_neg (by omega)]
        rw [(Nat.odd_iff.2 hc).neg_one_pow, neg_one_mul] at hsin
        have : Real.sin (((m : ℝ) + 1) * phi - count * Real.pi) = (-v : ℝ) * Real.sin phi := by linarith
        rw [this, ← Rat.cast_lt_zero (K := ℝ)]
        constructor
        · intro h; exact mul_pos (by linarith) hs
        · intro h; linarith [(mul_pos_iff_of_pos_right hs).1 h]
    refine ⟨?_, ?_, by push_cast; exact after, hnext⟩ <;> push_cast
    · by_cases h : if count % 2 = 0 then 0 < v else v < 0
      · rw [if_pos h]; linarith
      · rw [if_neg h]
        have : Real.pi ≤ ((m : ℝ) + 1) * phi - count * Real.pi := by
          by_contra hlt
          exact h (hstays.2 (Real.sin_pos_of_pos_of_lt_pi hd0 (not_le.1 hlt)))
        linarith
    · by_cases h : if count % 2 = 0 then 0 < v else v < 0
      · rw [if_pos h]
        have : ((m : ℝ) + 1) * phi - count * Real.pi < Real.pi := by
          by_contra hge
          have hp := hstays.1 h
          have : 0 ≤ Real.sin (((m : ℝ) + 1) * phi - count * Real.pi - Real.pi) :=
            Real.sin_nonneg_of_nonneg_of_le_pi (by linarith [not_lt.1 hge]) (by linarith)
          rw [Real.sin_sub_pi] at this
          linarith
        linarith
      · rw [if_neg h]; linarith

/-- At a cosine of 1 the angle is 0 and no half turn is completed. -/
theorem halfTurns_one (m : Nat) : halfTurns 1 m = (0, (m : Rat), (m : Rat) + 1) := by
  induction m with
  | zero => simp [halfTurns]
  | succ m ih =>
    rw [halfTurns, ih]
    have : (0 : Rat) < (m : Rat) + 1 := by positivity
    simp [this]
    ring

/-- The sine is the cosine of the distance from the peak. -/
theorem sin_eq_cos_peakDistance (k n : Nat) (hn : 0 < n) :
    Real.sin (2 * Real.pi * (k / n)) = Real.cos (Real.pi * (peakDistance k n) / (2 * n)) ∧ peakDistance k n ≤ 2 * n := by
  have hn' : (0 : ℝ) < n := by exact_mod_cast hn
  unfold peakDistance
  dsimp only
  set t := (4 * k + 3 * n) % (4 * n) with ht
  have htl : t < 4 * n := Nat.mod_lt _ (by omega)
  have hdm := Nat.div_add_mod (4 * k + 3 * n) (4 * n)
  set q := (4 * k + 3 * n) / (4 * n) with hq
  rw [← ht] at hdm
  refine ⟨?_, by omega⟩
  have hcos : Real.sin (2 * Real.pi * (k / n)) = Real.cos (Real.pi * t / (2 * n)) := by
    have : (4 * (k : ℝ) + 3 * n) = 4 * n * q + t := by exact_mod_cast hdm.symm
    have e : Real.pi * (t : ℝ) / (2 * n) = 2 * Real.pi * (k / n) - Real.pi / 2 + 2 * Real.pi - q * (2 * Real.pi) := by
      have ht' : (t : ℝ) = 4 * k + 3 * n - 4 * n * q := by linarith
      rw [ht']
      field_simp
      ring
    rw [e, Real.cos_sub_nat_mul_two_pi, Real.cos_add_two_pi, Real.cos_sub_pi_div_two]
  rw [hcos]
  rcases le_total t (4 * n - t) with h | h
  · rw [min_eq_left h]
  · rw [min_eq_right h, Nat.cast_sub htl.le]
    have e : Real.pi * (((4 * n : Nat) : ℝ) - t) / (2 * n) = 2 * Real.pi - Real.pi * t / (2 * n) := by
      push_cast
      field_simp
      ring
    rw [e, Real.cos_two_pi_sub]

/-- The comparison is exact, for every N. -/
theorem sineAtLeast_iff (k n : Nat) (hn : 0 < n) (x : Rat) :
    sineAtLeast k n x = true ↔ (x : ℝ) ≤ Real.sin (2 * Real.pi * (k / n)) := by
  have hn' : (0 : ℝ) < n := by exact_mod_cast hn
  have hpi := Real.pi_pos
  unfold sineAtLeast
  split
  · next h =>
    have : (x : ℝ) ≤ -1 := by exact_mod_cast h
    simp only [true_iff]
    linarith [Real.neg_one_le_sin (2 * Real.pi * ((k : ℝ) / n))]
  split
  · next h =>
    have : (1 : ℝ) < x := by exact_mod_cast h
    simp only [Bool.false_eq_true, false_iff, not_le]
    linarith [Real.sin_le_one (2 * Real.pi * ((k : ℝ) / n))]
  next hl hu =>
  obtain ⟨hsin, hd⟩ := sin_eq_cos_peakDistance k n hn
  rw [hsin, decide_eq_true_iff]
  have hd' : (peakDistance k n : ℝ) ≤ 2 * n := by exact_mod_cast hd
  have hd0 : (0 : ℝ) ≤ peakDistance k n := by positivity
  have ha0 : 0 ≤ Real.pi * (peakDistance k n) / (2 * n) := by positivity
  have ha1 : Real.pi * (peakDistance k n) / (2 * n) ≤ Real.pi := by
    rw [div_le_iff₀ (by positivity)]
    nlinarith
  have xl : (-1 : ℝ) < x := by exact_mod_cast not_le.1 hl
  have xu : (x : ℝ) ≤ 1 := by exact_mod_cast not_lt.1 hu
  have hcos : Real.cos (Real.arccos x) = x := Real.cos_arccos xl.le xu
  have hiff : (x : ℝ) ≤ Real.cos (Real.pi * (peakDistance k n) / (2 * n)) ↔
      Real.pi * (peakDistance k n) / (2 * n) ≤ Real.arccos x := by
    rw [← hcos]
    rw [Real.strictAntiOn_cos.le_iff_ge ⟨Real.arccos_nonneg _, Real.arccos_le_pi _⟩ ⟨ha0, ha1⟩, hcos]
  rw [hiff, div_le_iff₀ (by positivity)]
  rcases eq_or_lt_of_le xu with h1 | h1
  · have hx1 : x = 1 := by exact_mod_cast h1
    subst hx1
    rw [halfTurns_one, Rat.cast_one, Real.arccos_one, zero_mul]
    constructor
    · intro h
      have : peakDistance k n = 0 := by simpa using h
      simp [this]
    · intro h
      have : (peakDistance k n : ℝ) = 0 := by nlinarith
      have : peakDistance k n = 0 := by exact_mod_cast this
      simp [this]
  · have p0 : 0 < Real.arccos x := Real.arccos_pos.2 h1
    have p1 : Real.arccos x < Real.pi := by
      rcases lt_or_eq_of_le (Real.arccos_le_pi (x : ℝ)) with h | h
      · exact h
      · rw [h, Real.cos_pi] at hcos
        linarith
    obtain ⟨lo, hi, -, -⟩ := halfTurns_spec x _ p0 p1 hcos.symm (2 * n)
    push_cast at lo hi
    constructor
    · intro h
      have : (peakDistance k n : ℝ) ≤ ((halfTurns x (2 * n)).1 : ℝ) := by exact_mod_cast h
      nlinarith
    · intro h
      have : (peakDistance k n : ℝ) < ((halfTurns x (2 * n)).1 : ℝ) + 1 := by
        by_contra hge
        nlinarith [not_lt.1 hge]
      have : peakDistance k n < (halfTurns x (2 * n)).1 + 1 := by exact_mod_cast this
      omega

/-- The other comparison is exact too. -/
theorem sineAtMost_iff (k n : Nat) (hn : 0 < n) (x : Rat) :
    sineAtMost k n x = true ↔ Real.sin (2 * Real.pi * (k / n)) ≤ x := by
  have hn' : (n : ℝ) ≠ 0 := by exact_mod_cast hn.ne'
  unfold sineAtMost
  rw [sineAtLeast_iff _ _ (by omega)]
  have : 2 * Real.pi * (((2 * k + n : Nat) : ℝ) / ((2 * n : Nat) : ℝ)) = 2 * Real.pi * (k / n) + Real.pi := by
    push_cast
    field_simp
  rw [this, Real.sin_add_pi]
  push_cast
  constructor <;> intro h <;> linarith

end Sys2Proof.Machine
end

