-- ==== Sys2Proof/Tests/Slice0.lean ====
section
/-! SUPPORT. Small tests, each about one step or one command word, with the expected result and its source in spec/;
and for every statement with hypotheses a witness that they can be met, clause by clause, at the boundaries. -/

namespace Sys2Proof.Tests

open Sys2Proof.Machine

set_option Elab.async false

/-! ### Helpers -/

/-- The clamp levels of spec/95_test_vectors.md with capacities of a few hundred bytes. -/
def smallPar : Params := ⟨256, 240, mkRat (-3) 5, mkRat 1 2⟩

/-- The largest capacities. -/
def bigPar : Params := ⟨2 ^ 24, 2 ^ 24, mkRat (-3) 5, mkRat 1 2⟩

/-- The reset state with these parameters and this IN_LEN. -/
def sized (par : Params) (n : Nat) : State := { State.reset with par := par, inLen := BitVec.ofNat 32 n }

/-- The script's LOADIN, from reset (spec/30_encoding.md R107). -/
def load (bs : List Byte) : State := { sized smallPar bs.length with inBuf := Memory.ofBytes bs 0 }

/-- The state of an outcome. -/
def after (o : Host.Outcome State Fault Refusal) : State :=
  match o with
  | .next t => t
  | .fault _ => State.reset
  | .refused _ => State.reset

/-- The result bytes. -/
def out (t : State) : List Byte := t.outBuf.readRange 0 t.outLen.toNat

/-- The 52-byte container of spec/95_test_vectors.md section 6. -/
def riff52 : List Byte :=
  [0x52, 0x49, 0x46, 0x46, 0x2C, 0, 0, 0, 0x57, 0x41, 0x56, 0x45, 0x66, 0x6D, 0x74, 0x20, 0x10, 0, 0, 0, 1, 0, 1, 0] ++
  [0x20, 0x4E, 0, 0, 0x20, 0x4E, 0, 0, 1, 0, 8, 0, 0x64, 0x61, 0x74, 0x61, 8, 0, 0, 0] ++
  [0x80, 0xC8, 0x80, 0x32, 0x80, 0xC8, 0x80, 0x32]

/-- The envelope of the empty string (spec/95_test_vectors.md E1). -/
def emptyEnvelope : List Byte := [0x00, 0x01, 0xFF, 0x00, 0x00, 0xFF]

/-- The envelope of 01 02 03 (spec/95_test_vectors.md E2). -/
def envelope123 : List Byte := [0x00, 0x04, 0x01, 0x02, 0x03, 0xFF, 0x00, 0x01, 0x05]

/-- `cyc(l)` of spec/95_test_vectors.md section 3. -/
def cyc (l : Nat) : List Int :=
  [0xC8] ++ List.replicate ((l - 2) / 2) 0x80 ++ [0x32] ++ List.replicate (l - 2 - (l - 2) / 2) 0x80

/-- A container whose cycles have these lengths. -/
def cycles (rate : Nat) (ls : List Nat) : List Byte := container rate .eight (ls.flatMap cyc ++ [0xC8])

/-- The envelope as a container: rate 3 at baud 1, where two samples are a high cycle and three a low one
(spec/43_demodulator.md R220). -/
def tape : List Byte :=
  cycles 3 ([2] ++ emptyEnvelope.flatMap fun b => [3] ++ (byteCycles b).map fun low => if low then 3 else 2)

/-- DEMODULATE at baud 1. -/
def atBaud1 (bs : List Byte) : State := { load bs with baudRate := 1 }

/-- A block Busy with an op. -/
def busyWith (op : Op) : State := (load riff52).accept op

/-- A view of eight 8-bit samples with the cursor at `p`. -/
def viewing (p : Nat) : State :=
  { load riff52 with view := .opened 44 .eight 8 20000, smpPos := BitVec.ofNat 32 p }

/-- A view of four 16-bit samples (spec/95_test_vectors.md CR16). -/
def viewing16 : State := { load riff52 with view := .opened 44 .sixteen 4 20000 }

/-! ### Well-formedness and decoding -/

theorem test_illegal_without_reserved_bits_is_ill_formed : (Instr.illegal 0 3).wf = false := by decide

theorem test_illegal_with_reserved_bits_is_well_formed : (Instr.illegal 0x8000000 0xF).wf = true := by decide

/-- spec/30_encoding.md R101 and R102: OP in bits 3 down to 0, the rest 0. -/
theorem test_decode_every_opcode :
    decode 0b0000 = .nop ∧ decode 0b0001 = .wrap ∧ decode 0b0010 = .unwrap ∧ decode 0b0011 = .modulate ∧
    decode 0b0100 = .demodulate ∧ decode 0b0101 = .openView ∧ decode 0b0110 = .seek ∧ decode 0b0111 = .read ∧
    decode 0b1000 = .reserved8 ∧ decode 0b1001 = .reserved9 ∧ decode 0b1010 = .reservedA ∧
    decode 0b1011 = .reservedB ∧ decode 0b1100 = .reservedC ∧ decode 0b1101 = .reservedD ∧
    decode 0b1110 = .reservedE ∧ decode 0b1111 = .reset := by decide

/-- spec/30_encoding.md R102, R103: one reserved bit makes any word illegal; RESET's bits among them. -/
theorem test_decode_reserved_bits :
    decode 0b0000_0000_0000_0000_0000_0000_0001_1111 = .illegal 1 0xF ∧
    decode 0b1000_0000_0000_0000_0000_0000_0000_0000 = .illegal 0x8000000 0 := by decide

/-- spec/30_encoding.md R105: a command word is 32 bits. -/
theorem test_decode_too_wide : decodeTableWord 33 3 = none ∧ decodeTableWord 32 3 = some .modulate := by decide

theorem test_encode_words : encode .modulate = 0x00000003 ∧ encode .reset = 0x0000000F ∧
    encode (.illegal 1 3) = 0x00000013 := by decide

/-- What withFetchWord places is what the next step runs. -/
theorem test_fetched_word_runs : (after (step (State.reset.withFetchWord 32 0x0000000A))).statusWord = 0x00001706 := by
  decide +kernel

/-! ### One small test or two per command -/

/-- spec/44_control.md R250; spec/95_test_vectors.md P6. -/
theorem test_nop : (after (exec .nop { load [] with err := true, errCode := 7, errDetail := 1 })).statusWord = 2 := by
  decide +kernel

/-- spec/95_test_vectors.md E2. -/
theorem test_wrap : out (after (exec .wrap (load [1, 2, 3]))) = envelope123 := by decide +kernel

/-- spec/95_test_vectors.md E5: 65535 bytes. -/
theorem test_wrap_too_long : (after (exec .wrap (sized bigPar 65535))).statusWord = 0x3306 := by decide +kernel

/-- spec/95_test_vectors.md E6. -/
theorem test_unwrap : out (after (exec .unwrap (load envelope123))) = [1, 2, 3] := by decide +kernel

/-- spec/95_test_vectors.md E15: the length check comes first. -/
theorem test_unwrap_order :
    (after (exec .unwrap (load [0, 4, 1, 2, 3, 0xFF, 0, 1, 6, 0]))).statusWord = 0x1306 := by decide +kernel

/-- spec/95_test_vectors.md section 5.7: N = 1, no leader, one byte: twelve codes 80. -/
theorem test_modulate :
    (out (after (exec .modulate { load [0x5A] with sampleRate := 2500, syncMs := 0 }))).drop 44 =
      List.replicate 12 0x80 := by decide +kernel

/-- sin(2*pi/12) is 1/2 exactly, sin(2*pi*7/12) is -1/2, and sin(2*pi/8), the h of spec/42_modulator.md R184, lies
between 0.7071067811 and 0.7071067812. -/
theorem test_exact_sine :
    sineAtLeast 1 12 (1 / 2) = true ∧ sineAtMost 1 12 (1 / 2) = true ∧ sineAtLeast 7 12 (-1 / 2) = true ∧
    sineAtLeast 7 12 (-499999 / 1000000) = false ∧ sineAtLeast 1 8 (7071067811 / 10000000000) = true ∧
    sineAtLeast 1 8 (7071067812 / 10000000000) = false := by decide +kernel

/-- spec/95_test_vectors.md section 5: the default leader is 80 BF 80 33 repeated. -/
theorem test_modulate_tone :
    ((out (after (exec .modulate { load [] with syncMs := 1 }))).drop 44).take 8 =
      [0x80, 0xBF, 0x80, 0x33, 0x80, 0xBF, 0x80, 0x33] := by decide +kernel

/-- spec/43_demodulator.md R230, by hand: the envelope of the empty string comes back. -/
theorem test_demodulate : out (after (exec .demodulate (atBaud1 tape))) = emptyEnvelope := by decide +kernel

/-- spec/95_test_vectors.md P5. -/
theorem test_demodulate_no_data :
    (after (exec .demodulate (load riff52))).statusWord = 0x4306 ∧
    (after (exec .demodulate (load riff52))).cycStart = 1 ∧ (after (exec .demodulate (load riff52))).cycLen = 4 := by
  decide +kernel

/-- spec/95_test_vectors.md CR1. -/
theorem test_open : (after (exec .openView (load riff52))).view = .opened 44 .eight 8 20000 := by decide +kernel

/-- spec/95_test_vectors.md CR21: a data chunk of size 0 in front of eight stray bytes. -/
theorem test_open_overrun : (after (exec .openView (load (riff52.set 40 0)))).statusWord = 0x3106 := by decide +kernel

/-- spec/95_test_vectors.md section 7, step 5. -/
theorem test_seek : (after (exec .seek { viewing 4 with arg := 7 })).smpPos = 7 := by decide +kernel

/-- spec/95_test_vectors.md section 7, step 8. -/
theorem test_seek_past_end :
    (after (exec .seek { viewing 8 with arg := 8 })).statusWord = 0x1606 ∧
    (after (exec .seek { viewing 8 with arg := 8 })).smpPos = 8 := by decide +kernel

/-- spec/95_test_vectors.md section 7: the 16-bit view, sign-extended. -/
theorem test_read_sixteen : (after (exec .read viewing16)).smpRaw = 0xFFFFC880 := by decide +kernel

/-- spec/95_test_vectors.md section 7, step 7. -/
theorem test_read_past_end : (after (exec .read (viewing 8))).statusWord = 0x2606 := by decide +kernel

/-- spec/95_test_vectors.md section 8.1. -/
theorem test_reserved :
    (after (exec .reserved8 (load []))).statusWord = 0x1706 ∧ (after (exec .reserved9 (load []))).statusWord = 0x1706 ∧
    (after (exec .reservedA (load []))).statusWord = 0x1706 ∧ (after (exec .reservedB (load []))).statusWord = 0x1706 ∧
    (after (exec .reservedC (load []))).statusWord = 0x1706 ∧ (after (exec .reservedD (load []))).statusWord = 0x1706 ∧
    (after (exec .reservedE (load []))).statusWord = 0x1706 := by decide +kernel

/-- spec/95_test_vectors.md section 8.1. -/
theorem test_illegal : (after (exec (.illegal 1 0xF) (load []))).statusWord = 0x2706 := by decide +kernel

/-- spec/95_test_vectors.md P6 and section 8.2. -/
theorem test_reset :
    (after (hostWrite .w32 0x04 0xF { busyWith .modulate with sampleRate := 44100 })).sampleRate = 20000 ∧
    (after (hostWrite .w32 0x04 0xF (busyWith .modulate))).isBusy = false := by decide +kernel

/-- spec/70_reset_and_hazards.md R296: while Busy a write to the IN window sets REJ, also a 16-bit one and one beyond
the capacity, and the byte keeps its value. -/
theorem test_busy_rejects_in :
    (after (hostWrite .w16 0x1000001 0 (busyWith .modulate))).statusWord = 9 ∧
    (after (hostWrite .w8 0x1000100 0 (busyWith .modulate))).statusWord = 9 ∧
    (after (hostWrite .w8 0x1000000 0 (busyWith .modulate))).inBuf.read 0 = 0x52 := by decide +kernel

/-- spec/95_test_vectors.md section 8.2: a second command while Busy, STATUS 9. -/
theorem test_busy_rejects : (after (hostWrite .w32 0x04 1 (busyWith .modulate))).statusWord = 9 := by decide +kernel

/-- spec/20_memory.md R81: the first byte is the least significant. -/
theorem test_window_word :
    (after (hostRead .w32 0x0100002C (load riff52))).readData = 0x3280C880 := by decide +kernel

/-! ### Witnesses: each names the statement whose hypotheses it meets -/

theorem witness_DecodeSpecWords : (load []).seq = .idle := rfl

theorem witness_DecodeEncodeAgree : Instr.demodulate.wf = true ∧ (Instr.illegal 1 0).wf = true ∧
    (Instr.illegal 0xFFFFFFF 0xF).wf = true := by decide

theorem witness_ResetWordIsExact :
    decode 0xF = .reset ∧ opField 0x1F = 0xF ∧ rsvdField 0x1F ≠ 0 ∧ opField 0xFFFFFFFF = 0xF ∧
    rsvdField 0xFFFFFFFF ≠ 0 ∧ (load []).seq = .idle ∧ (busyWith .read).isBusy = true := by decide

theorem witness_StepRunsTheIssuedCommand :
    let s := { load [1, 2, 3] with pending := [.issue 1, .block] }
    s.par.Ok ∧ s.seq = .idle ∧ s.pending = .issue 1 :: [.block] ∧ decode 1 = .wrap ∧
    decodeTableWord 4 1 = some .wrap ∧ decodeTableWord 32 0xFFFFFFFF = some (.illegal 0xFFFFFFF 0xF) := by decide +kernel

theorem witness_StepTakesTheNextTurn :
    (load []).par.Ok ∧
    { load [] with pending := [.read .w32 8] }.pending = .read .w32 8 :: [] ∧
    { load [] with pending := [.write .w32 4 1] }.pending = .write .w32 4 1 :: [] ∧
    { load [] with pending := [.rst] }.pending = .rst :: [] ∧
    { load [] with pending := [.block] }.pending = .block :: [] ∧ (load []).seq = .idle ∧
    { busyWith .seek with pending := [.block] }.pending = .block :: [] ∧
    (busyWith .seek).seq = .busy .seek (load riff52).liveSnap ∧ (load []).pending = [] ∧
    (busyWith .seek).pending = [] := by decide +kernel

/-- A Busy block and the ends of the IN window; an Idle block and the ends of each range of words. -/
theorem witness_CommandAcceptance :
    let b := busyWith .modulate
    b.isBusy = true ∧ (0x1F : Word) ≠ 0x0000000F ∧ 0 < 2 ^ 24 ∧ 2 ^ 24 - 1 < 2 ^ 24 ∧
    (load []).seq = .idle ∧ rsvdField 0x10 ≠ 0 ∧ rsvdField 0x80000000 ≠ 0 ∧
    (rsvdField 8 = 0 ∧ 8 ≤ (opField 8).toNat ∧ (opField 8).toNat ≤ 14) ∧
    (rsvdField 14 = 0 ∧ 8 ≤ (opField 14).toNat ∧ (opField 14).toNat ≤ 14) := by decide +kernel

theorem witness_AcceptedCommandRunsAsExec :
    (load []).seq = .idle ∧ longOp (decode 1) = some .wrap ∧ longOp (decode 7) = some .read := by decide

theorem witness_NopCompletes : (load []).seq = .idle ∧ (busyWith .wrap).isBusy = true := by decide

theorem witness_IllegalAndReservedWords :
    rsvdField 0x10 ≠ 0 ∧ rsvdField 0x8000000F ≠ 0 ∧ rsvdField 8 = 0 ∧ 8 ≤ (opField 8).toNat ∧ (opField 8).toNat ≤ 14 ∧
    rsvdField 14 = 0 ∧ 8 ≤ (opField 14).toNat ∧ (opField 14).toNat ≤ 14 ∧ (load []).seq = .idle ∧
    (busyWith .openView).isBusy = true := by decide

/-- IN_CAP + 1; 65535 bytes; the largest envelope with OUT one byte short, and with OUT just large enough; nothing. -/
theorem witness_WrapBuildsTheEnvelope :
    smallPar.Ok ∧ bigPar.Ok ∧ 257 = (sized smallPar 257).snap.inLen.toNat ∧ smallPar.inCap < 257 ∧
    65535 = (sized bigPar 65535).snap.inLen.toNat ∧ 65535 ≤ bigPar.inCap ∧
    235 = (sized smallPar 235).snap.inLen.toNat ∧ smallPar.outCap < 235 + 6 ∧
    234 = (sized smallPar 234).snap.inLen.toNat ∧ 234 + 6 ≤ smallPar.outCap ∧
    65534 = (sized bigPar 65534).snap.inLen.toNat ∧ 0 = (sized smallPar 0).snap.inLen.toNat := by decide +kernel

theorem witness_EnvelopeCheckOrder :
    let len (b : List Byte) := byteAt b 0 * 256 + byteAt b 1
    let sum (b : List Byte) := ((List.range (len b)).map fun i => byteAt b (2 + i)).sum % 2 ^ 24
    let stored (b : List Byte) := byteAt b (2 + len b) * 65536 + byteAt b (3 + len b) * 256 + byteAt b (4 + len b)
    [(0 : Byte)].length < 2 ∧
    (2 ≤ [(0 : Byte), 1].length ∧ [(0 : Byte), 1].length ≠ len [0, 1] + 5) ∧
    (len [0, 0, 0, 0, 0] = 0 ∧ [(0 : Byte), 0, 0, 0, 0].length = len [0, 0, 0, 0, 0] + 5) ∧
    (len [0, 1, 9, 0, 0, 8] ≠ 0 ∧ [(0 : Byte), 1, 9, 0, 0, 8].length = len [0, 1, 9, 0, 0, 8] + 5 ∧
      sum [0, 1, 9, 0, 0, 8] ≠ stored [0, 1, 9, 0, 0, 8]) ∧
    (len envelope123 ≠ 0 ∧ envelope123.length = len envelope123 + 5 ∧ sum envelope123 = stored envelope123) := by
  decide +kernel

/-- One state for each of UNWRAP's cases, by its input. -/
theorem witness_UnwrapReturnsTheRawData :
    let len (s : State) := s.inNat 0 * 256 + s.inNat 1
    let stored (s : State) := s.inNat (2 + len s) * 65536 + s.inNat (3 + len s) * 256 + s.inNat (4 + len s)
    let n (s : State) := s.snap.inLen.toNat
    let tight := { load envelope123 with par := ⟨9, 2, mkRat (-3) 5, mkRat 1 2⟩ }
    (sized smallPar 257).par.Ok ∧ smallPar.inCap < n (sized smallPar 257) ∧ n (load [0]) < 2 ∧
    (2 ≤ n (load [0, 1]) ∧ n (load [0, 1]) ≠ len (load [0, 1]) + 5) ∧
    (n (load [0, 0, 0, 0, 0]) = len (load [0, 0, 0, 0, 0]) + 5 ∧ len (load [0, 0, 0, 0, 0]) = 0) ∧
    (n (load [0, 1, 9, 0, 0, 8]) = 6 ∧ len (load [0, 1, 9, 0, 0, 8]) = 1 ∧
      (load [0, 1, 9, 0, 0, 8]).inSum 2 1 % 2 ^ 24 ≠ stored (load [0, 1, 9, 0, 0, 8])) ∧
    (n tight = len tight + 5 ∧ tight.par.Ok ∧ n tight ≤ tight.par.inCap ∧
      tight.inSum 2 (len tight) % 2 ^ 24 = stored tight ∧ tight.par.outCap < len tight - 1) ∧
    ((load envelope123).par.Ok ∧ n (load envelope123) = len (load envelope123) + 5 ∧
      (load envelope123).inSum 2 4 % 2 ^ 24 = stored (load envelope123) ∧ 4 - 1 ≤ (load envelope123).par.outCap) := by
  decide +kernel

/-- WRAP's output as the second state's input. -/
theorem witness_WrapThenUnwrap :
    let s := load [1, 2, 3]
    let t := after (exec .wrap s)
    let u := load envelope123
    s.par.Ok ∧ s.snap.inLen.toNat ≤ 65534 ∧ s.snap.inLen.toNat + 6 ≤ s.par.outCap ∧
    s.snap.inLen.toNat + 6 ≤ s.par.inCap ∧ u.par = s.par ∧ u.snap.inLen = t.outLen ∧
    (∀ a < t.outLen.toNat, u.inBuf.read a = t.outBuf.read a) ∧
    (sized smallPar 234).snap.inLen.toNat + 6 = (sized smallPar 234).par.outCap := by decide +kernel

/-- One byte short and one byte long. -/
theorem witness_CorruptedEnvelopes_length :
    let short := load (envelope123.take 8)
    let long := load (envelope123 ++ [0])
    4 = short.inNat 0 * 256 + short.inNat 1 ∧ short.snap.inLen.toNat ≤ short.par.inCap ∧ short.snap.inLen.toNat = 4 + 4 ∧
    4 = long.inNat 0 * 256 + long.inNat 1 ∧ long.snap.inLen.toNat ≤ long.par.inCap ∧ long.snap.inLen.toNat = 4 + 6 := by
  decide +kernel

/-- The state with one bit of byte `j` flipped. -/
def flipped (j k : Nat) : State :=
  { load envelope123 with
    inBuf := (Memory.ofBytes envelope123 0).write j ((Memory.ofBytes envelope123 0).read j ^^^ BitVec.twoPow 8 k) }

/-- The first bit of the length prefix and the last bit of the checksum. -/
theorem witness_CorruptedEnvelopes_flip :
    let s := load envelope123
    (4 = s.inNat 0 * 256 + s.inNat 1 ∧
      s.inSum 2 4 = s.inNat (2 + 4) * 65536 + s.inNat (3 + 4) * 256 + s.inNat (4 + 4)) ∧
    ∀ j k, j ∈ [0, 1, 2, 8] → k ∈ [0, 7] →
      (flipped j k).snap.inLen.toNat = 4 + 5 ∧ 4 + 5 ≤ (flipped j k).par.inCap ∧ j < 4 + 5 ∧ k < 8 ∧
      (flipped j k).inBuf.read j = s.inBuf.read j ^^^ BitVec.twoPow 8 k ∧
      ∀ a, a ≠ j → (flipped j k).inBuf.read a = s.inBuf.read a := by
  refine ⟨by decide +kernel, fun j k hj hk => ⟨rfl, (by decide : 4 + 5 ≤ 256), ?_, ?_, ?_, ?_⟩⟩
  · revert j; decide
  · revert k; decide
  · exact Memory.read_write_same _ _ _
  · exact fun a ha => Memory.read_write_other _ _ _ _ ha

/-- Two states with one input and else different. -/
theorem witness_EnvelopeCommandsArePure :
    let s := load envelope123
    let u := { viewing 3 with inLen := 9, inBuf := Memory.ofBytes (envelope123 ++ [7]) 5 }
    u.par = s.par ∧ u.snap.inLen = s.snap.inLen ∧ u.view ≠ s.view ∧
    ∀ a < s.snap.inLen.toNat, u.inBuf.read a = s.inBuf.read a := by decide +kernel

theorem witness_ChecksumNeverWraps : (List.replicate 65535 (0xFF : Byte)).length ≤ 65535 := by
  rw [List.length_replicate]

/-- The ends of each range. -/
theorem witness_QuantisersInvertNormalisation :
    ((-32768 : Int) ≤ -32768 ∧ (-1 : Int) < 0) ∧ ((0 : Int) ≤ 0 ∧ (32767 : Int) ≤ 32767) ∧
    ((0 : Int) ≤ 0 ∧ (255 : Int) ≤ 255) := by decide

theorem witness_ContainerLayout :
    (20000 < 2 ^ 32 ∧ 20000 * 2 < 2 ^ 32 ∧ 36 + 0 * 2 < 2 ^ 32) ∧ (4294967295 < 2 ^ 32 ∧ 4294967295 * 1 < 2 ^ 32) ∧
    0 < [(128 : Int)].length ∧ 36 + [(128 : Int)].length * 1 < 2 ^ 32 := by decide

/-- A byte string for each header check, then for a scan's each case, then for each format check. -/
theorem witness_ParseFollowsTheRule :
    (riff52.take 11).length < 12 ∧ slice (riff52.set 3 0x58) 0 4 ≠ [0x52, 0x49, 0x46, 0x46] ∧
    (12 ≤ riff52.length ∧ slice riff52 0 4 = [0x52, 0x49, 0x46, 0x46] ∧
      slice riff52 8 12 = [0x57, 0x41, 0x56, 0x45] ∧ 8 + u32le riff52 4 ≤ riff52.length) ∧
    slice (riff52.set 11 0x58) 8 12 ≠ [0x57, 0x41, 0x56, 0x45] ∧
    riff52.length < 8 + u32le (riff52.set 4 0x2D) 4 ∧
    (52 - 12 < 52 ∧ 52 < 45 + 8 ∧ 44 + 8 ≤ 52 ∧ 52 < 44 + 8 + u32le riff52 (44 + 4)) ∧
    (12 + 8 + u32le riff52 (12 + 4) ≤ 52 ∧ slice riff52 12 (12 + 4) = [0x66, 0x6D, 0x74, 0x20]) ∧
    (36 + 8 + u32le riff52 (36 + 4) ≤ 52 ∧ slice riff52 36 (36 + 4) = [0x64, 0x61, 0x74, 0x61]) ∧
    (slice (riff52.set 14 0x78) 12 16 ≠ [0x66, 0x6D, 0x74, 0x20] ∧
      slice (riff52.set 14 0x78) 12 16 ≠ [0x64, 0x61, 0x74, 0x61]) ∧
    ((⟨some (20, 16), none⟩ : Chunks).fmt ≠ none ∧ (⟨none, some (44, 8)⟩ : Chunks).data ≠ none) ∧
    15 < 16 ∧ 16 ≤ 16 ∧ u16le (riff52.set 20 3) 20 ≠ 1 ∧ u16le riff52 20 = 1 ∧ u16le (riff52.set 22 2) 22 ≠ 1 ∧
    u16le riff52 22 = 1 ∧ (u16le (riff52.set 34 0x18) 34 ≠ 8 ∧ u16le (riff52.set 34 0x18) 34 ≠ 16) ∧
    u16le riff52 34 = 8 ∧ u16le (riff52.set 34 0x10) 34 = 16 := by decide +kernel

theorem witness_ReaderAcceptsTheWriter :
    let codes : List Int := [-32768, 32767, 0]
    let c := container 4294967295 .sixteen codes
    4294967295 < 2 ^ 32 ∧ c.length ≤ 2 ^ 24 ∧ (∀ a < c.length, (Memory.ofBytes c 0).read a = c.getD a 0) ∧
    ∀ i < codes.length, -32768 ≤ codes.getD i 0 ∧ codes.getD i 0 ≤ 32767 := by decide +kernel

theorem witness_OpenAppliesTheParse :
    smallPar.inCap < (sized smallPar 257).snap.inLen.toNat ∧ (load riff52).snap.inLen.toNat ≤ (load riff52).par.inCap ∧
    (load (riff52.take 11)).snap.inLen.toNat ≤ smallPar.inCap := by decide +kernel

theorem witness_OpenAppliesTheParse_ok :
    parse ((load riff52).inBuf.readRange 0 52) = .ok (.opened 44 .eight 8 20000) := by decide +kernel

theorem witness_OpenAppliesTheParse_error :
    parse ((load (riff52.take 11)).inBuf.readRange 0 11) = .error ⟨.malformedContainer, 1⟩ := by decide +kernel

/-- The last sample, the first index past it, and no view. -/
theorem witness_SeekMovesTheCursor :
    { viewing 0 with arg := 7 }.snap.arg.toNat < (viewing 0).view.count.toNat ∧
    (viewing 0).view.count.toNat ≤ { viewing 0 with arg := 8 }.snap.arg.toNat ∧ (load []).view = .closed := by
  decide +kernel

theorem witness_ReadReturnsTheCode :
    (load []).view = .closed ∧ (viewing 8).view.count.toNat ≤ (viewing 8).smpPos.toNat ∧
    ((viewing 7).view = .opened 44 .eight 8 20000 ∧ (viewing 7).smpPos.toNat < (8 : Word).toNat) ∧
    (viewing16.view = .opened 44 .sixteen 4 20000 ∧ viewing16.smpPos.toNat < (4 : Word).toNat) := by decide +kernel

theorem witness_SeekThenRead :
    (viewing 0).view.count.toNat ≤ { viewing 0 with arg := 8 }.snap.arg.toNat ∧
    { viewing16 with arg := 3 }.snap.arg.toNat < viewing16.view.count.toNat := by decide +kernel

/-- One setting for each check of spec/95_test_vectors.md section 5.7. -/
theorem witness_ModulateConfigurationChecks :
    smallPar.inCap < (sized smallPar 257).snap.inLen.toNat ∧ { load [] with baudRate := 0 }.snap.baudRate = 0 ∧
    ({ load [] with sampleRate := 2499 }.snap.baudRate ≠ 0 ∧
      { load [] with sampleRate := 2499 }.snap.sampleRate.toNat < (load []).snap.baudRate.toNat) ∧
    ((load []).snap.baudRate.toNat ≤ { load [] with sampleRate := 2500 }.snap.sampleRate.toNat ∧
      (24 : Byte).toNat ≠ 8 ∧ (24 : Byte).toNat ≠ 16 ∧
      { load [] with modCfg := ⟨false, 24⟩ }.snap.modCfg.bitsPerSample.toNat = 24) ∧
    ({ load [] with modCfg := ⟨false, 16⟩, sampleRate := 0x80000000 }.snap.modCfg.bitsPerSample.toNat = 16 ∧
      2 ^ 32 - 1 < { load [] with sampleRate := 0x80000000 }.snap.sampleRate.toNat * (16 / 8)) := by decide +kernel

/-- Each check that fails first, and none. Without a leader this container is 236 bytes long and fits OUT; with a leader
of three cycles it does not. -/
theorem witness_ModulateWritesTheContainer :
    let s := { load [0xA5, 0x5A] with syncMs := 0 }
    let u := { load [0xA5, 0x5A] with syncMs := 1 }
    s.par.Ok ∧ smallPar.inCap < (sized smallPar 257).snap.inLen.toNat ∧ { load [] with baudRate := 0 }.snap.baudRate = 0 ∧
    { load [] with sampleRate := 2499 }.snap.sampleRate.toNat < (load []).snap.baudRate.toNat ∧
    { load [] with modCfg := ⟨false, 24⟩ }.snap.modCfg.bitsPerSample.toNat ≠ 16 ∧
    2 ^ 32 - 1 < { load [] with sampleRate := 0x80000000 }.snap.sampleRate.toNat * (16 / 8) ∧
    s.snap.inLen.toNat ≤ s.par.inCap ∧ s.snap.baudRate ≠ 0 ∧ s.snap.baudRate.toNat ≤ s.snap.sampleRate.toNat ∧
    8 = s.snap.sampleRate.toNat / s.snap.baudRate.toNat ∧ s.snap.modCfg.bitsPerSample.toNat = Depth.eight.bits ∧
    s.snap.sampleRate.toNat * (8 / 8) ≤ 2 ^ 32 - 1 ∧
    0 = (s.snap.sampleRate.toNat * s.snap.syncMs.toNat + 1000 * 8 - 1) / (1000 * 8) ∧
    3 = (u.snap.sampleRate.toNat * u.snap.syncMs.toNat + 1000 * 8 - 1) / (1000 * 8) ∧
    192 = 8 * (0 + 12 * s.snap.inLen.toNat) ∧ 236 = 44 + 192 * (8 / 8) ∧ 236 ≤ s.par.outCap ∧
    216 = 8 * (3 + 12 * u.snap.inLen.toNat) ∧ 260 = 44 + 216 * (8 / 8) ∧ u.par.outCap < 260 := by
  decide +kernel

/-- The first sample of the shortest table is 0, whose code is 128. -/
theorem witness_ToneCodesRoundTheExactSine :
    smallPar.Ok ∧ 0 < 1 ∧ 0 ≤ 1 ∧ IsWave smallPar false 1 0 0 0 ∧ IsCode .eight 0 128 ∧ IsCode .sixteen 0 0 := by
  have hpar : smallPar.Ok := by decide +kernel
  have hlo : ((smallPar.sqLo : Rat) : ℝ) ≤ 0 := by exact_mod_cast le_of_lt hpar.2.2.1.2
  have hhi : (0 : ℝ) ≤ ((smallPar.sqHi : Rat) : ℝ) := by exact_mod_cast le_of_lt hpar.2.2.2.1.1
  refine ⟨hpar, by decide, by decide, ?_, ?_, ?_⟩
  · simp [IsWave, hlo, hhi]
  · have : ⌊((0 : ℝ) + 1) * (255 / 2) + 1 / 2⌋ = 128 := by norm_num
    simp only [IsCode, this]
    decide
  · have : ⌊(0 : ℝ) * 32767 + 1 / 2⌋ = 0 := by norm_num
    exact ⟨fun _ => by rw [this]; decide, fun h => absurd h (lt_irrefl _)⟩

/-- Every real wave has a code, in both widths. -/
theorem code_exists (depth : Depth) (w : ℝ) : ∃ c, IsCode depth w c := by
  cases depth
  · exact ⟨_, rfl⟩
  · rcases le_or_gt 0 w with h | h
    · exact ⟨_, fun _ => rfl, fun h' => absurd h (not_le.2 h')⟩
    · exact ⟨_, fun h' => absurd h (not_lt.2 h'), fun _ => rfl⟩

/-- And where the sine is irrational: the second sample of nine a cycle, in sine mode and reverse phase, and the last of
eight, in square mode, in both widths. -/
theorem witness_ToneCodesRoundTheExactSine_irrational :
    smallPar.Ok ∧ 0 < 9 ∧ 1 ≤ 1 ∧ 1 < 9 ∧ 0 < 8 ∧ 7 < 8 ∧
    ∀ depth, (∃ w c, IsWave smallPar true 9 1 1 w ∧ IsCode depth w c) ∧
      ∃ w c, IsWave smallPar false 8 0 7 w ∧ IsCode depth w c := by
  refine ⟨by decide +kernel, by decide, by decide, by decide, by decide, by decide, fun depth => ⟨?_, ?_⟩⟩
  · obtain ⟨c, hc⟩ := code_exists depth (-Real.sin (2 * Real.pi * ((1 : Nat) + 1) * (1 : Nat) / (9 : Nat)))
    exact ⟨_, c, by simp [IsWave], hc⟩
  · exact ⟨_, (code_exists depth _).choose, rfl, (code_exists depth _).choose_spec⟩

theorem witness_RationalToneTables : smallPar.Ok ∧ bigPar.Ok ∧ 0 ≤ 1 ∧ 1 ≤ 1 := by decide +kernel

theorem witness_DefaultModulateCounts :
    let s := { sized bigPar 6 with inBuf := Memory.ofBytes emptyEnvelope 0 }
    s.par.Ok ∧ s.snap.sampleRate = 20000 ∧ s.snap.baudRate = 2500 ∧ s.snap.syncMs = 3000 ∧
    s.snap.modCfg = ⟨false, 8⟩ ∧ s.snap.inLen.toNat ≤ s.par.inCap ∧ 60044 + 96 * s.snap.inLen.toNat ≤ s.par.outCap := by
  decide +kernel

theorem witness_ThresholdByCode :
    (0 : Rat) < 1 ∧ (0 : Rat) ≤ 0 ∧ (0 : Int) ≤ 101 ∧ (154 : Int) ≤ 255 ∧ (-32768 : Int) ≤ -6554 ∧ (6554 : Int) ≤ 32767 := by
  decide +kernel

/-- A found triple, spec/95_test_vectors.md V-ONE, and none, V-BND. -/
theorem witness_FindReturnsTheFirstTriple :
    findTriple (fun i => norm8 ([0x80, 0xC8, 0x80, 0x32, 0x80, 0xC8].getD i 0)) 6 0 = some (1, 3, 5) ∧
    findTriple (fun i => norm8 ([0x66, 0x99, 0x66, 0x99].getD i 0)) 4 0 = none := by decide +kernel

theorem witness_DetectReportsTheEvent :
    (viewing 0).smpPos ≤ (viewing 0).view.count ∧
    findTriple (viewing 0).sample (viewing 0).view.count.toNat (viewing 0).smpPos.toNat = some (1, 3, 5) ∧
    findTriple (viewing 5).sample (viewing 5).view.count.toNat (viewing 5).smpPos.toNat = none := by decide +kernel

/-- A first cycle and the one after it, V-FST; then end-of-block and end-of-file. -/
theorem witness_OneBlockOnly :
    let s := { load (cycles 20000 [2, 2]) with view := .opened 44 .eight 5 20000 }
    (detect s).1 = .sob 0 2 ∧ (detect (detect s).2).1 = .cycle 2 2 ∧
    (detect { viewing 5 with inBlock := true }).1 = .eob ∧ (detect (viewing 5)).1 = .eof := by decide +kernel

/-- Every class of HALF_UNITS, at its ends. -/
theorem witness_SynchroniserStep :
    (load []).halfUnits = 0 ∧ (3 : BitVec 5) ≠ 0 ∧ (3 : BitVec 5).toNat % 2 = 1 ∧ (17 : BitVec 5).toNat % 2 = 1 ∧
    (15 : BitVec 5).toNat % 2 = 1 ∧ (15 : BitVec 5) ≠ 17 ∧ (2 : BitVec 5) ≠ 0 ∧ (2 : BitVec 5).toNat % 2 = 0 ∧
    (14 : BitVec 5) ≠ 16 ∧ (14 : BitVec 5).toNat % 2 = 0 ∧ (16 : BitVec 5).toNat % 2 = 0 := by decide

theorem witness_ByteCyclesEmitTheByte : { load [] with halfUnits := 2, workingByte := 0xFF }.halfUnits = 2 := rfl

theorem witness_BlockBoundaries :
    { load [] with halfUnits := 2 }.halfUnits ≠ 0 ∧ (load []).halfUnits = 0 ∧
    (detect { viewing 0 with inBlock := true }).1 = .cycle 1 4 ∧
    (detect { viewing 5 with inBlock := true }).1 = .eob ∧
    (after (exec .demodulate { load (cycles 3 [2, 3, 3]) with baudRate := 1 })).errCode = 5 := by decide +kernel

/-- A violation, an event that goes on, and each event that ends the loop. -/
theorem witness_DemodulateLoop :
    (viewing 0).smpPos ≤ (viewing 0).view.count ∧
    (consume true (detect { viewing 5 with inBlock := true, halfUnits := 2 }).1
      (detect { viewing 5 with inBlock := true, halfUnits := 2 }).2).toOption = none ∧
    (consume false (detect (viewing 0)).1 (detect (viewing 0)).2).toOption.isSome = true ∧
    (detect (viewing 0)).1 = .sob 1 4 ∧ (detect (viewing 5)).1 = .eof ∧
    (consume false (detect (viewing 5)).1 (detect (viewing 5)).2).toOption.isSome = true ∧
    (detect { viewing 5 with inBlock := true }).1 = .eob ∧
    (consume true (detect { viewing 5 with inBlock := true }).1
      (detect { viewing 5 with inBlock := true }).2).toOption.isSome = true := by decide +kernel

theorem witness_DemodulateEarlyFailures :
    smallPar.inCap < (sized smallPar 257).snap.inLen.toNat ∧
    ({ load riff52 with baudRate := 0 }.snap.inLen.toNat ≤ smallPar.inCap ∧
      { load riff52 with baudRate := 0 }.snap.baudRate = 0) ∧
    ((load (riff52.set 8 0x58)).snap.inLen.toNat ≤ smallPar.inCap ∧ (load (riff52.set 8 0x58)).snap.baudRate ≠ 0) := by
  decide +kernel

theorem witness_DemodulateEarlyFailures_parse :
    parse ((load (riff52.set 8 0x58)).inBuf.readRange 0 52) = .error ⟨.malformedContainer, 2⟩ := by decide +kernel

/-- The loop's outcome on a container of cycles of these lengths at baud 1 and rate 3. -/
def stream (bs : List Byte) : Option Err :=
  match parse bs with
  | .error _ => none
  | .ok v => (demodLoop (v.count.toNat + 1) ((atBaud1 bs).clearDemod.setView v)).2

/-- The bytes the loop assembles. -/
def assembled (bs : List Byte) : List Byte :=
  match parse bs with
  | .error _ => []
  | .ok v => (demodLoop (v.count.toNat + 1) ((atBaud1 bs).clearDemod.setView v)).1.bytes

/-- One container for each outcome: both stream errors, no envelope, OUT too small, and success. -/
theorem witness_DemodulateResult :
    (load []).par.Ok ∧ (atBaud1 tape).snap.inLen.toNat ≤ (atBaud1 tape).par.inCap ∧ (atBaud1 tape).snap.baudRate ≠ 0 ∧
    stream (cycles 3 [2, 3, 2, 3]) = some ⟨.protocolViolation, 1⟩ ∧
    stream (cycles 3 [2, 3, 3]) = some ⟨.protocolViolation, 2⟩ ∧
    (stream riff52 = none ∧ (envCheck (assembled riff52)).isSome = true) ∧
    (stream tape = none ∧ envCheck (assembled tape) = none ∧ (assembled tape).length ≤ (atBaud1 tape).par.outCap) ∧
    (⟨256, 5, mkRat (-3) 5, mkRat 1 2⟩ : Params).Ok ∧ 5 < (assembled tape).length := by decide +kernel

theorem witness_DemodulateResult_parse :
    parse ((atBaud1 (cycles 3 [2, 3, 3])).inBuf.readRange 0 (atBaud1 (cycles 3 [2, 3, 3])).snap.inLen.toNat) =
      .ok (.opened 44 .eight 9 3) := by decide +kernel

/-- V-BND: every sample lies on or inside the threshold. -/
theorem witness_SilenceHasNoBlock :
    let s := load (container 20000 .eight [0x66, 0x99, 0x66, 0x99])
    let v := View.opened 44 .eight 4 20000
    s.snap.inLen.toNat ≤ s.par.inCap ∧ s.snap.baudRate ≠ 0 ∧
    (∀ i < v.count.toNat, |(s.setView v).sample i| ≤ mkRat 1 5) := by decide +kernel

theorem witness_SilenceHasNoBlock_parse :
    parse ((load (container 20000 .eight [0x66, 0x99, 0x66, 0x99])).inBuf.readRange 0 48) =
      .ok (.opened 44 .eight 4 20000) := by decide +kernel

/-- The command runs to a next state with this error flag. -/
def Ends (i : Instr) (s : State) (err : Bool) : Prop := ∃ t, exec i s = .next t ∧ t.err = err

theorem ends {i : Instr} {s : State} {err : Bool} (h : (after (exec i s)).err = err) : Ends i s err := by
  obtain ⟨t, ht⟩ := exec_next i s
  rw [ht] at h
  exact ⟨t, ht, h⟩

theorem witness_WhatEachCommandRaises :
    Ends .nop (load []) false ∧ Ends .reset (load []) false ∧ Ends .wrap (load [1]) false ∧
    Ends .demodulate (load []) true ∧ Ends (.illegal 1 0) (load []) true :=
  ⟨ends (by decide +kernel), ends (by decide +kernel), ends (by decide +kernel), ends (by decide +kernel), ends (by decide +kernel)⟩

/-- Every command that can fail does so somewhere; DEMODULATE both before its PARSE succeeds and after. -/
theorem witness_StateAfterAFailedCommand :
    Ends .wrap (sized smallPar 257) true ∧ Ends .unwrap (load [0]) true ∧
    Ends .modulate { load [] with baudRate := 0 } true ∧ Ends .demodulate { load riff52 with baudRate := 0 } true ∧
    Ends .demodulate (load riff52) true ∧ Ends .openView (load [0]) true ∧ Ends .seek (load []) true ∧
    Ends .read (load []) true ∧ Ends .reserved8 (load []) true ∧ Ends .reservedE (load []) true ∧
    Ends (.illegal 1 0) (load []) true :=
  ⟨ends (by decide +kernel), ends (by decide +kernel), ends (by decide +kernel), ends (by decide +kernel), ends (by decide +kernel), ends (by decide +kernel), ends (by decide +kernel),
    ends (by decide +kernel), ends (by decide +kernel), ends (by decide +kernel), ends (by decide +kernel)⟩

/-- DEMODULATE's side conditions in the witness above. -/
theorem witness_StateAfterAFailedCommand_demodulate :
    { load riff52 with baudRate := 0 }.snap.baudRate = 0 ∧ (load riff52).snap.inLen.toNat ≤ smallPar.inCap ∧
    (load riff52).snap.baudRate ≠ 0 ∧
    parse ((load riff52).inBuf.readRange 0 (load riff52).snap.inLen.toNat) = .ok (.opened 44 .eight 8 20000) :=
  ⟨rfl, by decide, by decide, by decide +kernel⟩

theorem witness_ReissueGivesTheSameError :
    (load riff52).snap = (load riff52).liveSnap ∧ Ends .demodulate (load riff52) true ∧
    (busyWith .read).snap = (busyWith .read).liveSnap ∧ Ends .read (busyWith .read) true :=
  ⟨rfl, ends (by decide +kernel), rfl, ends (by decide +kernel)⟩

/-- The same input with another byte after it. -/
theorem witness_CommandsReadOnlyTheirInput :
    (∀ a < (load riff52).snap.inLen.toNat,
      (Memory.ofBytes (riff52 ++ [7]) 9).read a = (load riff52).inBuf.read a) := by decide +kernel

theorem witness_CommandsReadOnlyTheirInput_runs :
    Ends .openView (load riff52) false ∧ Ends .demodulate (load riff52) true := ⟨ends (by decide +kernel), ends (by decide +kernel)⟩

theorem witness_CompletionRaisesTheInterrupt :
    Instr.wrap ≠ .reset ∧ Ends .wrap (load [1]) false ∧ Ends .seek (load []) true ∧ (2 : Word).getLsbD 1 = true ∧
    ∃ t, hostWrite .w32 0x08 2 (load []) = .next t :=
  ⟨by decide, ends (by decide +kernel), ends (by decide +kernel), by decide, ⟨_, rfl⟩⟩

theorem witness_RegisterReads :
    (load []).seq = .idle ∧ (load []).view = .closed ∧ (viewing 3).view = .opened 44 .eight 8 20000 ∧
    (viewing 3).seq = .idle := by decide

theorem witness_RegisterWrites : (load []).seq = .idle := rfl

/-- The ends of each range of offsets. -/
theorem witness_ReservedAndMisalignedAccesses :
    (0 : Word).toNat < 0x100 ∧ (0xFF : Word).toNat < 0x100 ∧ (0xFF : Word).toNat % 4 ≠ 0 ∧ Width.w8 ≠ .w32 ∧
    (0x4C : Word).toNat % 4 = 0 ∧ 0x4C ≤ (0x4C : Word).toNat ∧ (0xFC : Word).toNat ≤ 0xFC ∧
    0x100 ≤ (0x100 : Word).toNat ∧ (0xFFFFFF : Word).toNat < 0x1000000 := by decide

/-- The last byte of IN, the first beyond it, the last of the window. -/
theorem witness_InWindowWrites :
    (load []).seq = .idle ∧ 255 < 2 ^ 24 ∧ 255 < (load []).par.inCap ∧ 256 < 2 ^ 24 ∧ 2 ^ 24 - 1 < 2 ^ 24 ∧ 252 % 4 = 0 ∧
    (2 ^ 24 - 1) % 4 ≠ 0 := by decide

/-- The last bytes of IN and OUT, the first beyond them, the last of the window; a word that reaches beyond a capacity of
254 bytes. -/
theorem witness_WindowReads :
    (load []).seq = .idle ∧ 255 < (load []).par.inCap ∧ ¬256 < (load []).par.inCap ∧ 239 < (load []).par.outCap ∧
    ¬240 < (load []).par.outCap ∧ 2 ^ 24 - 1 < 2 ^ 24 ∧ 252 < 2 ^ 24 ∧ 252 % 4 = 0 ∧
    252 + 1 < { load [] with par := ⟨254, 254, mkRat (-3) 5, mkRat 1 2⟩ }.par.inCap ∧
    ¬252 + 2 < { load [] with par := ⟨254, 254, mkRat (-3) 5, mkRat 1 2⟩ }.par.inCap := by decide

theorem witness_ReadsHaveNoSideEffect :
    (∃ t, hostRead .w32 0x08 (load []) = .next t) ∧ (∃ t, hostRead .w16 0x02FFFFFF (busyWith .wrap) = .next t) :=
  ⟨⟨_, rfl⟩, ⟨_, rfl⟩⟩

theorem witness_BusyReads : (busyWith .unwrap).isBusy = true ∧ 0 < 2 ^ 24 ∧ 2 ^ 24 - 1 < 2 ^ 24 := by decide

/-- A step that keeps REJ, and the four turns that clear it. -/
theorem witness_RejIsSticky :
    ∀ turn ∈ [Turn.write .w32 0x0C 5, .write .w32 0x08 8, .rst, .write .w32 4 0xF, .issue 0xF],
      { load [] with rej := true, pending := [turn] }.rej = true ∧
      ∃ t, step { load [] with rej := true, pending := [turn] } = .next t := by
  have hpar : (load []).par.Ok := by decide +kernel
  intro turn h
  simp only [List.mem_cons, List.not_mem_nil, or_false] at h
  rcases h with rfl | rfl | rfl | rfl | rfl <;> exact ⟨rfl, _, if_pos hpar⟩

/-- A read, and a write of a word to CMD that is not RESET. -/
theorem witness_BusyCommandIsUndisturbed :
    (busyWith .wrap).isBusy = true ∧ ¬(Width.w32 = .w32 ∧ (0x04 : Word) = 0x04 ∧ (0x1F : Word) = 0x0000000F) ∧
    ∀ turn ∈ [Turn.read .w8 0x1000000, .write .w32 0x04 0x1F],
      ∃ t, step { busyWith .wrap with pending := [turn] } = .next t := by
  have hpar : (load []).par.Ok := by decide +kernel
  refine ⟨rfl, by decide, ?_⟩
  intro turn h
  simp only [List.mem_cons, List.not_mem_nil, or_false] at h
  rcases h with rfl | rfl <;> exact ⟨_, if_pos hpar⟩

/-- A state that meets the invariant, Busy with an open view, and its step. -/
theorem witness_StepKeepsTheInvariant :
    { busyWith .read with view := .opened 44 .eight 8 20000, smpPos := 8 }.Inv ∧
    ∃ t, step { busyWith .read with view := .opened 44 .eight 8 20000, smpPos := 8 } = .next t := by
  have hpar : (load []).par.Ok := by decide +kernel
  refine ⟨⟨hpar, Memory.ofBytes_wf _ _, ?_, List.Pairwise.nil, ?_, by decide, (by decide : 44 + 8 * 1 ≤ 256),
    by decide, by decide, rfl,
    ⟨rfl, rfl, rfl⟩, .inl ⟨rfl, rfl, rfl⟩⟩, _, if_pos hpar⟩
  · intro c hc
    exact Nat.lt_of_lt_of_le (Memory.ofBytes_bounded _ _ c hc) (by decide)
  · intro c hc
    cases hc

/-- The ends of the aperture, and parameters out of range. -/
theorem witness_StepStopsOnlyOutsideTheSpec :
    (load []).par.Ok ∧ (Turn.read .w8 0x02FFFFFF).inAperture = true ∧ (Turn.write .w32 0 0).inAperture = true ∧
    (Turn.read .w8 0x03000000).inAperture = false ∧ Turn.rst.inAperture = true ∧
    ¬(⟨256, 240, mkRat (-1) 2, mkRat 1 2⟩ : Params).Ok ∧ ¬(⟨0, 240, mkRat (-3) 5, mkRat 1 2⟩ : Params).Ok := by
  decide +kernel

theorem witness_CommandsComplete :
    let s := { busyWith .demodulate with pending := [.read .w32 8, .write .w32 4 1, .rst, .issue 3] }
    s.par.Ok ∧ ∀ turn ∈ s.pending, turn.inAperture = true := by decide +kernel

end Sys2Proof.Tests
end

section
/-! PROOFS. What the state's registers read as and what a write to them does: O45, O46, O53
(spec/10_state.md R25, R47, R49). -/

namespace Sys2Proof.Machine

/-! ### The address map (20_memory.md R71; 10_state.md R22) -/

/-- The word-aligned offset `o` of the register window is that of register `r`. -/
abbrev RegisterAt (o : Word) (r : Reg) : Prop := o.toNat < 0x100 ∧ o.toNat % 4 = 0 ∧ regAt o.toNat = some r

theorem regionOf_registers (o : Word) (h : o.toNat < 0x100) : regionOf o = .registers o.toNat := if_pos h

theorem regionOf_outWindow (a : Nat) (h : a < 2 ^ 24) :
    regionOf (BitVec.ofNat 32 (0x2000000 + a)) = .outWindow a := by
  have ho : (BitVec.ofNat 32 (0x2000000 + a)).toNat = 0x2000000 + a := by
    rw [BitVec.toNat_ofNat, Nat.mod_eq_of_lt (by omega)]
  unfold regionOf
  simp only [ho]
  rw [if_neg (by omega), if_neg (by omega), if_neg (by omega), if_pos (by omega), Nat.add_sub_cancel_left]

/-! ### Host accesses to one register -/

section
variable {o : Word} {r : Reg} (s : State)

theorem hostRead_registerAt (h : RegisterAt o r) :
    hostRead .w32 o s =
      .next (if s.isBusy && r.anyWhileBusy then s.readAny else { s with readData := s.regWord r }) := by
  obtain ⟨hlt, haligned, hreg⟩ := h
  unfold hostRead
  rw [regionOf_registers o hlt]
  simp only [haligned, and_self, if_true, State.readRegister, hreg]

/-- A register outside the result registers reads its value, Idle or Busy (10_state.md R49). -/
theorem hostRead_regWord (h : RegisterAt o r) (hr : r.anyWhileBusy = false) :
    hostRead .w32 o s = .next { s with readData := s.regWord r } := by
  rw [hostRead_registerAt s h, hr, Bool.and_false]
  rfl

/-- A result register of a Busy block reads as any value (10_state.md R49). -/
theorem hostRead_anyWhileBusy (h : RegisterAt o r) (hb : s.isBusy = true) (hr : r.anyWhileBusy = true) :
    hostRead .w32 o s = .next s.readAny := by
  rw [hostRead_registerAt s h, hb, hr]
  rfl

theorem hostWrite_registerAt (h : RegisterAt o r) (v : Word) : hostWrite .w32 o v s = writeRegister r v s := by
  obtain ⟨hlt, haligned, hreg⟩ := h
  unfold hostWrite
  rw [regionOf_registers o hlt]
  simp only [haligned, and_self, if_true, hreg]

end

/-- A read of OUT while Busy gives any value, at every width (20_memory.md R82; 10_state.md R49). -/
theorem hostRead_outWindow_busy (s : State) (hb : s.isBusy = true) (width : Width) (a : Nat) (ha : a < 2 ^ 24) :
    hostRead width (BitVec.ofNat 32 (0x2000000 + a)) s = .next s.readAny := by
  unfold hostRead
  rw [regionOf_outWindow a ha]
  simp only [hb, if_true]

/-- The result registers, at the offsets R49 lists. -/
theorem resultRegister_offsets :
    ∀ o ∈ [0x14, 0x28, 0x2C, 0x30, 0x34, 0x38, 0x3C, 0x40, 0x44, (0x48 : Word)],
      ∃ r, RegisterAt o r ∧ r.anyWhileBusy = true := by
  simp only [List.forall_mem_cons, List.not_mem_nil, false_imp_iff, implies_true, and_true]
  refine ⟨⟨.outLen, ?_⟩, ⟨.smpCount, ?_⟩, ⟨.smpRate, ?_⟩, ⟨.smpInfo, ?_⟩, ⟨.smpPos, ?_⟩, ⟨.smpRaw, ?_⟩,
    ⟨.syncState, ?_⟩, ⟨.cycStart, ?_⟩, ⟨.cycLen, ?_⟩, ⟨.demodBytes, ?_⟩⟩ <;> decide

/-! ### STATUS (10_state.md R25) -/

theorem hostRead_status (s : State) : hostRead .w32 0x08 s = .next { s with readData := s.statusWord } :=
  hostRead_regWord s (r := .status) (by decide) rfl

/-- A STATUS write is never rejected (10_state.md R25). -/
theorem hostWrite_status (s : State) (v : Word) : hostWrite .w32 0x08 v s = .next (s.writeStatus v) :=
  hostWrite_registerAt s (r := .status) (by decide) v

/-- A field of a word is known by its bits. -/
theorem extractLsb'_eq_of_getLsbD {w k start : Nat} {x : BitVec w} {y : BitVec k}
    (h : ∀ i < k, x.getLsbD (start + i) = y.getLsbD i) : x.extractLsb' start k = y := by
  apply BitVec.eq_of_getLsbD_eq
  intro i hi
  rw [BitVec.getLsbD_extractLsb', h i hi, decide_eq_true hi, Bool.true_and]

section
variable (s : State)

/-- STATUS bit by bit, from bit 0 up; the fields below are read off it. -/
theorem getLsbD_statusWord (i : Nat) :
    s.statusWord.getLsbD i =
      if i < 1 then (BitVec.ofBool s.isBusy).getLsbD i
      else if i < 2 then (BitVec.ofBool s.done).getLsbD (i - 1)
      else if i < 3 then (BitVec.ofBool s.err).getLsbD (i - 2)
      else if i < 4 then (BitVec.ofBool s.rej).getLsbD (i - 3)
      else if i < 8 then false
      else if i < 12 then s.errCode.getLsbD (i - 8)
      else if i < 16 then s.errDetail.getLsbD (i - 12)
      else false := by
  -- The width as the sum of the fields' widths, the form in which `getLsbD_append` applies.
  have hwidth : s.statusWord.getLsbD i = BitVec.getLsbD (w := 16 + 4 + 4 + 4 + 1 + 1 + 1 + 1) s.statusWord i := rfl
  rw [hwidth, State.statusWord]
  simp only [BitVec.getLsbD_append]
  grind

theorem statusWord_busy : s.statusWord.getLsbD 0 = s.isBusy := by
  rw [getLsbD_statusWord]
  cases s.isBusy <;> rfl

theorem statusWord_done : s.statusWord.getLsbD 1 = s.done := by
  rw [getLsbD_statusWord]
  cases s.done <;> rfl

theorem statusWord_err : s.statusWord.getLsbD 2 = s.err := by
  rw [getLsbD_statusWord]
  cases s.err <;> rfl

theorem statusWord_rej : s.statusWord.getLsbD 3 = s.rej := by
  rw [getLsbD_statusWord]
  cases s.rej <;> rfl

theorem statusWord_reserved : s.statusWord.extractLsb' 4 4 = 0 :=
  extractLsb'_eq_of_getLsbD fun i hi => by
    rw [getLsbD_statusWord]
    simp (disch := omega) only [if_neg, if_pos, BitVec.ofNat_eq_ofNat, BitVec.getLsbD_zero]

theorem statusWord_errCode : s.statusWord.extractLsb' 8 4 = s.errCode :=
  extractLsb'_eq_of_getLsbD fun i hi => by
    rw [getLsbD_statusWord]
    simp (disch := omega) only [if_neg, if_pos, Nat.add_sub_cancel_left]

theorem statusWord_errDetail : s.statusWord.extractLsb' 12 4 = s.errDetail :=
  extractLsb'_eq_of_getLsbD fun i hi => by
    rw [getLsbD_statusWord]
    simp (disch := omega) only [if_neg, if_pos, Nat.add_sub_cancel_left]

theorem statusWord_high : s.statusWord.extractLsb' 16 16 = 0 :=
  extractLsb'_eq_of_getLsbD fun i hi => by
    rw [getLsbD_statusWord]
    simp (disch := omega) only [if_neg, BitVec.ofNat_eq_ofNat, BitVec.getLsbD_zero]

end

/-! ### The obligations -/

/-- Settles O45: `exec_frame` gives DONE = 1 and an unchanged IE for every command but RESET. -/
theorem completionRaisesTheInterrupt : Obligations.CompletionRaisesTheInterrupt := by
  refine ⟨fun s => Bool.and_eq_true_iff, ?completion, ?reset, fun s op => Bool.and_false s.ie, ?statusWrite⟩
  case completion =>
    intro i s t hi h
    have hf : CommandFrame s t := exec_frame i s t hi h
    exact ⟨hf.done, by rw [State.irq, hf.ie, hf.done, Bool.and_true]⟩
  case reset =>
    intro s t h
    cases h
    rfl
  case statusWrite =>
    intro s t v hv h
    rw [hostWrite_status] at h
    cases h
    simp [State.irq, hv]

/-- Settles O46: a read gives `statusWord`, whose fields are read off one by one, and a write is `writeStatus`. -/
theorem statusRegister : Obligations.StatusRegister := by
  intro s
  refine ⟨⟨_, hostRead_status s, statusWord_busy s, statusWord_done s, statusWord_err s, statusWord_rej s,
    statusWord_reserved s, statusWord_errCode s, statusWord_errDetail s, statusWord_high s⟩, fun v => ?_⟩
  have hclear (b c : Bool) : (b && !c) = if c then false else b := by cases c <;> simp
  rw [hostWrite_status, State.writeStatus, hclear, hclear]

/-- Settles O53: the registers outside `Reg.anyWhileBusy` read their values, the others and OUT any value. -/
theorem busyReads : Obligations.BusyReads := by
  intro s hb
  refine ⟨⟨_, hostRead_status s, rfl, (statusWord_busy s).trans hb⟩,
    hostRead_regWord s (r := .ctrl) (by decide) rfl, hostRead_regWord s (r := .cmd) (by decide) rfl,
    hostRead_regWord s (r := .arg) (by decide) rfl, hostRead_regWord s (r := .inLen) (by decide) rfl,
    hostRead_regWord s (r := .sampleRate) (by decide) rfl, hostRead_regWord s (r := .baudRate) (by decide) rfl,
    hostRead_regWord s (r := .syncMs) (by decide) rfl, hostRead_regWord s (r := .modCfg) (by decide) rfl, ?result,
    fun width a ha => ⟨_, _, hostRead_outWindow_busy s hb width a ha⟩⟩
  case result =>
    intro o ho
    obtain ⟨r, hat, hany⟩ := resultRegister_offsets o ho
    exact ⟨_, _, hostRead_anyWhileBusy s hat hb hany⟩

end Sys2Proof.Machine
end

section
/-! PROOFS. Which words the decoder reads as RESET, as reserved and as illegal, and what such a word does when the
host writes it to CMD: O3, O9 (spec/30_encoding.md R102, R103). -/

namespace Sys2Proof

/-! ### Words by their fields (30_encoding.md R100 to R103) -/

/-- The instructions of the reserved opcodes, OP 0x8 to 0xE (30_encoding.md R101). -/
abbrev reservedInstrs : List Instr :=
  [.reserved8, .reserved9, .reservedA, .reservedB, .reservedC, .reservedD, .reservedE]

/-- No bit of a command word lies outside its two fields. -/
theorem rsvdField_append_opField (w : Word) : rsvdField w ++ opField w = w :=
  (BitVec.extractLsb'_append_extractLsb'_eq_extractLsb' rfl).trans BitVec.extractLsb'_eq_self

theorem decode_of_rsvdField_eq_zero {w : Word} (h : rsvdField w = 0) : decode w = decodeOp (opField w) := if_pos h

theorem decode_of_rsvdField_ne_zero {w : Word} (h : rsvdField w ≠ 0) :
    decode w = .illegal (rsvdField w) (opField w) := if_neg h

theorem decodeOp_eq_reset_iff : ∀ op : BitVec 4, decodeOp op = .reset ↔ op = 0xF := by decide

theorem decodeOp_mem_reservedInstrs :
    ∀ op : BitVec 4, 8 ≤ op.toNat → op.toNat ≤ 14 → decodeOp op ∈ reservedInstrs := by decide

/-- RESET is one word only: RSVD is not zero in any other word with its OP (30_encoding.md R103). -/
theorem decode_eq_reset_iff (w : Word) : decode w = .reset ↔ w = 0x0000000F := by
  constructor
  · intro h
    by_cases hr : rsvdField w = 0
    · rw [decode_of_rsvdField_eq_zero hr, decodeOp_eq_reset_iff] at h
      rw [← rsvdField_append_opField w, hr, h]
      rfl
    · rw [decode_of_rsvdField_ne_zero hr] at h
      cases h
  · rintro rfl
    rfl

theorem decode_mem_reservedInstrs {w : Word} (hr : rsvdField w = 0) (h8 : 8 ≤ (opField w).toNat)
    (h14 : (opField w).toNat ≤ 14) : decode w ∈ reservedInstrs := by
  rw [decode_of_rsvdField_eq_zero hr]
  exact decodeOp_mem_reservedInstrs _ h8 h14

end Sys2Proof

namespace Sys2Proof.Machine

/-! ### A command that only reports an error -/

theorem State.raise_failedWith (s : State) (e : Err) : (s.raise e).FailedWith e.kind.code e.detail :=
  ⟨rfl, rfl, rfl, rfl, rfl⟩

/-- `raise E(d)` leaves everything but STATUS and SEQ (60_exceptions.md R264). -/
theorem State.raise_onlyStatus (s : State) (e : Err) : OnlyStatus s (s.raise e) where
  host := ⟨rfl, rfl, rfl, rfl, rfl, rfl, rfl, rfl, rfl, fun _ => rfl, rfl, rfl⟩
  out := ⟨rfl, fun _ => rfl⟩
  view := ⟨rfl, rfl⟩
  smpRaw := rfl
  sync := ⟨rfl, rfl, rfl, rfl, rfl, rfl, rfl⟩
  tones := ⟨rfl, rfl⟩

/-- The outcome that raises IllegalCommand(d), in the terms of the obligations. -/
theorem failsTouchingOnlyStatus_of_raise {x : Host.Outcome State Fault Refusal} {s : State} {d : BitVec 4}
    (h : x = .next (s.raise ⟨.illegalCommand, d⟩)) : ∃ t, x = .next t ∧ t.FailedWith 7 d ∧ OnlyStatus s t :=
  ⟨_, h, s.raise_failedWith _, s.raise_onlyStatus _⟩

theorem exec_illegal (r : BitVec 28) (o : BitVec 4) (s : State) :
    exec (.illegal r o) s = .next (s.raise ⟨.illegalCommand, 2⟩) := rfl

/-- All reserved opcodes have one meaning (30_encoding.md R102). -/
theorem exec_reserved (s : State) :
    ∀ i ∈ reservedInstrs, exec i s = .next (s.raise ⟨.illegalCommand, 1⟩) := by
  simp only [List.forall_mem_cons, List.not_mem_nil, false_imp_iff, implies_true, and_true]
  exact ⟨rfl, rfl, rfl, rfl, rfl, rfl, rfl⟩

theorem longOp_reserved : ∀ i ∈ reservedInstrs, longOp i = none := by decide

/-! ### The host's write to CMD (60_exceptions.md R270) -/

theorem hostWrite_cmd (w : Word) (s : State) : hostWrite .w32 0x04 w s = cmdWrite w s :=
  hostWrite_registerAt s (r := .cmd) (by decide) w

/-- A command that completes at acceptance runs as `exec` runs it. -/
theorem hostWrite_cmd_short {w : Word} {s : State} (hidle : s.seq = .idle) (h : longOp (decode w) = none) :
    hostWrite .w32 0x04 w s = exec (decode w) s := by
  rw [hostWrite_cmd, cmdWrite_short w s hidle h, exec_clearReport _ s h]

/-- A Busy block rejects every word but RESET. -/
theorem hostWrite_cmd_busy {w : Word} {s : State} (hb : s.isBusy = true) (hw : w ≠ 0x0000000F) :
    hostWrite .w32 0x04 w s = .next { s with rej := true } := by
  rw [hostWrite_cmd, cmdWrite_busy w s hb, if_neg hw]

theorem hostWrite_cmd_illegal {w : Word} {s : State} (hidle : s.seq = .idle) (hr : rsvdField w ≠ 0) :
    hostWrite .w32 0x04 w s = .next (s.raise ⟨.illegalCommand, 2⟩) := by
  have hd : decode w = .illegal (rsvdField w) (opField w) := decode_of_rsvdField_ne_zero hr
  rw [hostWrite_cmd_short hidle (by rw [hd]; rfl), hd, exec_illegal]

theorem hostWrite_cmd_reserved {w : Word} {s : State} (hidle : s.seq = .idle) (hw : decode w ∈ reservedInstrs) :
    hostWrite .w32 0x04 w s = .next (s.raise ⟨.illegalCommand, 1⟩) := by
  rw [hostWrite_cmd_short hidle (longOp_reserved _ hw), exec_reserved s _ hw]

/-! ### The obligations -/

/-- Settles O3: `decode_eq_reset_iff`, and the two fates of a word whose RSVD is not zero. -/
theorem resetWordIsExact : Obligations.ResetWordIsExact := by
  intro w
  refine ⟨decode_eq_reset_iff w, fun hop hr => ⟨?decodes, fun s => ⟨fun hidle => ?idle, fun hb => ?busy⟩⟩⟩
  case decodes => rw [decode_of_rsvdField_ne_zero hr, hop]
  case idle => exact failsTouchingOnlyStatus_of_raise (hostWrite_cmd_illegal hidle hr)
  case busy =>
    refine hostWrite_cmd_busy hb ?_
    rintro rfl
    exact hr rfl

/-- Settles O9: exec and the CMD write of an Idle block both raise IllegalCommand, which leaves all but STATUS; the word
is not RESET's, so a Busy block rejects it. -/
theorem illegalAndReservedWords : Obligations.IllegalAndReservedWords := by
  refine ⟨fun w => decode_of_rsvdField_ne_zero, ?reservedWord, ?illegal, ?reserved, ?idle, ?busy⟩
  case reservedWord =>
    intro w s hr h8 h14
    exact failsTouchingOnlyStatus_of_raise (exec_reserved s _ (decode_mem_reservedInstrs hr h8 h14))
  case illegal =>
    intro s r o
    exact failsTouchingOnlyStatus_of_raise (exec_illegal r o s)
  case reserved =>
    intro s i hi
    exact failsTouchingOnlyStatus_of_raise (exec_reserved s i hi)
  case idle =>
    intro w s hidle
    exact ⟨fun hr => failsTouchingOnlyStatus_of_raise (hostWrite_cmd_illegal hidle hr), fun hr h8 h14 =>
      failsTouchingOnlyStatus_of_raise (hostWrite_cmd_reserved hidle (decode_mem_reservedInstrs hr h8 h14))⟩
  case busy =>
    intro w s hb h
    refine hostWrite_cmd_busy hb ?_
    rintro rfl
    revert h
    decide

end Sys2Proof.Machine
end

section
/-! PROOFS. The envelope framer: the checksum, the envelope check, WRAP and UNWRAP on every input, their round trip,
and what they depend on: O10, O11, O12, O13, O15, O16 (spec/40_envelope.md). -/

namespace Sys2Proof.Machine

/-! ### The checksum (40_envelope.md R121) -/

theorem sum_toNat_le (p : List Byte) : (p.map fun b => b.toNat).sum ≤ p.length * 255 := by
  have hbyte : ∀ x ∈ p.map fun b => b.toNat, x ≤ 255 := by
    intro x hx
    obtain ⟨b, -, rfl⟩ := List.mem_map.1 hx
    have := b.isLt
    omega
  simpa using List.sum_le_card_nsmul _ 255 hbyte

/-- Reducing after every addition gives the checksum, by adding the bytes one at a time at the end. -/
theorem csum_eq_foldl (p : List Byte) : csum p = p.foldl (fun acc b => (acc + b.toNat) % 2 ^ 24) 0 := by
  induction p using List.reverseRecOn with
  | nil => rfl
  | append_singleton p b ih =>
    rw [List.foldl_concat, ← ih, csum, csum, List.map_append, List.sum_append, Nat.mod_add_mod]
    rfl

/-- A span of a byte string, byte by byte. -/
theorem slice_eq_map_range {b : List Byte} {i k : Nat} (h : i + k ≤ b.length) :
    slice b i (i + k) = (List.range k).map fun j => b.getD (i + j) 0 := by
  apply List.ext_getElem
  · simp only [slice, List.length_take, List.length_drop, List.length_map, List.length_range]
    omega
  · intro j hj hj'
    have hjk : j < k := by simpa using hj'
    rw [List.getElem_map, List.getElem_range, List.getD_eq_getElem _ _ (by omega)]
    simp [slice]

theorem csum_slice {b : List Byte} {i k : Nat} (h : i + k ≤ b.length) :
    csum (slice b i (i + k)) = ((List.range k).map fun j => byteAt b (i + j)).sum % 2 ^ 24 := by
  rw [slice_eq_map_range h, csum, List.map_map]
  rfl

/-! ### The envelope check, check by check (40_envelope.md R122) -/

section
variable {b : List Byte}

theorem envCheck_of_short (h : b.length < 2) : envCheck b = some ⟨.lengthMismatch, 4⟩ := if_pos h

theorem envCheck_of_length_ne (h2 : 2 ≤ b.length) (h : b.length ≠ u16be b 0 + 5) :
    envCheck b = some ⟨.lengthMismatch, 1⟩ := by
  rw [envCheck, if_neg (by omega)]
  exact if_pos h

theorem envCheck_of_empty (h : b.length = u16be b 0 + 5) (h0 : u16be b 0 = 0) :
    envCheck b = some ⟨.lengthMismatch, 2⟩ := by
  rw [envCheck, if_neg (by omega)]
  simp only [h, h0, ne_eq, not_true, if_false, if_true]

theorem envCheck_of_csum_ne (h : b.length = u16be b 0 + 5) (h0 : u16be b 0 ≠ 0)
    (hc : csum (slice b 2 (2 + u16be b 0)) ≠ u24be b (2 + u16be b 0)) :
    envCheck b = some ⟨.checksumMismatch, 1⟩ := by
  rw [envCheck, if_neg (by omega)]
  simp only [h, h0, hc, ne_eq, not_true, not_false_eq_true, if_false, if_true]

theorem envCheck_of_valid (h : b.length = u16be b 0 + 5) (h0 : u16be b 0 ≠ 0)
    (hc : csum (slice b 2 (2 + u16be b 0)) = u24be b (2 + u16be b 0)) : envCheck b = none :=
  (envCheck_none_iff b).2 ⟨by omega, h, h0, hc⟩

end

/-! ### Sums of bytes of IN -/

theorem State.inSum_succ (s : State) (a k : Nat) : s.inSum a (k + 1) = s.inSum a k + s.inNat (a + k) := by
  simp [State.inSum, List.range_succ]

theorem State.inSum_congr {s u : State} {a b k : Nat} (h : ∀ i < k, u.inNat (a + i) = s.inNat (b + i)) :
    u.inSum a k = s.inSum b k :=
  congrArg List.sum (List.map_congr_left fun i hi => h i (List.mem_range.1 hi))

/-! ### The fields of an envelope in IN (40_envelope.md R120) -/

section
variable (s : State)

theorem State.getD_input {n i : Nat} (h : i < n) : (s.input n).getD i 0 = s.inBuf.read i :=
  BitVec.eq_of_toNat_eq (s.byteAt_input n i h)

theorem State.u16be_input {n i : Nat} (h : i + 1 < n) :
    u16be (s.input n) i = s.inNat i * 256 + s.inNat (i + 1) := by
  rw [u16be, s.byteAt_input n i (by omega), s.byteAt_input n (i + 1) h]

theorem State.u24be_input {n i : Nat} (h : i + 2 < n) :
    u24be (s.input n) i = s.inNat i * 65536 + s.inNat (i + 1) * 256 + s.inNat (i + 2) := by
  rw [u24be, s.byteAt_input n i (by omega), s.byteAt_input n (i + 1) (by omega), s.byteAt_input n (i + 2) h]

variable {n len : Nat} (hn : n = len + 5)
include hn

theorem State.csum_input_payload : csum (slice (s.input n) 2 (2 + len)) = s.inSum 2 len % 2 ^ 24 := by
  rw [s.csum_slice_input n 2 (2 + len) (by omega), Nat.add_sub_cancel_left]

theorem State.u24be_input_stored {stored : Nat}
    (h : stored = s.inNat (2 + len) * 65536 + s.inNat (3 + len) * 256 + s.inNat (4 + len)) :
    u24be (s.input n) (2 + len) = stored := by
  rw [s.u24be_input (by omega), h, Nat.add_right_comm 2 len 1, Nat.add_right_comm 2 len 2]

/-- What is left of the envelope check once the length fits and the payload is not empty: the checksum. -/
theorem State.envCheck_input {stored : Nat} (hlen : len = s.inNat 0 * 256 + s.inNat 1)
    (hstored : stored = s.inNat (2 + len) * 65536 + s.inNat (3 + len) * 256 + s.inNat (4 + len)) (h0 : len ≠ 0) :
    envCheck (s.input n) = if s.inSum 2 len % 2 ^ 24 = stored then none else some ⟨.checksumMismatch, 1⟩ := by
  have hprefix : u16be (s.input n) 0 = len := by rw [s.u16be_input (by omega), hlen]
  have hlength : (s.input n).length = u16be (s.input n) 0 + 5 := by rw [s.length_input, hprefix, hn]
  rw [← s.csum_input_payload hn, ← s.u24be_input_stored hn hstored]
  rw [← hprefix] at h0 ⊢
  split
  · exact envCheck_of_valid hlength h0 ‹_›
  · exact envCheck_of_csum_ne hlength h0 ‹_›

/-- The raw data of an envelope in IN: its payload without the last byte. -/
theorem State.unwrapBytes_input (hlen : len = s.inNat 0 * 256 + s.inNat 1) :
    unwrapBytes (s.input n) = s.inBuf.readRange 2 (len - 1) := by
  rw [unwrapBytes, s.u16be_input (by omega), Nat.zero_add, ← hlen, s.slice_input n 2 _ (by omega)]
  congr 1
  omega

end

/-! ### How WRAP and UNWRAP end (60_exceptions.md R264 to R266) -/

/-- The end of a command that writes OUT: an error, or its result. -/
def State.finishOut (s : State) : Except Err (List Byte) → State
  | .error e => s.raiseOut e
  | .ok r => s.yieldOut r

theorem State.finishOut_onlyOut (s : State) (r : Except Err (List Byte)) : OnlyOut s (s.finishOut r) := by
  cases r <;>
    exact ⟨⟨rfl, rfl, rfl, rfl, rfl, rfl, rfl, rfl, rfl, fun _ => rfl, rfl, rfl⟩, ⟨rfl, rfl⟩, rfl,
      ⟨rfl, rfl, rfl, rfl, rfl, rfl, rfl⟩⟩

theorem State.finishOut_sameTones (s : State) (r : Except Err (List Byte)) : SameTones s (s.finishOut r) := by
  cases r <;> exact ⟨rfl, rfl⟩

theorem State.raiseOut_failedWith (s : State) (e : Err) :
    (s.raiseOut e).FailedWith e.kind.code e.detail ∧ (s.raiseOut e).outLen = 0 :=
  ⟨⟨rfl, rfl, rfl, rfl, rfl⟩, rfl⟩

theorem State.yieldOut_succeeded (s : State) (r : List Byte) : (s.yieldOut r).Succeeded := ⟨rfl, rfl, rfl, rfl, rfl⟩

/-- Two states in which a command has one result end in the same report, the same OUT_LEN and the same result bytes. -/
theorem State.finishOut_sameResult (s u : State) (r : Except Err (List Byte)) :
    (u.finishOut r).done = (s.finishOut r).done ∧ (u.finishOut r).err = (s.finishOut r).err ∧
    (u.finishOut r).errCode = (s.finishOut r).errCode ∧ (u.finishOut r).errDetail = (s.finishOut r).errDetail ∧
    (u.finishOut r).outLen = (s.finishOut r).outLen ∧
    ∀ a < (s.finishOut r).outLen.toNat, (u.finishOut r).outBuf.read a = (s.finishOut r).outBuf.read a := by
  cases r with
  | error e => exact ⟨rfl, rfl, rfl, rfl, rfl, fun a ha => absurd ha (Nat.not_lt_zero a)⟩
  | ok bs =>
    refine ⟨rfl, rfl, rfl, rfl, rfl, fun a ha => ?_⟩
    have hlen : a < bs.length := Nat.lt_of_lt_of_le ha (Nat.mod_le _ _)
    exact (u.read_yieldOut bs a hlen).trans (s.read_yieldOut bs a hlen).symm

/-! ### WRAP, check by check (40_envelope.md R123) -/

section
variable {s : State} {n : Nat} (hn : n = s.snap.inLen.toNat)
include hn

theorem exec_wrap_of_inCap_lt (h : s.par.inCap < n) : exec .wrap s = .next (s.raiseOut ⟨.capacityExceeded, 1⟩) := by
  subst hn
  exact if_pos h

theorem exec_wrap_of_too_long (hcap : n ≤ s.par.inCap) (h : 65535 ≤ n) :
    exec .wrap s = .next (s.raiseOut ⟨.lengthMismatch, 3⟩) := by
  subst hn
  exact (if_neg (by omega)).trans (if_pos (by omega))

theorem exec_wrap_of_outCap_lt (hcap : n ≤ s.par.inCap) (hlen : n < 65535) (h : s.par.outCap < n + 6) :
    exec .wrap s = .next (s.raiseOut ⟨.capacityExceeded, 2⟩) := by
  subst hn
  refine (if_neg (by omega)).trans ((if_neg (by omega)).trans (if_pos ?_))
  rwa [length_envelopeOf, State.length_input]

theorem exec_wrap_of_fits (hcap : n ≤ s.par.inCap) (hlen : n < 65535) (h : n + 6 ≤ s.par.outCap) :
    exec .wrap s = .next (s.yieldOut (envelopeOf (s.input n))) := by
  subst hn
  refine (if_neg (by omega)).trans ((if_neg (by omega)).trans (if_neg ?_))
  rwa [length_envelopeOf, State.length_input, not_lt]

/-! ### UNWRAP, check by check (40_envelope.md R124) -/

theorem exec_unwrap_of_inCap_lt (h : s.par.inCap < n) :
    exec .unwrap s = .next (s.raiseOut ⟨.capacityExceeded, 1⟩) := by
  subst hn
  exact if_pos h

theorem exec_unwrap_of_envCheck_some {e : Err} (hcap : n ≤ s.par.inCap) (h : envCheck (s.input n) = some e) :
    exec .unwrap s = .next (s.raiseOut e) := by
  subst hn
  refine (if_neg (by omega)).trans ?_
  simp only [h]

theorem exec_unwrap_of_outCap_lt (hcap : n ≤ s.par.inCap) (hc : envCheck (s.input n) = none)
    (h : s.par.outCap < (unwrapBytes (s.input n)).length) :
    exec .unwrap s = .next (s.raiseOut ⟨.capacityExceeded, 2⟩) := by
  subst hn
  refine (if_neg (by omega)).trans ?_
  simp only [hc]
  exact if_pos h

theorem exec_unwrap_of_fits (hcap : n ≤ s.par.inCap) (hc : envCheck (s.input n) = none)
    (h : (unwrapBytes (s.input n)).length ≤ s.par.outCap) :
    exec .unwrap s = .next (s.yieldOut (unwrapBytes (s.input n))) := by
  subst hn
  refine (if_neg (by omega)).trans ?_
  simp only [hc]
  exact if_neg (by omega)

end

/-! ### WRAP and UNWRAP as functions of their input (40_envelope.md R128) -/

section
variable {s u : State} {n : Nat} (hs : n = s.snap.inLen.toNat) (hu : n = u.snap.inLen.toNat) (hpar : s.par = u.par)
  (hinput : s.input n = u.input n)
include hs hu hpar hinput

theorem exec_wrap_congr : ∃ r, exec .wrap s = .next (s.finishOut r) ∧ exec .wrap u = .next (u.finishOut r) := by
  rcases lt_or_ge s.par.inCap n with h | hcap
  · exact ⟨.error _, exec_wrap_of_inCap_lt hs h, exec_wrap_of_inCap_lt hu (hpar ▸ h)⟩
  rcases le_or_gt 65535 n with h | hlen
  · exact ⟨.error _, exec_wrap_of_too_long hs hcap h, exec_wrap_of_too_long hu (hpar ▸ hcap) h⟩
  rcases lt_or_ge s.par.outCap (n + 6) with h | h
  · exact ⟨.error _, exec_wrap_of_outCap_lt hs hcap hlen h,
      exec_wrap_of_outCap_lt hu (hpar ▸ hcap) hlen (hpar ▸ h)⟩
  · exact ⟨.ok _, exec_wrap_of_fits hs hcap hlen h,
      hinput ▸ exec_wrap_of_fits hu (hpar ▸ hcap) hlen (hpar ▸ h)⟩

theorem exec_unwrap_congr :
    ∃ r, exec .unwrap s = .next (s.finishOut r) ∧ exec .unwrap u = .next (u.finishOut r) := by
  rcases lt_or_ge s.par.inCap n with h | hcap
  · exact ⟨.error _, exec_unwrap_of_inCap_lt hs h, exec_unwrap_of_inCap_lt hu (hpar ▸ h)⟩
  have hcap' : n ≤ u.par.inCap := hpar ▸ hcap
  cases hc : envCheck (s.input n) with
  | some e =>
    exact ⟨.error e, exec_unwrap_of_envCheck_some hs hcap hc,
      exec_unwrap_of_envCheck_some hu hcap' (hinput ▸ hc)⟩
  | none =>
    have hc' : envCheck (u.input n) = none := hinput ▸ hc
    rcases lt_or_ge s.par.outCap (unwrapBytes (s.input n)).length with h | h
    · exact ⟨.error _, exec_unwrap_of_outCap_lt hs hcap hc h,
        exec_unwrap_of_outCap_lt hu hcap' hc' (hinput ▸ hpar ▸ h)⟩
    · exact ⟨.ok _, exec_unwrap_of_fits hs hcap hc h,
        hinput ▸ exec_unwrap_of_fits hu hcap' hc' (hinput ▸ hpar ▸ h)⟩

/-- With the same capacities and the same input, each of the two commands has one result in both states. -/
theorem exec_envelope_congr :
    ∀ i ∈ [Instr.wrap, .unwrap], ∃ r, exec i s = .next (s.finishOut r) ∧ exec i u = .next (u.finishOut r) := by
  simp only [List.forall_mem_cons, List.not_mem_nil, false_imp_iff, implies_true, and_true]
  exact ⟨exec_wrap_congr hs hu hpar hinput, exec_unwrap_congr hs hu hpar hinput⟩

end

/-- WRAP and UNWRAP change only STATUS, OUT and OUT_LEN. -/
theorem exec_envelope_onlyOut (s : State) :
    ∀ i ∈ [Instr.wrap, .unwrap], ∃ t, exec i s = .next t ∧ OnlyOut s t ∧ SameTones s t := by
  intro i hi
  obtain ⟨r, h, -⟩ := exec_envelope_congr (s := s) rfl rfl rfl rfl i hi
  exact ⟨_, h, s.finishOut_onlyOut r, s.finishOut_sameTones r⟩

/-- `raise` in a command that writes OUT, in the terms of the obligations (60_exceptions.md R265). -/
theorem failedWith_of_exec {i : Instr} {s t : State} {e : Err} (ht : exec i s = .next t)
    (h : exec i s = .next (s.raiseOut e)) : t.FailedWith e.kind.code e.detail ∧ t.outLen = 0 := by
  cases h.symm.trans ht
  exact s.raiseOut_failedWith e

/-! ### The obligations -/

/-- Settles O16: the sum of 65535 bytes of at most 255 is below 2^24. -/
theorem checksumNeverWraps : Obligations.ChecksumNeverWraps := by
  intro p
  refine ⟨rfl, csum_eq_foldl p, fun hlen => ?_⟩
  have hsum : (p.map fun b => b.toNat).sum ≤ 16711425 := by
    have := sum_toNat_le p
    omega
  exact ⟨hsum, Nat.mod_eq_of_lt (by omega)⟩

/-- Settles O11: one lemma a check, with the checksum's span read byte by byte. -/
theorem envelopeCheckOrder : Obligations.EnvelopeCheckOrder := by
  intro b len stored
  have hstored : u24be b (2 + len) = stored := by
    simp only [u24be, stored, Nat.add_right_comm 2 len]
  refine ⟨envCheck_of_short, envCheck_of_length_ne, fun _ => envCheck_of_empty, fun _ hl h0 => ?_⟩
  rw [← hstored, ← csum_slice (by omega)]
  exact ⟨envCheck_of_csum_ne hl h0, envCheck_of_valid hl h0⟩

/-- Settles O15: both states end with one result. -/
theorem envelopeCommandsArePure : Obligations.EnvelopeCommandsArePure := by
  intro s u i hi hpar hlen hin
  have hinput : s.input s.snap.inLen.toNat = u.input s.snap.inLen.toNat :=
    Memory.readRange_congr _ _ _ _ fun a ha => by rw [Nat.zero_add, hin a ha]
  obtain ⟨r, hs, hu⟩ := exec_envelope_congr rfl (congrArg BitVec.toNat hlen.symm) hpar.symm hinput i hi
  obtain ⟨hdone, herr, hcode, hdetail, houtLen, hbytes⟩ := s.finishOut_sameResult u r
  exact ⟨_, _, hs, hu, hdone, herr, hcode, hdetail, houtLen, hbytes, s.finishOut_onlyOut r, u.finishOut_onlyOut r⟩

/-- Settles O10: one lemma a check, and on success the bytes of `envelopeOf`. -/
theorem wrapBuildsTheEnvelope : Obligations.WrapBuildsTheEnvelope := by
  intro s n _ hn
  obtain ⟨t, ht, honly, htones⟩ := exec_envelope_onlyOut s .wrap (by decide)
  refine ⟨t, ht, honly, htones, fun h => failedWith_of_exec ht (exec_wrap_of_inCap_lt hn h),
    fun hcap h => failedWith_of_exec ht (exec_wrap_of_too_long hn hcap h),
    fun hcap hlen h => failedWith_of_exec ht (exec_wrap_of_outCap_lt hn hcap hlen h), fun hcap hlen h => ?success⟩
  case success =>
    cases (exec_wrap_of_fits hn hcap hlen h).symm.trans ht
    have hlength : (envelopeOf (s.input n)).length = n + 6 := by rw [length_envelopeOf, State.length_input]
    obtain ⟨h0, h1, hdata, hterm, hc2, hc1, hc0⟩ := envelopeOf_bytes (s.input n)
    rw [State.length_input] at h0 h1 hdata hterm hc2 hc1 hc0
    rw [s.csum_payload n] at hc2 hc1 hc0
    have hread : ∀ a < n + 6,
        (s.yieldOut (envelopeOf (s.input n))).outBuf.read a = (envelopeOf (s.input n)).getD a 0 :=
      fun a ha => s.read_yieldOut _ a (by omega)
    refine ⟨s.yieldOut_succeeded _, by rw [s.outLen_yieldOut _ (by omega), hlength], ?_, ?_, ?_, ?_, ?_⟩
    · rw [State.outNat, hread 0 (by omega), h0, BitVec.toNat_ofNat, Nat.mod_eq_of_lt (by omega)]
    · rw [State.outNat, hread 1 (by omega), h1, BitVec.toNat_ofNat]
    · intro i hi
      rw [hread _ (by omega), hdata i hi, s.getD_input hi]
    · rw [hread _ (by omega), hterm]
    · simp only [State.outNat]
      rw [hread _ (by omega), hread _ (by omega), hread _ (by omega), hc2, hc1, hc0]
      simp only [BitVec.toNat_ofNat]
      omega

/-- Settles O12: one lemma a check, with the fields of the envelope read from IN. -/
theorem unwrapReturnsTheRawData : Obligations.UnwrapReturnsTheRawData := by
  intro s n len stored _ hn hlen hstored
  obtain ⟨t, ht, honly, htones⟩ := exec_envelope_onlyOut s .unwrap (by decide)
  refine ⟨t, ht, honly, htones, fun h => failedWith_of_exec ht (exec_unwrap_of_inCap_lt hn h), fun hcap => ?_⟩
  have hfails {e : Err} (h : envCheck (s.input n) = some e) : t.FailedWith e.kind.code e.detail ∧ t.outLen = 0 :=
    failedWith_of_exec ht (exec_unwrap_of_envCheck_some hn hcap h)
  have hlength : (s.input n).length = n := s.length_input n
  have hprefix (h2 : 2 ≤ n) : u16be (s.input n) 0 = len := by rw [s.u16be_input (by omega), hlen]
  have hvalid (hl : n = len + 5) (h0 : len ≠ 0) (hc : s.inSum 2 len % 2 ^ 24 = stored) :
      envCheck (s.input n) = none := (s.envCheck_input hl hlen hstored h0).trans (if_pos hc)
  refine ⟨fun h => ?short, fun h2 hl => ?length, fun h2 hl h0 => ?empty, fun h2 hl h0 hc => ?checksum,
    fun h2 hl h0 hc hout => ?capacity, fun h2 hl h0 hc hout => ?success⟩
  case short => exact hfails (envCheck_of_short (by omega))
  case length => exact hfails (envCheck_of_length_ne (by omega) (by rwa [hlength, hprefix h2]))
  case empty => exact hfails (envCheck_of_empty (by rwa [hlength, hprefix h2]) (by rwa [hprefix h2]))
  case checksum => exact hfails ((s.envCheck_input hl hlen hstored h0).trans (if_neg hc))
  case capacity =>
    refine failedWith_of_exec ht (exec_unwrap_of_outCap_lt hn hcap (hvalid hl h0 hc) ?_)
    rwa [s.unwrapBytes_input hl hlen, Memory.length_readRange]
  case success =>
    have hraw := s.unwrapBytes_input hl hlen
    have hok := exec_unwrap_of_fits hn hcap (hvalid hl h0 hc) (by rwa [hraw, Memory.length_readRange])
    rw [hraw] at hok
    cases hok.symm.trans ht
    have hinLen : n < 2 ^ 32 := hn ▸ s.snap.inLen.isLt
    have hrawLength : (s.inBuf.readRange 2 (len - 1)).length = len - 1 := Memory.length_readRange _ _ _
    have houtLen := s.outLen_yieldOut (s.inBuf.readRange 2 (len - 1)) (by omega)
    refine ⟨s.yieldOut_succeeded _, by omega, by omega, fun i hi => ?_⟩
    rw [s.read_yieldOut _ _ (by omega), List.getD_eq_getElem _ _ (by omega), Memory.getElem_readRange]

/-- Settles O13: WRAP's bytes, by O10, are what O12 needs of an envelope in IN. -/
theorem wrapThenUnwrap : Obligations.WrapThenUnwrap := by
  intro s hpar hlen hout hin
  obtain ⟨t, ht, -, -, -, -, -, hwrap⟩ := wrapBuildsTheEnvelope s s.snap.inLen.toNat hpar rfl
  generalize hn : s.snap.inLen.toNat = n at *
  obtain ⟨hok, houtLen, h0, h1, hdata, hterm, hstored⟩ := hwrap (by omega) (by omega) hout
  refine ⟨t, ht, hok, fun u hupar hulen hucopy => ?_⟩
  rw [houtLen] at hucopy
  have hnat : ∀ a < n + 6, u.inNat a = t.outNat a := fun a ha => congrArg BitVec.toNat (hucopy a ha)
  have hulength : u.snap.inLen.toNat = n + 6 := by rw [hulen, houtLen]
  have hprefix : n + 1 = u.inNat 0 * 256 + u.inNat 1 := by
    rw [hnat 0 (by omega), hnat 1 (by omega), h0, h1]
    omega
  have hpayload : u.inSum 2 (n + 1) = s.inSum 0 n + 255 := by
    have hbytes : ∀ i < n, u.inNat (2 + i) = s.inNat (0 + i) := fun i hi => by
      rw [hnat _ (by omega), State.outNat, hdata i hi, State.inNat, Nat.zero_add]
    have hlast : u.inNat (2 + n) = 255 := by
      rw [hnat _ (by omega), State.outNat, hterm]
      rfl
    rw [State.inSum_succ, State.inSum_congr hbytes, hlast]
  have hchecksum : u.inSum 2 (n + 1) % 2 ^ 24 = u.inNat (2 + (n + 1)) * 65536 + u.inNat (3 + (n + 1)) * 256 +
      u.inNat (4 + (n + 1)) := by
    rw [hpayload, ← hstored, hnat _ (by omega), hnat _ (by omega), hnat _ (by omega),
      show 2 + (n + 1) = 3 + n by omega, show 3 + (n + 1) = 4 + n by omega, show 4 + (n + 1) = 5 + n by omega]
  obtain ⟨v, hv, -, -, -, hcases⟩ :=
    unwrapReturnsTheRawData u (n + 6) (n + 1) _ (hupar ▸ hpar) hulength.symm hprefix rfl
  obtain ⟨-, -, -, -, -, hunwrap⟩ := hcases (by rw [hupar]; omega)
  obtain ⟨hvok, hvlen, -, hvdata⟩ := hunwrap (by omega) rfl (by omega) hchecksum (by rw [hupar]; omega)
  refine ⟨v, hv, hvok, BitVec.eq_of_toNat_eq (by omega), fun a ha => ?_⟩
  rw [hvdata a (by omega), hucopy _ (by omega), hdata a (by omega)]

end Sys2Proof.Machine
end

section
/-! PROOFS. The sample buffer port: the normalisation maps and the quantisers that undo them, the container's bytes,
PARSE check by check, and OPEN, SEEK and READ on every state: O17, O18, O19, O21, O22, O23, O24
(spec/41_sample_buffer.md). -/

namespace Sys2Proof.Machine

/-! ### NORM8 and Q8 (41_sample_buffer.md R141, R147) -/

theorem norm8_eq (c : Int) : norm8 c = (2 * c - 255) / 255 := by
  rw [norm8]
  push_cast
  rfl

/-- No 8-bit code is at 0: `2c - 255` is odd. -/
theorem norm8_ne_zero (c : Int) : norm8 c ≠ 0 :=
  div_ne_zero (Int.cast_ne_zero.2 (by omega)) (by norm_num)

/-- Both quantisers round to nearest: they find the code in the middle of its rounding interval. -/
theorem floor_intCast_add_half (c : Int) : ((c : Rat) + 1 / 2).floor = c := by
  show ⌊(c : Rat) + 1 / 2⌋ = c
  rw [Int.floor_intCast_add, Int.floor_eq_zero_iff.2 (by norm_num), add_zero]

theorem q8_norm8 {c : Int} (h0 : 0 ≤ c) (h255 : c ≤ 255) : q8 (norm8 c) = c := by
  have hscale : (norm8 c + 1) * (255 / 2) = c := by
    rw [norm8_eq]
    ring
  rw [q8, hscale, floor_intCast_add_half, max_eq_right h0, min_eq_right h255]

/-! ### NORM16 and Q16 (41_sample_buffer.md R142, R148) -/

theorem clamp_eq_self {x lo hi : Rat} (hlo : lo ≤ x) (hhi : x ≤ hi) : clamp x lo hi = x := by
  rw [clamp, max_eq_right hlo, min_eq_right hhi]

/-- The clamp changes no negative code. -/
theorem norm16_of_neg {c : Int} (hlo : -32768 ≤ c) (hneg : c < 0) : norm16 c = c / 32768 := by
  have hlo' : (-32768 : Rat) ≤ c := by exact_mod_cast hlo
  have hneg' : (c : Rat) < 0 := by exact_mod_cast hneg
  rw [norm16, if_pos hneg, clamp_eq_self] <;> linarith

/-- The clamp changes no other code. -/
theorem norm16_of_nonneg {c : Int} (h0 : 0 ≤ c) (hhi : c ≤ 32767) : norm16 c = c / 32767 := by
  have h0' : (0 : Rat) ≤ c := by exact_mod_cast h0
  have hhi' : (c : Rat) ≤ 32767 := by exact_mod_cast hhi
  rw [norm16, if_neg (by omega), clamp_eq_self] <;> linarith

theorem q16_norm16 {c : Int} (hlo : -32768 ≤ c) (hhi : c ≤ 32767) : q16 (norm16 c) = c := by
  rcases lt_or_ge c 0 with hneg | h0
  · have hneg' : (c : Rat) < 0 := by exact_mod_cast hneg
    have hscale : -((c : Rat) / 32768) * 32768 = ((-c : Int) : Rat) := by
      push_cast
      ring
    rw [norm16_of_neg hlo hneg, q16, if_neg (by linarith), hscale, floor_intCast_add_half, neg_neg,
      max_eq_right hlo]
  · have h0' : (0 : Rat) ≤ c := by exact_mod_cast h0
    have hscale : (c : Rat) / 32767 * 32767 = c := div_mul_cancel₀ _ (by norm_num)
    rw [norm16_of_nonneg h0 hhi, q16, if_pos (by positivity), hscale, floor_intCast_add_half, min_eq_right hhi]

/-! ### The values the rules list -/

theorem norm8_values : norm8 0 = -1 ∧ norm8 255 = 1 ∧ norm8 127 = mkRat (-1) 255 ∧ norm8 128 = mkRat 1 255 := by
  decide +kernel

theorem norm16_values : norm16 (-32768) = -1 ∧ norm16 32767 = 1 := by decide +kernel

theorem quantiser_values :
    q8 (-1) = 0 ∧ q8 0 = 128 ∧ q8 1 = 255 ∧ q16 (-1) = -32768 ∧ q16 0 = 0 ∧ q16 1 = 32767 := by decide +kernel

/-! ### Little-endian fields (20_memory.md R80) -/

theorem u16le_le16 {v : Nat} (h : v < 2 ^ 16) : u16le (le16 v) 0 = v := by
  show v % 256 + v / 256 % 256 * 256 = v
  omega

theorem u32le_le32 {v : Nat} (h : v < 2 ^ 32) : u32le (le32 v) 0 = v := by
  show v % 256 + v / 256 % 256 * 256 + (v / 65536 % 256 + v / 65536 / 256 % 256 * 256) * 65536 = v
  omega

/-! ### The sample bytes (41_sample_buffer.md R140, R143) -/

theorem byteAt_append_right (a b : List Byte) (i : Nat) : byteAt (a ++ b) (a.length + i) = byteAt b i := by
  rw [byteAt, List.getD_append_right _ _ _ _ (by omega), Nat.add_sub_cancel_left, byteAt]

/-- Code `j` of a list takes the `j`-th group of bytes. -/
theorem byteAt_flatMap_codeBytes (depth : Depth) {codes : List Int} {j k : Nat} (hj : j < codes.length)
    (hk : k < depth.bytes) :
    byteAt (codes.flatMap (codeBytes depth)) (depth.bytes * j + k) = byteAt (codeBytes depth (codes.getD j 0)) k := by
  induction codes generalizing j with
  | nil => exact absurd hj (Nat.not_lt_zero _)
  | cons c rest ih =>
    rw [List.flatMap_cons]
    cases j with
    | zero =>
      rw [byteAt, List.getD_append _ _ _ _ (by rw [length_codeBytes]; omega), byteAt, Nat.mul_zero, Nat.zero_add,
        List.getD_cons_zero]
    | succ j =>
      rw [show depth.bytes * (j + 1) + k = (codeBytes depth c).length + (depth.bytes * j + k) by
          rw [length_codeBytes, Nat.mul_succ]; omega,
        byteAt_append_right, ih (by simpa using hj), List.getD_cons_succ]

/-- The bytes of code `j` in a container. -/
theorem byteAt_container (rate : Nat) (depth : Depth) {codes : List Int} {j k : Nat} (hj : j < codes.length)
    (hk : k < depth.bytes) :
    byteAt (container rate depth codes) (44 + (depth.bytes * j + k)) =
      byteAt (codeBytes depth (codes.getD j 0)) k :=
  (byteAt_append_right (containerHeader rate depth (codes.length * depth.bytes)) _ _).trans
    (byteAt_flatMap_codeBytes depth hj hk)

theorem byteAt_codeBytes_eight (c : Int) : byteAt (codeBytes .eight c) 0 = (c % 256).toNat :=
  BitVec.toNat_ofInt ..

theorem u16le_codeBytes_sixteen (c : Int) : u16le (codeBytes .sixteen c) 0 = (c % 65536).toNat := by
  have hcode : (BitVec.ofInt 16 c).toNat = (c % 65536).toNat := BitVec.toNat_ofInt ..
  have hlow : byteAt (codeBytes .sixteen c) 0 = (BitVec.ofInt 16 c).toNat % 256 := by
    simp [byteAt, codeBytes]
  have hhigh : byteAt (codeBytes .sixteen c) 1 = (BitVec.ofInt 16 c).toNat / 256 % 256 := by
    simp [byteAt, codeBytes, Nat.shiftRight_eq_div_pow]
  rw [u16le, hlow, hhigh]
  omega

/-- Each sample width's bytes at their place: one byte, or two with the least significant first. -/
theorem container_sample (rate : Nat) {codes : List Int} {j : Nat} (hj : j < codes.length) :
    byteAt (container rate .eight codes) (44 + j) = (codes.getD j 0 % 256).toNat ∧
    u16le (container rate .sixteen codes) (44 + 2 * j) = (codes.getD j 0 % 65536).toNat := by
  constructor
  · have h0 := byteAt_container rate .eight hj (k := 0) (by decide)
    rw [← byteAt_codeBytes_eight, ← h0, show Depth.eight.bytes = 1 from rfl, Nat.one_mul, Nat.add_zero]
  · have h0 := byteAt_container rate .sixteen hj (k := 0) (by decide)
    have h1 := byteAt_container rate .sixteen hj (k := 1) (by decide)
    rw [← u16le_codeBytes_sixteen, u16le, u16le, ← h0, ← h1]
    rfl

/-! ### The container's header (41_sample_buffer.md R143) -/

/-- Each header field stands at its offset: the tags themselves, and each number as its own little-endian string. -/
theorem container_header_fields (rate : Nat) (depth : Depth) (codes : List Int) :
    let db := codes.length * depth.bytes
    let c := container rate depth codes
    slice c 0 4 = tagRiff ∧ u32le c 4 = u32le (le32 (36 + db)) 0 ∧ slice c 8 12 = tagWave ∧
    slice c 12 16 = tagFmt ∧ u32le c 16 = u32le (le32 16) 0 ∧ u16le c 20 = u16le (le16 1) 0 ∧
    u16le c 22 = u16le (le16 1) 0 ∧ u32le c 24 = u32le (le32 rate) 0 ∧
    u32le c 28 = u32le (le32 (rate * depth.bytes)) 0 ∧ u16le c 32 = u16le (le16 depth.bytes) 0 ∧
    u16le c 34 = u16le (le16 depth.bits) 0 ∧ slice c 36 40 = tagData ∧ u32le c 40 = u32le (le32 db) 0 := by
  simp only [container, containerHeader, List.append_assoc]
  exact ⟨rfl, rfl, rfl, rfl, rfl, rfl, rfl, rfl, rfl, rfl, rfl, rfl, rfl⟩

/-! ### PARSE's header checks (41_sample_buffer.md R150, R151) -/

section
variable {b : List Byte}

theorem parse_of_bad_magic (h : b.length < 12 ∨ slice b 0 4 ≠ tagRiff) :
    parse b = .error ⟨.malformedContainer, 1⟩ := if_pos h

variable (hlen : 12 ≤ b.length) (hriff : slice b 0 4 = tagRiff)
include hlen hriff

theorem parse_of_bad_form (h : slice b 8 12 ≠ tagWave) : parse b = .error ⟨.malformedContainer, 2⟩ := by
  rw [parse, if_neg (by simp [hlen, hriff]), if_pos h]

theorem parse_of_overrun (hwave : slice b 8 12 = tagWave) (h : b.length < 8 + u32le b 4) :
    parse b = .error ⟨.malformedContainer, 3⟩ := by
  rw [parse, if_neg (by simp [hlen, hriff]), if_neg (by simp [hwave]), if_pos h]

/-- Past the header, PARSE is the chunk scan from offset 12 and then the format check. -/
theorem parse_of_header (hwave : slice b 8 12 = tagWave) (h : 8 + u32le b 4 ≤ b.length) :
    parse b = (scanChunks b (8 + u32le b 4) b.length 12 ⟨none, none⟩).bind (viewOfChunks b) := by
  rw [parse, if_neg (by simp [hlen, hriff]), if_neg (by simp [hwave]), if_neg (by omega)]
  cases scanChunks b (8 + u32le b 4) b.length 12 ⟨none, none⟩ <;> rfl

end

/-! ### One round of the chunk scan (41_sample_buffer.md R150, R152, R153) -/

theorem tagData_ne_tagFmt : tagData ≠ tagFmt := by decide

section
variable {b : List Byte} {stop p fuel : Nat} {found : Chunks}

/-- One unit of fuel more than the scan needs changes nothing, so a round goes on with the fuel it had (log 16). -/
theorem scanChunks_succ_next {next : Nat} (hfuel : stop - p < fuel + 1) (hp : p + 8 ≤ stop) (hnext : p + 8 ≤ next)
    (found : Chunks) : scanChunks b stop fuel next found = scanChunks b stop (fuel + 1) next found :=
  (scanChunks_fuel b stop fuel (fuel + 1) next found (by omega) (by omega)).symm

variable (hfuel : stop - p < fuel)
include hfuel

/-- What a round does, with the fuel not showing: the scan goes on with what is left of it. -/
theorem scanChunks_round :
    scanChunks b stop fuel p found =
      if stop < p + 8 then .ok found
      else if stop < p + 8 + u32le b (p + 4) then .error ⟨.malformedContainer, 3⟩
      else if slice b p (p + 4) = tagFmt then
        if found.fmt.isSome then .error ⟨.malformedContainer, 6⟩
        else scanChunks b stop fuel (p + 8 + u32le b (p + 4) + u32le b (p + 4) % 2)
          { found with fmt := some (p + 8, u32le b (p + 4)) }
      else if slice b p (p + 4) = tagData then
        if found.data.isSome then .error ⟨.malformedContainer, 7⟩
        else scanChunks b stop fuel (p + 8 + u32le b (p + 4) + u32le b (p + 4) % 2)
          { found with data := some (p + 8, u32le b (p + 4)) }
      else scanChunks b stop fuel (p + 8 + u32le b (p + 4) + u32le b (p + 4) % 2) found := by
  obtain ⟨k, rfl⟩ : ∃ k, fuel = k + 1 := ⟨fuel - 1, by omega⟩
  rcases Nat.lt_or_ge stop (p + 8) with hp | hp
  · rw [scanChunks, if_pos hp, if_pos hp]
  · rw [scanChunks]
    simp only [scanChunks_succ_next hfuel hp (show p + 8 ≤ p + 8 + u32le b (p + 4) + u32le b (p + 4) % 2 by omega)]

theorem scanChunks_of_end (h : stop < p + 8) : scanChunks b stop fuel p found = .ok found := by
  rw [scanChunks_round hfuel, if_pos h]

theorem scanChunks_of_overrun (hp : p + 8 ≤ stop) (h : stop < p + 8 + u32le b (p + 4)) :
    scanChunks b stop fuel p found = .error ⟨.malformedContainer, 3⟩ := by
  rw [scanChunks_round hfuel, if_neg (by omega), if_pos h]

variable (hbody : p + 8 + u32le b (p + 4) ≤ stop)
include hbody

theorem scanChunks_of_fmt (htag : slice b p (p + 4) = tagFmt) :
    scanChunks b stop fuel p found =
      if found.fmt.isSome then .error ⟨.malformedContainer, 6⟩
      else scanChunks b stop fuel (p + 8 + u32le b (p + 4) + u32le b (p + 4) % 2)
        { found with fmt := some (p + 8, u32le b (p + 4)) } := by
  rw [scanChunks_round hfuel, if_neg (by omega), if_neg (by omega), if_pos htag]

theorem scanChunks_of_data (htag : slice b p (p + 4) = tagData) :
    scanChunks b stop fuel p found =
      if found.data.isSome then .error ⟨.malformedContainer, 7⟩
      else scanChunks b stop fuel (p + 8 + u32le b (p + 4) + u32le b (p + 4) % 2)
        { found with data := some (p + 8, u32le b (p + 4)) } := by
  rw [scanChunks_round hfuel, if_neg (by omega), if_neg (by omega), if_neg (htag ▸ tagData_ne_tagFmt), if_pos htag]

theorem scanChunks_of_other_tag (hfmt : slice b p (p + 4) ≠ tagFmt) (hdata : slice b p (p + 4) ≠ tagData) :
    scanChunks b stop fuel p found =
      scanChunks b stop fuel (p + 8 + u32le b (p + 4) + u32le b (p + 4) % 2) found := by
  rw [scanChunks_round hfuel, if_neg (by omega), if_neg (by omega), if_neg hfmt, if_neg hdata]

end

/-! ### The format check (41_sample_buffer.md R150, R154, R155) -/

section
variable {b : List Byte} {fo fs base ds : Nat}

theorem viewOfChunks_of_short (h : fs < 16) :
    viewOfChunks b ⟨some (fo, fs), some (base, ds)⟩ = .error ⟨.malformedContainer, 8⟩ := if_pos h

variable (hfs : 16 ≤ fs)
include hfs

theorem viewOfChunks_of_not_pcm (h : u16le b fo ≠ 1) :
    viewOfChunks b ⟨some (fo, fs), some (base, ds)⟩ = .error ⟨.unsupportedFormat, 1⟩ :=
  (if_neg (Nat.not_lt.2 hfs)).trans (if_pos h)

variable (hpcm : u16le b fo = 1)
include hpcm

theorem viewOfChunks_of_not_mono (h : u16le b (fo + 2) ≠ 1) :
    viewOfChunks b ⟨some (fo, fs), some (base, ds)⟩ = .error ⟨.unsupportedFormat, 2⟩ :=
  (if_neg (Nat.not_lt.2 hfs)).trans ((if_neg (not_not.2 hpcm)).trans (if_pos h))

/-- What is left of the format check for one channel of PCM: the width. -/
theorem viewOfChunks_of_mono (hmono : u16le b (fo + 2) = 1) :
    viewOfChunks b ⟨some (fo, fs), some (base, ds)⟩ =
      if u16le b (fo + 14) = 8 then
        .ok (.opened base .eight (BitVec.ofNat 32 (ds / Depth.eight.bytes)) (BitVec.ofNat 32 (u32le b (fo + 4))))
      else if u16le b (fo + 14) = 16 then
        .ok (.opened base .sixteen (BitVec.ofNat 32 (ds / Depth.sixteen.bytes))
          (BitVec.ofNat 32 (u32le b (fo + 4))))
      else .error ⟨.unsupportedFormat, 3⟩ :=
  (if_neg (Nat.not_lt.2 hfs)).trans ((if_neg (not_not.2 hpcm)).trans (if_neg (not_not.2 hmono)))

end

/-! ### What OPEN, SEEK and READ leave unchanged (60_exceptions.md R267) -/

/-- Before it completes, each command of the sample port writes VIEW, SMP_POS and SMP_RAW at most. -/
theorem exec_samplePort_cases (s : State) :
    ∀ i ∈ [Instr.openView, .seek, .read], ∃ v p r,
      exec i s = .next { s with view := v, smpPos := p, smpRaw := r }.succeed ∨
      ∃ e, exec i s = .next (State.raise { s with view := v, smpPos := p, smpRaw := r } e) := by
  simp only [List.forall_mem_cons, List.not_mem_nil, false_imp_iff, implies_true, and_true]
  refine ⟨?openView, ?seek, ?read⟩
  case openView =>
    rcases execOpen_cases s with ⟨e, h, -⟩ | ⟨v, h, -⟩
    · exact ⟨_, _, _, .inr ⟨e, h⟩⟩
    · exact ⟨_, _, _, .inl h⟩
  case seek =>
    rcases execSeek_cases s with ⟨h, -⟩ | ⟨h, -⟩
    · exact ⟨_, _, _, .inr ⟨_, h⟩⟩
    · exact ⟨_, _, _, .inl h⟩
  case read =>
    rcases execRead_cases s with ⟨h, -⟩ | ⟨h, -⟩
    · exact ⟨_, _, _, .inr ⟨_, h⟩⟩
    · exact ⟨_, _, _, .inl h⟩

theorem exec_samplePort_frame (s : State) :
    ∀ i ∈ [Instr.openView, .seek, .read], ∃ t, exec i s = .next t ∧ SameHost s t ∧ SameOut s t ∧ SameSync s t ∧
      SameTones s t := by
  intro i hi
  obtain ⟨v, p, r, h | ⟨e, h⟩⟩ := exec_samplePort_cases s i hi <;>
    exact ⟨_, h, ⟨rfl, rfl, rfl, rfl, rfl, rfl, rfl, rfl, rfl, fun _ => rfl, rfl, rfl⟩, ⟨rfl, fun _ => rfl⟩,
      ⟨rfl, rfl, rfl, rfl, rfl, rfl, rfl⟩, ⟨rfl, rfl⟩⟩

theorem exec_openView_smpRaw {s t : State} (ht : exec .openView s = .next t) : t.smpRaw = s.smpRaw := by
  rcases execOpen_cases s with ⟨e, h, -⟩ | ⟨v, h, -⟩ <;> (cases h.symm.trans ht; rfl)

theorem exec_seek_view {s t : State} (ht : exec .seek s = .next t) : t.view = s.view ∧ t.smpRaw = s.smpRaw := by
  rcases execSeek_cases s with ⟨h, -⟩ | ⟨h, -⟩ <;> (cases h.symm.trans ht; exact ⟨rfl, rfl⟩)

theorem exec_read_view {s t : State} (ht : exec .read s = .next t) : t.view = s.view := by
  rcases execRead_cases s with ⟨h, -⟩ | ⟨h, -⟩ <;> (cases h.symm.trans ht; rfl)

theorem State.succeed_succeeded (s : State) : s.succeed.Succeeded := ⟨rfl, rfl, rfl, rfl, rfl⟩

/-! ### OPEN, SEEK and READ case by case (41_sample_buffer.md R158, R160, R161) -/

section
variable {s : State}

theorem exec_openView_of_inCap_lt (h : s.par.inCap < s.snap.inLen.toNat) :
    exec .openView s = .next (s.closeView.raise ⟨.capacityExceeded, 1⟩) := if_pos h

theorem exec_openView_of_parse_error {e : Err} (hcap : s.snap.inLen.toNat ≤ s.par.inCap)
    (h : parse (s.input s.snap.inLen.toNat) = .error e) :
    exec .openView s = .next (s.closeView.raise e) :=
  (if_neg (Nat.not_lt.2 hcap)).trans (by rw [h])

theorem exec_openView_of_parse_ok {v : View} (hcap : s.snap.inLen.toNat ≤ s.par.inCap)
    (h : parse (s.input s.snap.inLen.toNat) = .ok v) :
    exec .openView s = .next (s.setView v).succeed :=
  (if_neg (Nat.not_lt.2 hcap)).trans (by rw [h])

theorem exec_seek_of_count_le (h : s.view.count.toNat ≤ s.snap.arg.toNat) :
    exec .seek s = .next (s.raise ⟨.outOfRange, 1⟩) := if_pos h

theorem exec_seek_of_lt_count (h : s.snap.arg.toNat < s.view.count.toNat) :
    exec .seek s = .next { s with smpPos := s.snap.arg }.succeed := if_neg (Nat.not_le.2 h)

theorem exec_read_of_no_sample (h : s.view = .closed ∨ s.view.count.toNat ≤ s.smpPos.toNat) :
    exec .read s = .next (s.raise ⟨.outOfRange, 2⟩) := if_pos h

/-- A cursor before the last sample means an open view: a closed one counts 0 samples (10_state.md R44). -/
theorem exec_read_of_lt_count (h : s.smpPos.toNat < s.view.count.toNat) :
    exec .read s =
      .next { s with smpRaw := rawOfCode (s.code s.smpPos.toNat), smpPos := s.smpPos + 1 }.succeed := by
  refine if_neg (not_or.2 ⟨fun hclosed => ?_, Nat.not_le.2 h⟩)
  rw [hclosed] at h
  exact absurd h (Nat.not_lt_zero _)

/-- The cursor does not wrap: it stays at most SMP_COUNT. -/
theorem toNat_succ_of_lt {p count : Word} (h : p.toNat < count.toNat) : (p + 1).toNat = p.toNat + 1 := by
  have := count.isLt
  exact BitVec.toNat_add_of_lt (show p.toNat + 1 < 2 ^ 32 by omega)

end

/-! ### Codes and SMP_RAW (10_state.md R37; 41_sample_buffer.md R149) -/

theorem rawOfCode_toNat (b : Byte) : rawOfCode b.toNat = b.setWidth 32 := by
  rw [rawOfCode, BitVec.ofInt_natCast, BitVec.ofNat_toNat]

theorem rawOfCode_toInt (x : BitVec 16) : rawOfCode x.toInt = x.signExtend 32 := rfl

/-- A code of either width is a number of 32 bits with sign. -/
theorem toInt_rawOfCode {c : Int} (hlo : -32768 ≤ c) (hhi : c ≤ 32767) : (rawOfCode c).toInt = c := by
  rw [rawOfCode, BitVec.toInt_ofInt, Int.bmod_eq_of_le] <;> omega

theorem codeAt_bounds (m : Memory) (base : Nat) (depth : Depth) (i : Nat) :
    -32768 ≤ codeAt m base depth i ∧ codeAt m base depth i ≤ 32767 := by
  cases depth with
  | eight =>
    have : codeAt m base .eight i = (m.read (base + i)).toNat := rfl
    have := (m.read (base + i)).isLt
    omega
  | sixteen => exact ⟨BitVec.le_toInt _, BitVec.toInt_le⟩

theorem State.code_opened {s : State} {base : Nat} {depth : Depth} {count rate : Word}
    (h : s.view = .opened base depth count rate) (i : Nat) : s.code i = codeAt s.inBuf base depth i := by
  rw [State.code, h]

theorem State.sample_opened {s : State} {base : Nat} {depth : Depth} {count rate : Word}
    (h : s.view = .opened base depth count rate) (i : Nat) : s.sample i = norm depth (s.code i) := by
  rw [s.code_opened h, State.sample, h]

/-- SMP_RAW as a signed number is the code. -/
theorem State.toInt_rawOfCode_code (s : State) (i : Nat) : (rawOfCode (s.code i)).toInt = s.code i := by
  cases hv : s.view with
  | closed => rw [State.code, hv]; rfl
  | opened base depth count rate =>
    obtain ⟨hlo, hhi⟩ := codeAt_bounds s.inBuf base depth i
    rw [s.code_opened hv, toInt_rawOfCode hlo hhi]

/-! ### The obligations -/

/-- Settles O17: the maps' equations and listed values, and each quantiser scaling a normalised code back to the code
and a half, whose floor is the code. -/
theorem quantisersInvertNormalisation : Obligations.QuantisersInvertNormalisation := by
  obtain ⟨h0, h255, h127, h128⟩ := norm8_values
  obtain ⟨hmin, hmax⟩ := norm16_values
  obtain ⟨h8lo, h8mid, h8hi, h16lo, h16mid, h16hi⟩ := quantiser_values
  exact ⟨norm8_eq, h0, h255, h127, h128, norm8_ne_zero, fun _ => norm16_of_neg, fun _ => norm16_of_nonneg, hmin, hmax,
    h8lo, h8mid, h8hi, h16lo, h16mid, h16hi, fun _ => q8_norm8, fun _ => q16_norm16⟩

/-- Settles O18: each header field is at its offset and reads back as its number; the codes by `container_sample`. -/
theorem containerLayout : Obligations.ContainerLayout := by
  intro rate depth codes bps db c hrate hbyteRate hdb
  have hbps : depth.bytes = bps := by cases depth <;> rfl
  have hbits : depth.bits = 8 * bps := by cases depth <;> rfl
  have hle : bps ≤ 2 := by cases depth <;> decide
  obtain ⟨hriff, hsize, hwave, hfmt, hfmtSize, hformat, hchannels, hrateField, hbyteRateField, hframe, hbitsField,
    hdata, hdataSize⟩ := container_header_fields rate depth codes
  rw [hbps] at hsize hbyteRateField hframe hdataSize
  rw [hbits] at hbitsField
  refine ⟨(length_container rate depth codes).trans (by rw [hbps]), hriff, hsize.trans (u32le_le32 hdb), hwave, hfmt,
    hfmtSize, hformat, hchannels, hrateField.trans (u32le_le32 hrate), hbyteRateField.trans (u32le_le32 hbyteRate),
    hframe.trans (u16le_le16 (by omega)), hbitsField.trans (u16le_le16 (by omega)), hdata,
    hdataSize.trans (u32le_le32 (by omega)), fun j hj => ?codes⟩
  case codes =>
    obtain ⟨height, hsixteen⟩ := container_sample rate hj
    cases depth with
    | eight => exact height
    | sixteen => exact hsixteen

/-- Settles O19: one lemma for each check of the header, of a round of the scan, and of the two chunks found. -/
theorem parseFollowsTheRule : Obligations.ParseFollowsTheRule := by
  refine ⟨fun b => ?header, fun b stop p fuel found hfuel => ?scan, fun b d => rfl, fun b f => rfl,
    fun b fo fs base ds => ?format⟩
  case header =>
    exact ⟨parse_of_bad_magic, fun hlen hriff => ⟨parse_of_bad_form hlen hriff, fun hwave =>
      ⟨parse_of_overrun hlen hriff hwave, parse_of_header hlen hriff hwave⟩⟩⟩
  case scan =>
    refine ⟨scanChunks_of_end hfuel, scanChunks_of_overrun hfuel, fun hbody =>
      ⟨fun htag => ⟨fun hsome => ?_, fun hnone => ?_⟩, fun htag => ⟨fun hsome => ?_, fun hnone => ?_⟩,
        scanChunks_of_other_tag hfuel hbody⟩⟩
    · rw [scanChunks_of_fmt hfuel hbody htag, if_pos (Option.isSome_iff_ne_none.2 hsome)]
    · rw [scanChunks_of_fmt hfuel hbody htag, if_neg (by simp [hnone])]
    · rw [scanChunks_of_data hfuel hbody htag, if_pos (Option.isSome_iff_ne_none.2 hsome)]
    · rw [scanChunks_of_data hfuel hbody htag, if_neg (by simp [hnone])]
  case format =>
    refine ⟨viewOfChunks_of_short, fun hfs => ⟨viewOfChunks_of_not_pcm hfs, viewOfChunks_of_not_mono hfs,
      fun hpcm hmono => ⟨fun h8 h16 => ?_, fun h8 => ?_, fun h16 => ?_⟩⟩⟩
    · rw [viewOfChunks_of_mono hfs hpcm hmono, if_neg h8, if_neg h16]
    · rw [viewOfChunks_of_mono hfs hpcm hmono, if_pos h8, show Depth.eight.bytes = 1 from rfl, Nat.div_one]
    · rw [viewOfChunks_of_mono hfs hpcm hmono, if_neg (by omega), if_pos h16, show Depth.sixteen.bytes = 2 from rfl]

/-- Settles O21: the frame of the sample port, and one lemma for each way OPEN ends. -/
theorem openAppliesTheParse : Obligations.OpenAppliesTheParse := by
  intro s
  obtain ⟨t, ht, hhost, hout, hsync, htones⟩ := exec_samplePort_frame s .openView (by decide)
  refine ⟨t, ht, hhost, hout, exec_openView_smpRaw ht, hsync, htones, fun h => ?capacity,
    fun hcap => ⟨fun e h => ?error, fun v h => ?success⟩⟩
  case capacity =>
    cases (exec_openView_of_inCap_lt h).symm.trans ht
    exact ⟨s.closeView.raise_failedWith _, rfl, rfl⟩
  case error =>
    cases (exec_openView_of_parse_error hcap h).symm.trans ht
    exact ⟨s.closeView.raise_failedWith e, rfl, rfl⟩
  case success =>
    cases (exec_openView_of_parse_ok hcap h).symm.trans ht
    exact ⟨(s.setView v).succeed_succeeded, rfl, rfl⟩

/-- Settles O22: SEEK's two ends; a closed view counts 0 samples, so every index is beyond it. -/
theorem seekMovesTheCursor : Obligations.SeekMovesTheCursor := by
  intro s
  obtain ⟨t, ht, hhost, hout, hsync, htones⟩ := exec_samplePort_frame s .seek (by decide)
  obtain ⟨hview, hraw⟩ := exec_seek_view ht
  have hfail (h : s.view.count.toNat ≤ s.snap.arg.toNat) : t.FailedWith 6 1 ∧ t.smpPos = s.smpPos := by
    cases (exec_seek_of_count_le h).symm.trans ht
    exact ⟨s.raise_failedWith _, rfl⟩
  refine ⟨t, ht, hhost, hout, hview, hraw, hsync, htones, hfail, fun hclosed => ?closed, fun h => ?success⟩
  case closed =>
    have hcount : s.view.count = 0 := congrArg View.count hclosed
    exact (hfail (hcount ▸ Nat.zero_le _)).1
  case success =>
    cases (exec_seek_of_lt_count h).symm.trans ht
    exact ⟨State.succeed_succeeded _, rfl⟩

/-- Settles O23: READ's two ends, and the code in SMP_RAW for each width. -/
theorem readReturnsTheCode : Obligations.ReadReturnsTheCode := by
  intro s
  obtain ⟨t, ht, hhost, hout, hsync, htones⟩ := exec_samplePort_frame s .read (by decide)
  have hok {base : Nat} {depth : Depth} {count rate : Word} (hv : s.view = .opened base depth count rate)
      (h : s.smpPos.toNat < count.toNat) :
      t.Succeeded ∧ t.smpPos.toNat = s.smpPos.toNat + 1 ∧
        t.smpRaw = rawOfCode (codeAt s.inBuf base depth s.smpPos.toNat) := by
    have hcount : s.view.count = count := congrArg View.count hv
    cases (exec_read_of_lt_count (hcount ▸ h)).symm.trans ht
    exact ⟨State.succeed_succeeded _, toNat_succ_of_lt h, congrArg rawOfCode (s.code_opened hv _)⟩
  refine ⟨t, ht, hhost, hout, exec_read_view ht, hsync, htones, fun h => ?failure, fun base count rate hv h => ?eight,
    fun base count rate hv h => ?sixteen⟩
  case failure =>
    cases (exec_read_of_no_sample h).symm.trans ht
    exact ⟨s.raise_failedWith _, rfl, rfl⟩
  case eight =>
    rw [← rawOfCode_toNat]
    exact hok hv h
  case sixteen =>
    rw [← rawOfCode_toInt]
    exact hok hv h

/-- Settles O24: SEEK leaves a state in which READ finds the sample at the index, with VIEW and IN as they were. -/
theorem seekThenRead : Obligations.SeekThenRead := by
  intro s
  obtain ⟨t, ht, -, -, -, -, -, -, hfail, -, -⟩ := seekMovesTheCursor s
  refine ⟨t, ht, fun h => (hfail h).1, fun h => ?_⟩
  cases (exec_seek_of_lt_count h).symm.trans ht
  refine ⟨State.succeed_succeeded _, _, exec_read_of_lt_count h, State.succeed_succeeded _, toNat_succ_of_lt h,
    s.toInt_rawOfCode_code _, fun base depth count rate hv => ?_⟩
  exact (congrArg (norm depth) (s.toInt_rawOfCode_code _)).trans (s.sample_opened hv _).symm

end Sys2Proof.Machine
end

section
/-! PROOFS. MODULATE: its configuration checks, its sample list window by window, and its result on every input: O25,
O26 (spec/42_modulator.md). -/

namespace Sys2Proof.Machine

/-! ### The configuration, check by check (42_modulator.md R180) -/

theorem depthOf_of_bits {b : Byte} {depth : Depth} (h : b.toNat = depth.bits) : depthOf b = some depth := by
  cases depth with
  | eight => exact if_pos (BitVec.eq_of_toNat_eq h)
  | sixteen =>
    cases BitVec.eq_of_toNat_eq (y := 16#8) h
    rfl

theorem depthOf_of_other {b : Byte} (h8 : b.toNat ≠ 8) (h16 : b.toNat ≠ 16) : depthOf b = none :=
  (if_neg (h8 <| congrArg BitVec.toNat ·)).trans (if_neg (h16 <| congrArg BitVec.toNat ·))

theorem exists_depth_bits {bits : Nat} (h : bits = 8 ∨ bits = 16) : ∃ depth : Depth, bits = depth.bits := by
  rcases h with h | h
  · exact ⟨.eight, h⟩
  · exact ⟨.sixteen, h⟩

section
variable {par : Params} {p : Snapshot}

theorem modulateConfig_of_inCap_lt (h : par.inCap < p.inLen.toNat) :
    modulateConfig par p = .error ⟨.capacityExceeded, 1⟩ := if_pos h

variable (hcap : p.inLen.toNat ≤ par.inCap)
include hcap

theorem modulateConfig_of_baudRate_zero (h : p.baudRate = 0) :
    modulateConfig par p = .error ⟨.configInvalid, 1⟩ := (if_neg (by omega)).trans (if_pos h)

variable (hbaud : p.baudRate ≠ 0)
include hbaud

theorem modulateConfig_of_rate_lt_baud (h : p.sampleRate.toNat < p.baudRate.toNat) :
    modulateConfig par p = .error ⟨.configInvalid, 2⟩ :=
  (if_neg (by omega)).trans ((if_neg hbaud).trans (if_pos (Nat.div_eq_of_lt h)))

variable (hrate : p.baudRate.toNat ≤ p.sampleRate.toNat)
include hrate

/-- What is left of the configuration check once N is known to be at least 1: the width and the byte rate. -/
theorem modulateConfig_of_rate :
    modulateConfig par p =
      match depthOf p.modCfg.bitsPerSample with
      | none => .error ⟨.configInvalid, 3⟩
      | some depth =>
        if 2 ^ 32 - 1 < p.sampleRate.toNat * depth.bytes then .error ⟨.configInvalid, 4⟩
        else .ok (p.sampleRate.toNat / p.baudRate.toNat, depth) := by
  have hpos : 0 < p.baudRate.toNat := Nat.pos_of_ne_zero (hbaud <| BitVec.eq_of_toNat_eq ·)
  exact (if_neg (by omega)).trans ((if_neg hbaud).trans (if_neg (Nat.div_pos hrate hpos).ne'))

theorem modulateConfig_of_other_width (h8 : p.modCfg.bitsPerSample.toNat ≠ 8)
    (h16 : p.modCfg.bitsPerSample.toNat ≠ 16) : modulateConfig par p = .error ⟨.configInvalid, 3⟩ := by
  rw [modulateConfig_of_rate hcap hbaud hrate, depthOf_of_other h8 h16]

variable {depth : Depth} (hbits : p.modCfg.bitsPerSample.toNat = depth.bits)
include hbits

theorem modulateConfig_of_byteRate (h : 2 ^ 32 - 1 < p.sampleRate.toNat * depth.bytes) :
    modulateConfig par p = .error ⟨.configInvalid, 4⟩ := by
  rw [modulateConfig_of_rate hcap hbaud hrate, depthOf_of_bits hbits]
  exact if_pos h

theorem modulateConfig_of_valid (h : p.sampleRate.toNat * depth.bytes ≤ 2 ^ 32 - 1) :
    modulateConfig par p = .ok (p.sampleRate.toNat / p.baudRate.toNat, depth) := by
  rw [modulateConfig_of_rate hcap hbaud hrate, depthOf_of_bits hbits]
  exact if_neg (by omega)

end

/-! ### The sample list, window by window (42_modulator.md R185 to R187) -/

/-- A list made of pieces of one length, place by place. -/
theorem getElem?_flatMap_range {α : Type} {f : Nat → List α} {n : Nat} (hf : ∀ q, (f q).length = n) {m j : Nat}
    (hj : j < n * m) : ((List.range m).flatMap f)[j]? = (f (j / n))[j % n]? := by
  induction m with
  | zero => exact absurd hj (Nat.not_lt_zero j)
  | succ m ih =>
    have hlen : ((List.range m).flatMap f).length = n * m := by simp [List.length_flatMap, hf, Nat.mul_comm]
    rw [List.range_succ, List.flatMap_append, List.flatMap_singleton]
    rcases lt_or_ge j (n * m) with hlt | hge
    · rw [List.getElem?_append_left (hlen ▸ hlt), ih hlt]
    · have hlast : j - n * m < n := by rw [Nat.mul_succ] at hj; omega
      have hdiv : j / n = m := Nat.div_eq_of_lt_le (by rwa [Nat.mul_comm]) (by rwa [Nat.mul_comm])
      have hmod : j % n = j - n * m := by rw [← hdiv]; exact Nat.mod_eq_sub_mul_div
      rw [List.getElem?_append_right (hlen ▸ hge), hlen, hdiv, hmod]

section
variable (leader : Nat) (byte : Nat → Byte)

theorem windowBit_of_leader {q : Nat} (h : q < leader) : windowBit leader byte q = 1 := if_pos h

/-- Past the leader, window `w` of byte `l` depends on that byte alone. -/
theorem windowBit_of_frame (l : Nat) {w : Nat} (hw : w < 12) :
    windowBit leader byte (leader + 12 * l + w) = windowBit 0 (fun _ => byte l) w := by
  have hsub : leader + 12 * l + w - leader = 12 * l + w := by omega
  have hmod : (12 * l + w) % 12 = w := by omega
  have hdiv : (12 * l + w) / 12 = l := by omega
  simp [windowBit, show ¬leader + 12 * l + w < leader by omega, hsub, hmod, hdiv, Nat.mod_eq_of_lt hw]

variable (table : Nat → List Int)

/-- A byte's frame is twelve windows, each the table of its bit (R186). -/
theorem frame_eq_flatMap_windowBit (e : Byte) :
    frame (table 0) (table 1) e = (List.range 12).flatMap fun w => table (windowBit 0 (fun _ => e) w) := by
  have hbit (k : Nat) : bitTable (table 0) (table 1) (e.getLsbD k) = table (if e.getLsbD k then 1 else 0) := by
    cases e.getLsbD k <;> rfl
  simp [frame, hbit, windowBit, List.range, List.range.loop]

/-- The sample list is one table a window (R187). -/
theorem sampleList_eq_flatMap_windowBit (n : Nat) :
    sampleList (table 0) (table 1) leader ((List.range n).map byte) =
      (List.range (leader + 12 * n)).flatMap fun q => table (windowBit leader byte q) := by
  induction n with
  | zero =>
    have hleader : ∀ q ∈ List.range leader, table (windowBit leader byte q) = table 1 := fun q hq =>
      congrArg table (windowBit_of_leader leader byte (List.mem_range.1 hq))
    rw [Nat.mul_zero, Nat.add_zero, List.flatMap_congr hleader]
    simp [sampleList, List.flatMap_def, List.map_const']
  | succ n ih =>
    have hframe : ∀ w ∈ List.range 12, table (windowBit leader byte (leader + 12 * n + w)) =
        table (windowBit 0 (fun _ => byte n) w) := fun w hw =>
      congrArg table (windowBit_of_frame leader byte n (List.mem_range.1 hw))
    calc sampleList (table 0) (table 1) leader ((List.range (n + 1)).map byte)
        = sampleList (table 0) (table 1) leader ((List.range n).map byte) ++
            frame (table 0) (table 1) (byte n) := by
          simp [sampleList, List.range_succ]
      _ = (List.range (leader + 12 * (n + 1))).flatMap fun q => table (windowBit leader byte q) := by
          rw [Nat.mul_succ, ← Nat.add_assoc, List.range_add, List.flatMap_append, List.flatMap_map,
            List.flatMap_congr hframe, ih, frame_eq_flatMap_windowBit]

end

theorem State.input_eq_map (s : State) (n : Nat) : s.input n = (List.range n).map s.inBuf.read := by
  simp [State.input, Memory.readRange]

section
variable (s : State) (reverse : Bool) (depth : Depth) (n leader len : Nat)

/-- The sample list MODULATE writes. -/
def State.modulatedCodes : List Int :=
  sampleList (toneTable s.par reverse depth n 0) (toneTable s.par reverse depth n 1) leader (s.input len)

theorem State.length_modulatedCodes :
    (s.modulatedCodes reverse depth n leader len).length = n * (leader + 12 * len) := by
  rw [State.modulatedCodes, length_sampleList _ _ n (length_toneTable ..) (length_toneTable ..), State.length_input]

/-- The code at each place is the tone table's entry for its window's bit (R183, R187). -/
theorem State.getD_modulatedCodes {j : Nat} (hj : j < n * (leader + 12 * len)) :
    (s.modulatedCodes reverse depth n leader len).getD j 0 =
      toneCode s.par reverse depth n (windowBit leader s.inBuf.read (j / n)) (j % n) := by
  have hn : 0 < n := Nat.pos_of_mul_pos_right (Nat.zero_lt_of_lt hj)
  rw [State.modulatedCodes, s.input_eq_map, sampleList_eq_flatMap_windowBit _ _ (toneTable s.par reverse depth n),
    List.getD_eq_getElem?_getD, getElem?_flatMap_range (fun _ => length_toneTable ..) hj]
  simp [toneTable, Nat.mod_lt _ hn]

end

/-! ### How MODULATE ends (42_modulator.md R188) -/

section
variable {s : State}

theorem exec_modulate_of_config_error {e : Err} (h : modulateConfig s.par s.snap = .error e) :
    exec .modulate s = .next (s.raiseOut e) := by
  rcases execModulate_cases s with ⟨e', hexec, he⟩ | ⟨n, d, hok, -⟩
  · cases h.symm.trans he
    exact hexec
  · cases h.symm.trans hok

variable {n leader : Nat} {depth : Depth} (hok : modulateConfig s.par s.snap = .ok (n, depth))
  (hleader : leader = leaderCycles s.snap.sampleRate.toNat s.snap.syncMs.toNat n)
include hok hleader

theorem exec_modulate_of_outCap_lt
    (h : s.par.outCap < 44 + n * (leader + 12 * s.snap.inLen.toNat) * depth.bytes) :
    exec .modulate s =
      .next ((s.setTones s.snap.modCfg.reversePhase depth n).dropTones.raiseOut ⟨.capacityExceeded, 2⟩) := by
  subst hleader
  rcases execModulate_cases s with ⟨e, -, he⟩ | ⟨n', d', hok', ⟨hexec, -⟩ | ⟨c, -, -, hlen, hfits⟩⟩
  · cases hok.symm.trans he
  · cases hok.symm.trans hok'
    exact hexec
  · cases hok.symm.trans hok'
    omega

theorem exec_modulate_of_fits
    (h : 44 + n * (leader + 12 * s.snap.inLen.toNat) * depth.bytes ≤ s.par.outCap) :
    exec .modulate s =
      .next ((s.setTones s.snap.modCfg.reversePhase depth n).dropTones.yieldOut
        (container s.snap.sampleRate.toNat depth
          (s.modulatedCodes s.snap.modCfg.reversePhase depth n leader s.snap.inLen.toNat))) := by
  subst hleader
  rcases execModulate_cases s with ⟨e, -, he⟩ | ⟨n', d', hok', ⟨-, hlt⟩ | ⟨c, rfl, hexec, -⟩⟩
  · cases hok.symm.trans he
  · cases hok.symm.trans hok'
    omega
  · cases hok.symm.trans hok'
    exact hexec

end

/-- MODULATE changes only STATUS, OUT, OUT_LEN and the tone tables. -/
theorem exec_modulate_onlyOut (s : State) : ∃ t, exec .modulate s = .next t ∧ OnlyOut s t := by
  rcases execModulate_cases s with ⟨e, h, -⟩ | ⟨n, d, -, ⟨h, -⟩ | ⟨c, -, h, -⟩⟩ <;>
    exact ⟨_, h, (exec_frame .modulate s _ (by decide) h).sameHost, ⟨rfl, rfl⟩, rfl,
      ⟨rfl, rfl, rfl, rfl, rfl, rfl, rfl⟩⟩

/-! ### The obligations -/

/-- Settles O25: one lemma a check; the error is raised before the tone tables are touched. -/
theorem modulateConfigurationChecks : Obligations.ModulateConfigurationChecks := by
  rintro s _ _ rfl rfl
  obtain ⟨t, ht, honly⟩ := exec_modulate_onlyOut s
  have hfails {e : Err} (h : modulateConfig s.par s.snap = .error e) :
      t.FailedWith e.kind.code e.detail ∧ t.outLen = 0 ∧ SameTones s t := by
    cases (exec_modulate_of_config_error h).symm.trans ht
    obtain ⟨hfailed, hlen⟩ := s.raiseOut_failedWith e
    exact ⟨hfailed, hlen, s.finishOut_sameTones (.error e)⟩
  refine ⟨t, ht, honly, fun h => hfails (modulateConfig_of_inCap_lt h), fun hcap =>
    ⟨fun h => hfails (modulateConfig_of_baudRate_zero hcap h), fun hbaud =>
      ⟨fun h => hfails (modulateConfig_of_rate_lt_baud hcap hbaud h), fun hrate =>
        ⟨fun h8 h16 => hfails (modulateConfig_of_other_width hcap hbaud hrate h8 h16), fun hwidth h => ?_⟩⟩⟩⟩
  obtain ⟨depth, hbits⟩ := exists_depth_bits hwidth
  rw [hbits] at h
  exact hfails (modulateConfig_of_byteRate hcap hbaud hrate hbits h)

/-- Settles O26: one lemma a check; past them, the container's length and its codes window by window. -/
theorem modulateWritesTheContainer : Obligations.ModulateWritesTheContainer := by
  rintro s _ _ hpar rfl rfl firstError
  obtain ⟨t, ht, honly⟩ := exec_modulate_onlyOut s
  have hfails {e : Err} (h : modulateConfig s.par s.snap = .error e) :
      t.FailedWith e.kind.code e.detail ∧ t.outLen = 0 := failedWith_of_exec ht (exec_modulate_of_config_error h)
  refine ⟨t, ht, honly, fun e he => ?failure,
    fun depth n leader samples size hnone hdepth hn hleader hsamples hsize => ?passed⟩
  case failure =>
    simp only [firstError] at he
    split_ifs at he with hcap hbaud hrate hother hbyteRate <;> cases he
    · exact hfails (modulateConfig_of_inCap_lt hcap)
    · exact hfails (modulateConfig_of_baudRate_zero (by omega) hbaud)
    · exact hfails (modulateConfig_of_rate_lt_baud (by omega) hbaud hrate)
    · exact hfails (modulateConfig_of_other_width (by omega) hbaud (by omega) hother.1 hother.2)
    · obtain ⟨depth, hbits⟩ := exists_depth_bits (bits := s.snap.modCfg.bitsPerSample.toNat) (by omega)
      rw [hbits] at hbyteRate
      exact hfails (modulateConfig_of_byteRate (by omega) hbaud (by omega) hbits hbyteRate)
  case passed =>
    have hok : modulateConfig s.par s.snap = .ok (n, depth) := by
      simp only [firstError] at hnone
      split_ifs at hnone with hcap hbaud hrate hother hbyteRate
      rw [hdepth] at hbyteRate
      exact hn ▸ modulateConfig_of_valid (by omega) hbaud (by omega) hdepth (Nat.le_of_not_lt hbyteRate)
    have hlen := s.length_modulatedCodes s.snap.modCfg.reversePhase depth n leader s.snap.inLen.toNat
    rw [← hsamples] at hlen
    rw [hdepth] at hsize
    subst hsamples
    refine ⟨fun h => ?overflow, fun h => ?fits⟩
    case overflow =>
      cases (exec_modulate_of_outCap_lt hok hleader (hsize ▸ h)).symm.trans ht
      exact State.raiseOut_failedWith _ _
    case fits =>
      cases (exec_modulate_of_fits hok hleader (hsize ▸ h)).symm.trans ht
      have hcontainer : (container s.snap.sampleRate.toNat depth
          (s.modulatedCodes s.snap.modCfg.reversePhase depth n leader s.snap.inLen.toNat)).length = size := by
        rw [length_container, hlen, hsize, Depth.bytes]
      refine ⟨State.yieldOut_succeeded _ _, ?_, _, hlen, fun a ha => State.read_yieldOut _ _ _ (hcontainer ▸ ha),
        fun j hj => s.getD_modulatedCodes _ _ _ _ _ hj⟩
      rw [State.outLen_yieldOut _ _ (by omega), hcontainer]

end Sys2Proof.Machine
end

section
/-! PROOFS. The demodulator: FIND's three searches, what DETECT reports, one step of the bit synchroniser, and the block
boundaries with the only violations DEMODULATE can report: O31, O32, O34, O36 (spec/43_demodulator.md). -/

namespace Sys2Proof.Machine

/-! ### The threshold and the sign of a cycle (43_demodulator.md R211) -/

theorem thresh_eq : Config.thresh = mkRat 1 5 := rfl

theorem exceeds_iff (x : Rat) : exceeds x = true ↔ Config.thresh < |x| := by
  simp only [exceeds, Bool.or_eq_true, decide_eq_true_eq, lt_abs, lt_neg]

theorem exceeds_eq_false_iff (x : Rat) : exceeds x = false ↔ |x| ≤ Config.thresh := by
  rw [← Bool.not_eq_true, exceeds_iff, not_lt]

/-- The sign is 1 or -1, so it keeps a sample's size. -/
theorem abs_signOf_mul (x y : Rat) : |signOf x * y| = |y| := by
  rw [signOf]
  split
  · rw [one_mul]
  · rw [neg_one_mul, abs_neg]

/-! ### FIND (43_demodulator.md R212) -/

/-- A search that has an index to find finds one no later. -/
theorem exists_leastIn_eq_some {p : Nat → Bool} {start stop i : Nat} (hstart : start ≤ i) (hstop : i < stop)
    (hp : p i = true) : ∃ j ≤ i, leastIn p start stop = some j := by
  cases h : leastIn p start stop with
  | none =>
    have hnot := (leastIn_eq_none p start stop).1 h i hstart hstop
    cases hp.symm.trans hnot
  | some j =>
    obtain ⟨-, -, -, hleast⟩ := (leastIn_eq_some p start stop j).1 h
    refine ⟨j, Nat.le_of_not_lt fun hlt => ?_, rfl⟩
    cases hp.symm.trans (hleast i hstart hlt)

section
variable {sample : Nat → Rat} {count p a m e : Nat}

/-- FIND is three searches, each from the index after the one before. -/
theorem findTriple_eq_some_iff :
    findTriple sample count p = some (a, m, e) ↔
      leastIn (fun i => exceeds (sample i)) p count = some a ∧
      leastIn (fun i => decide (signOf (sample a) * sample i < -Config.thresh)) (a + 1) count = some m ∧
      leastIn (fun i => decide (Config.thresh < signOf (sample a) * sample i)) (m + 1) count = some e := by
  unfold findTriple
  constructor
  · intro h
    split at h
    · cases h
    next ha =>
      dsimp only at h
      split at h
      · cases h
      next hm =>
        split at h
        · cases h
        next he =>
          cases h
          exact ⟨ha, hm, he⟩
  · rintro ⟨ha, hm, he⟩
    simp only [ha, hm, he]

/-- A triple's last sample exceeds the threshold (43_demodulator.md R213). -/
theorem findTriple_end_exceeds (h : findTriple sample count p = some (a, m, e)) : Config.thresh < |sample e| := by
  obtain ⟨-, -, he⟩ := findTriple_eq_some_iff.1 h
  obtain ⟨-, -, hcross, -⟩ := (leastIn_eq_some _ _ _ _).1 he
  calc Config.thresh < signOf (sample a) * sample e := of_decide_eq_true hcross
    _ ≤ |signOf (sample a) * sample e| := le_abs_self _
    _ = |sample e| := abs_signOf_mul _ _

end

/-! ### DETECT (43_demodulator.md R213, R214) -/

/-- Whatever DETECT reports, it leaves the cursor at a sample index or at the sample count. -/
theorem detect_smpPos_le (s : State) : (detect s).2.smpPos ≤ s.view.count := by
  cases h : findTriple s.sample s.view.count.toNat s.smpPos.toNat with
  | none =>
    rw [detect_none s h]
    exact BitVec.le_refl _
  | some r =>
    obtain ⟨a, m, e⟩ := r
    obtain ⟨-, -, -, hend⟩ := findTriple_bounds _ _ _ _ _ _ h
    rw [detect_some s a m e h, BitVec.le_def, detect_pos_toNat s a m e h]
    exact hend.le

/-- DETECT returns CYCLE and EOB only inside a block (43_demodulator.md R229). -/
theorem inBlock_of_detect {s : State} {a l : Nat} (h : (detect s).1 = .cycle a l ∨ (detect s).1 = .eob) :
    s.inBlock = true := by
  by_contra hout
  cases hfind : findTriple s.sample s.view.count.toNat s.smpPos.toNat with
  | none => simp [detect_none s hfind, hout] at h
  | some r =>
    obtain ⟨b, m, e⟩ := r
    simp [detect_some s b m e hfind, hout] at h

/-! ### The bit synchroniser (43_demodulator.md R221 to R225) -/

theorem ne_zero_of_odd {h : BitVec 5} (hodd : h.toNat % 2 = 1) : h ≠ 0 := by
  rintro rfl
  cases hodd

theorem getLsbD_zero_eq_true_iff (h : BitVec 5) : h.getLsbD 0 = true ↔ h.toNat % 2 = 1 := by
  rw [BitVec.getLsbD, Nat.testBit_zero, decide_eq_true_iff]

/-- One half unit more turns odd into even and even into odd, at 31 too. -/
theorem getLsbD_zero_add_one_eq_true_iff (h : BitVec 5) : (h + 1).getLsbD 0 = true ↔ h.toNat % 2 = 0 := by
  rw [getLsbD_zero_eq_true_iff]
  bv_omega

section
variable {s : State}

theorem State.completeByte_of_full (h : s.halfUnits = 18) :
    s.completeByte =
      { s with
        bytes := s.bytes ++ [s.workingByte], demodBytes := s.demodBytes + 1, halfUnits := 0, workingByte := 0 } :=
  if_pos h

theorem State.completeByte_of_partial (h : s.halfUnits ≠ 18) : s.completeByte = s := if_neg h

theorem sync_low_of_zero (h : s.halfUnits = 0) : sync true s = .ok { s with halfUnits := 2 } := if_pos h

theorem sync_high_of_zero (h : s.halfUnits = 0) : sync false s = .ok s := if_pos h

theorem sync_low_of_odd (hodd : s.halfUnits.toNat % 2 = 1) : sync true s = .error ⟨.protocolViolation, 1⟩ :=
  (if_neg (ne_zero_of_odd hodd)).trans (if_pos ((getLsbD_zero_eq_true_iff _).2 hodd))

theorem sync_low_of_even (h0 : s.halfUnits ≠ 0) (heven : s.halfUnits.toNat % 2 = 0) :
    sync true s =
      .ok { s with halfUnits := s.halfUnits + 2, workingByte := s.workingByte >>> 1 }.completeByte :=
  (if_neg h0).trans (if_neg (mt (getLsbD_zero_eq_true_iff _).1 (by omega)))

theorem sync_high_of_even (h0 : s.halfUnits ≠ 0) (heven : s.halfUnits.toNat % 2 = 0) :
    sync false s = .ok { s with halfUnits := s.halfUnits + 1 }.completeByte :=
  (if_neg h0).trans (if_pos ((getLsbD_zero_add_one_eq_true_iff _).2 heven))

theorem sync_high_of_odd (hodd : s.halfUnits.toNat % 2 = 1) :
    sync false s =
      .ok { s with
        halfUnits := s.halfUnits + 1, workingByte := (s.workingByte >>> 1) ||| 0x80 }.completeByte :=
  (if_neg (ne_zero_of_odd hodd)).trans (if_neg (mt (getLsbD_zero_add_one_eq_true_iff _).1 (by omega)))

end

/-! ### The violations DEMODULATE reports (43_demodulator.md R229, R230) -/

theorem ErrKind.eq_protocolViolation_of_code {k : ErrKind} (h : k.code = 5) : k = .protocolViolation := by
  revert h
  cases k <;> decide

/-- An error DEMODULATE ends with, when it is a protocol violation, is one of the two of the loop: PARSE, the envelope
check and the capacity checks raise errors of other kinds. -/
theorem exec_demodulate_violation {s t : State} (h : exec .demodulate s = .next t) (hcode : t.errCode = 5) :
    t.errDetail = 1 ∨ t.errDetail = 2 := by
  rcases execDemodulate_cases s with ⟨e, hexec, he⟩ | ⟨v, -, -, -, hexec⟩
  · cases hexec.symm.trans h
    have hkind := ErrKind.eq_protocolViolation_of_code hcode
    rcases he with rfl | rfl | hparse
    · cases hkind
    · cases hkind
    · rcases parse_error _ _ hparse with ⟨hk, -⟩ | ⟨hk, -⟩ <;> cases hk.symm.trans hkind
  · cases hexec.symm.trans h
    rcases finishDemod_cases (demodLoop (v.count.toNat + 1) (s.clearDemod.setView v)).1
        (demodLoop (v.count.toNat + 1) (s.clearDemod.setView v)).2 with ⟨e, hfin, he⟩ | ⟨hfin, -⟩
    · rw [hfin] at hcode ⊢
      have hkind := ErrKind.eq_protocolViolation_of_code hcode
      rcases he with hstream | ⟨-, henv⟩ | ⟨-, -, -, rfl⟩
      · rcases demodLoop_error _ _ _ hstream with rfl | rfl
        · exact .inl rfl
        · exact .inr rfl
      · rcases envCheck_error _ _ henv with rfl | rfl | rfl | rfl <;> cases hkind
      · cases hkind
    · rw [hfin] at hcode
      cases hcode

/-! ### The obligations -/

/-- Settles O31: FIND is three searches for a least index; where a triple exists none of the three can fail. -/
theorem findReturnsTheFirstTriple : Obligations.FindReturnsTheFirstTriple := by
  intro sample count p
  refine ⟨fun s m e => ?found, fun hnone s m e hs hm he hcount hexc hfirst hcross => ?absent, fun hno => ?none⟩
  case found =>
    simp only [← thresh_eq, findTriple_eq_some_iff, leastIn_eq_some, exceeds_iff, exceeds_eq_false_iff,
      decide_eq_true_eq, decide_eq_false_iff_not, not_lt, Nat.succ_le_iff]
  case absent =>
    by_contra hback
    have hstart : leastIn (fun i => exceeds (sample i)) p count = some s :=
      (leastIn_eq_some _ _ _ _).2 ⟨hs, by omega, (exceeds_iff _).2 hexc,
        fun i h1 h2 => (exceeds_eq_false_iff _).2 (hfirst i h1 h2)⟩
    obtain ⟨m', hm', hmid⟩ := exists_leastIn_eq_some
      (p := fun i => decide (signOf (sample s) * sample i < -Config.thresh)) (start := s + 1) hm (he.trans hcount)
      (decide_eq_true hcross)
    obtain ⟨e', -, hend⟩ := exists_leastIn_eq_some
      (p := fun i => decide (Config.thresh < signOf (sample s) * sample i)) (start := m' + 1) (by omega) hcount
      (decide_eq_true (not_le.1 hback))
    cases hnone.symm.trans (findTriple_eq_some_iff.2 ⟨hstart, hmid, hend⟩)
  case none =>
    refine Option.eq_none_iff_forall_ne_some.2 fun ⟨s, m, e⟩ hfind => ?_
    obtain ⟨hs, hm, he⟩ := findTriple_eq_some_iff.1 hfind
    rw [leastIn_eq_some] at hs hm he
    obtain ⟨hps, -, hexc, hfirst⟩ := hs
    obtain ⟨hsm, -, hcross, -⟩ := hm
    obtain ⟨hme, hcount, hback, -⟩ := he
    exact absurd (of_decide_eq_true hback) (not_lt.2 (hno s m e hps hsm hme hcount ((exceeds_iff _).1 hexc)
      (fun i h1 h2 => (exceeds_eq_false_iff _).1 (hfirst i h1 h2)) (of_decide_eq_true hcross)))

/-- Settles O32: `detect_none` and `detect_some`, whose indices fit the registers because they are below the count. -/
theorem detectReportsTheEvent : Obligations.DetectReportsTheEvent := by
  intro s _
  refine ⟨detect_none s, fun a m e hfind => ?_, detect_smpPos_le s⟩
  obtain ⟨-, hmid, hend, hcount⟩ := findTriple_bounds _ _ _ _ _ _ hfind
  have hsize {i : Nat} (hi : i ≤ e) : (BitVec.ofNat 32 i).toNat = i :=
    Nat.mod_eq_of_lt (Nat.lt_of_le_of_lt (hi.trans hcount.le) s.view.count.isLt)
  rw [detect_some s a m e hfind]
  exact ⟨rfl, hsize le_rfl, hsize (by omega), hsize (Nat.sub_le e a), rfl, findTriple_end_exceeds hfind⟩

/-- Settles O34: one lemma for each state of the synchroniser; a byte completes when the step reaches 18 half units,
which it does from 16 on a low cycle and from 17 on a high one. -/
theorem synchroniserStep : Obligations.SynchroniserStep := by
  refine ⟨fun _ _ _ => decide_eq_true_iff, fun _ _ _ => rfl, fun l => ?low20000, fun l => ?low40000,
    fun s h0 => ⟨sync_low_of_zero h0, sync_high_of_zero h0⟩, fun s _ hodd => sync_low_of_odd hodd,
    fun s h0 heven => ⟨fun h16 => ?lowPartial, fun h16 => ?lowFull, ?highEven⟩,
    fun s hodd => ⟨fun h17 => ?highPartial, fun h17 => ?highFull⟩⟩
  case low20000 =>
    rw [isLow, decide_eq_true_iff]
    omega
  case low40000 =>
    rw [isLow, decide_eq_true_iff]
    omega
  case lowPartial => rw [sync_low_of_even h0 heven, State.completeByte_of_partial (by bv_omega)]
  case lowFull => rw [sync_low_of_even h0 heven, State.completeByte_of_full (by bv_omega)]
  case highEven => rw [sync_high_of_even h0 heven, State.completeByte_of_partial (by bv_omega)]
  case highPartial => rw [sync_high_of_odd hodd, State.completeByte_of_partial (by bv_omega)]
  case highFull => rw [sync_high_of_odd hodd, State.completeByte_of_full (by bv_omega)]

/-- Settles O36: `consume` at each boundary; `inBlock_of_detect`, and the violations DEMODULATE reports. -/
theorem blockBoundaries : Obligations.BlockBoundaries := by
  refine ⟨fun _ _ _ _ => rfl, fun _ h => if_neg h, fun _ h => if_pos h, fun _ _ _ => rfl, fun _ => rfl,
    fun _ _ _ => inBlock_of_detect, fun s t hexec hcode => ?_⟩
  rcases exec_demodulate_violation hexec hcode with h | h <;> rw [h] <;> decide

end Sys2Proof.Machine
end

section
/-! PROOFS. NOP, the control command that completes at acceptance: O7 (spec/44_control.md). -/

namespace Sys2Proof.Machine

/-! ### NOP (44_control.md R250) -/

/-- NOP is a successful completion that leaves SEQ as it is: a host's NOP runs at acceptance and is never Busy. -/
theorem exec_nop (s : State) : exec .nop s = .next { s.succeed with seq := s.seq } := rfl

theorem State.succeed_keepSeq_onlyStatus (s : State) : OnlyStatus s { s.succeed with seq := s.seq } where
  host := ⟨rfl, rfl, rfl, rfl, rfl, rfl, rfl, rfl, rfl, fun _ => rfl, rfl, rfl⟩
  out := ⟨rfl, fun _ => rfl⟩
  view := ⟨rfl, rfl⟩
  smpRaw := rfl
  sync := ⟨rfl, rfl, rfl, rfl, rfl, rfl, rfl⟩
  tones := ⟨rfl, rfl⟩

/-- The word of R101 with every bit 0 is NOP's. -/
theorem decode_zero : decode 0 = .nop := by decide

theorem hostWrite_cmd_nop {s : State} (hidle : s.seq = .idle) : hostWrite .w32 0x04 0 s = exec .nop s := by
  rw [hostWrite_cmd_short hidle (by rw [decode_zero]; rfl), decode_zero]

/-! ### The obligation -/

/-- Settles O7: `exec_nop` and its frame; word 0 is NOP's on an Idle block, and, not being RESET's, is rejected by a
Busy one. -/
theorem nopCompletes : Obligations.NopCompletes := by
  intro s
  refine ⟨⟨_, exec_nop s, rfl, rfl, rfl, rfl, rfl, ?irq, s.succeed_keepSeq_onlyStatus⟩, hostWrite_cmd_nop,
    fun hb => hostWrite_cmd_busy hb (by decide)⟩
  case irq => exact Bool.and_true s.ie

end Sys2Proof.Machine
end

section
/-! PROOFS. What a host write to CMD does, and which writes a Busy block rejects: O6 (spec/60_exceptions.md R270). -/

namespace Sys2Proof.Machine

/-! ### Writes a Busy block rejects (60_exceptions.md R270; 70_reset_and_hazards.md R294 to R296) -/

theorem hostWrite_rw_busy {o : Word} {r : Reg} {s : State} (h : RegisterAt o r) (hr : r.isRw = true)
    (hb : s.isBusy = true) (v : Word) : hostWrite .w32 o v s = .next { s with rej := true } := by
  have hcmd : r ≠ .cmd := by rintro rfl; cases hr
  have hstatus : r ≠ .status := by rintro rfl; cases hr
  rw [hostWrite_registerAt s h, writeRegister, if_neg hcmd, if_neg hstatus, hb, hr]
  rfl

/-- The read/write registers, at the offsets R22 gives them. -/
theorem rwRegister_offsets :
    ∀ o ∈ [0x00, 0x0C, 0x10, 0x18, 0x1C, 0x20, (0x24 : Word)], ∃ r, RegisterAt o r ∧ r.isRw = true := by
  simp only [List.forall_mem_cons, List.not_mem_nil, false_imp_iff, implies_true, and_true]
  refine ⟨⟨.ctrl, ?_⟩, ⟨.arg, ?_⟩, ⟨.inLen, ?_⟩, ⟨.sampleRate, ?_⟩, ⟨.baudRate, ?_⟩, ⟨.syncMs, ?_⟩,
    ⟨.modCfg, ?_⟩⟩ <;> decide

theorem regionOf_inWindow (a : Nat) (h : a < 2 ^ 24) :
    regionOf (BitVec.ofNat 32 (0x1000000 + a)) = .inWindow a := by
  have ho : (BitVec.ofNat 32 (0x1000000 + a)).toNat = 0x1000000 + a := by
    rw [BitVec.toNat_ofNat, Nat.mod_eq_of_lt (by omega)]
  unfold regionOf
  simp only [ho]
  rw [if_neg (by omega), if_neg (by omega), if_pos (by omega), Nat.add_sub_cancel_left]

theorem hostWrite_inWindow (s : State) (width : Width) (v : Word) (a : Nat) (h : a < 2 ^ 24) :
    hostWrite width (BitVec.ofNat 32 (0x1000000 + a)) v s = .next (s.writeIn width a v) := by
  rw [hostWrite, regionOf_inWindow a h]

theorem State.writeIn_busy {s : State} (hb : s.isBusy = true) (width : Width) (a : Nat) (v : Word) :
    s.writeIn width a v = { s with rej := true } := if_pos hb

/-! ### Words written to CMD (60_exceptions.md R270) -/

/-- The exact word resets the block, Idle or Busy (44_control.md R251). -/
theorem hostWrite_cmd_reset (s : State) : hostWrite .w32 0x04 0x0000000F s = .next s.resetBlock := by
  cases hseq : s.seq with
  | idle =>
    have hd : decode 0x0000000F = .reset := (decode_eq_reset_iff _).2 rfl
    rw [hostWrite_cmd_short hseq (by rw [hd]; rfl), hd]
    rfl
  | busy op snap =>
    rw [hostWrite_cmd, cmdWrite_busy _ s ((State.isBusy_iff s).2 ⟨op, snap, hseq⟩), if_pos rfl]

theorem hostWrite_cmd_long {w : Word} {op : Op} {s : State} (hidle : s.seq = .idle)
    (h : longOp (decode w) = some op) : hostWrite .w32 0x04 w s = .next (s.accept op) := by
  rw [hostWrite_cmd, cmdWrite_long w op s hidle h]

/-- The words of the seven commands that make the block Busy (30_encoding.md R101). -/
theorem longOp_decode_words :
    ∀ p ∈ [((1 : Word), Op.wrap), (2, .unwrap), (3, .modulate), (4, .demodulate), (5, .openView), (6, .seek),
      (7, .read)], longOp (decode p.1) = some p.2 := by decide

/-- `raise` in an Idle block writes STATUS only: SEQ is Idle already. -/
theorem State.raise_of_idle {s : State} (hidle : s.seq = .idle) (e : Err) :
    s.raise e = { s with done := true, err := true, errCode := e.kind.code, errDetail := e.detail } := by
  rw [State.raise, ← hidle]

/-! ### The obligation -/

/-- Settles O6: what a Busy block rejects, then the words of an Idle one by the ranges of R270. -/
theorem commandAcceptance : Obligations.CommandAcceptance := by
  intro s w
  refine ⟨fun _ hw => hw ▸ hostWrite_cmd_reset s, hostWrite_cmd_busy, ?rwRegisters, ?inWindow, ?status, ?illegal,
    ?reserved, ?nop, fun _ hw => hw ▸ hostWrite_cmd_reset s, ?long⟩
  case rwRegisters =>
    intro hb v o ho
    obtain ⟨r, hat, hrw⟩ := rwRegister_offsets o ho
    exact hostWrite_rw_busy hat hrw hb v
  case inWindow =>
    intro hb width v a ha
    rw [hostWrite_inWindow s width v a ha, State.writeIn_busy hb]
  case status =>
    intro v
    exact ⟨_, hostWrite_status s v, Bool.and_elim_left⟩
  case illegal =>
    intro hidle hr
    rw [hostWrite_cmd_illegal hidle hr, State.raise_of_idle hidle]
    rfl
  case reserved =>
    intro hidle hr h8 h14
    rw [hostWrite_cmd_reserved hidle (decode_mem_reservedInstrs hr h8 h14), State.raise_of_idle hidle]
    rfl
  case nop =>
    rintro hidle rfl
    exact hostWrite_cmd_nop hidle
  case long =>
    rintro hidle p hp rfl
    exact hostWrite_cmd_long hidle (longOp_decode_words p hp)

end Sys2Proof.Machine
end

section
/-! PROOFS. What each command leaves when it fails: O42 (spec/60_exceptions.md R264, R265, R267). -/

namespace Sys2Proof.Machine

/-! ### The commands that write OUT -/

theorem State.finishOut_outLen_of_err {u : State} {r : Except Err (List Byte)} (h : (u.finishOut r).err = true) :
    (u.finishOut r).outLen = 0 := by
  cases r with
  | error e => rfl
  | ok bs => cases h

/-- DEMODULATE ends as every command that writes OUT does, from what its loop left. -/
theorem finishDemod_eq_finishOut (t : State) (stream : Option Err) : ∃ r, finishDemod t stream = t.finishOut r := by
  rcases finishDemod_cases t stream with ⟨e, h, -⟩ | ⟨h, -⟩
  · exact ⟨.error e, h⟩
  · exact ⟨.ok _, h⟩

/-- WRAP, UNWRAP, MODULATE and DEMODULATE end in `finishOut`, of a state that each has prepared. -/
theorem exec_eq_finishOut (s : State) :
    ∀ i ∈ [Instr.wrap, .unwrap, .modulate, .demodulate],
      ∃ (u : State) (r : Except Err (List Byte)), exec i s = .next (u.finishOut r) := by
  have henvelope := exec_envelope_congr (s := s) rfl rfl rfl rfl
  simp only [List.forall_mem_cons, List.not_mem_nil, false_imp_iff, implies_true, and_true] at henvelope ⊢
  obtain ⟨⟨r, hwrap, -⟩, ⟨r', hunwrap, -⟩⟩ := henvelope
  refine ⟨⟨s, r, hwrap⟩, ⟨s, r', hunwrap⟩, ?modulate, ?demodulate⟩
  case modulate =>
    rcases execModulate_cases s with ⟨e, h, -⟩ | ⟨n, d, -, ⟨h, -⟩ | ⟨c, -, h, -⟩⟩
    · exact ⟨_, .error e, h⟩
    · exact ⟨_, .error _, h⟩
    · exact ⟨_, .ok c, h⟩
  case demodulate =>
    rcases execDemodulate_cases s with ⟨e, h, -⟩ | ⟨v, -, -, -, h⟩
    · exact ⟨_, .error e, h⟩
    · obtain ⟨r, hr⟩ := finishDemod_eq_finishOut (demodLoop (v.count.toNat + 1) (s.clearDemod.setView v)).1
        (demodLoop (v.count.toNat + 1) (s.clearDemod.setView v)).2
      exact ⟨_, r, h.trans (congrArg _ hr)⟩

section
variable {i : Instr} {s t : State} (ht : exec i s = .next t)
include ht

theorem outLen_of_failed_out (hi : i ∈ [Instr.wrap, .unwrap, .modulate, .demodulate]) (herr : t.err = true) :
    t.outLen = 0 := by
  obtain ⟨u, r, h⟩ := exec_eq_finishOut s i hi
  cases h.symm.trans ht
  exact State.finishOut_outLen_of_err herr

theorem onlyOut_of_exec (hi : i = .wrap ∨ i = .unwrap ∨ i = .modulate) : OnlyOut s t := by
  have henvelope (hi : i ∈ [Instr.wrap, .unwrap]) : OnlyOut s t := by
    obtain ⟨u, hu, honly, -⟩ := exec_envelope_onlyOut s i hi
    cases hu.symm.trans ht
    exact honly
  rcases hi with rfl | rfl | rfl
  · exact henvelope (by decide)
  · exact henvelope (by decide)
  · obtain ⟨u, hu, honly⟩ := exec_modulate_onlyOut s
    cases hu.symm.trans ht
    exact honly

end

/-! ### DEMODULATE before and after its PARSE succeeds (43_demodulator.md R230) -/

section
variable {s : State}

theorem exec_demodulate_of_early
    (h : s.par.inCap < s.snap.inLen.toNat ∨ s.snap.baudRate = 0 ∨
      ∃ e, parse (s.input s.snap.inLen.toNat) = .error e) :
    ∃ e, exec .demodulate s = .next (s.clearDemod.closeView.raiseOut e) := by
  rcases execDemodulate_cases s with ⟨e, hexec, -⟩ | ⟨v, hparse, hcap, hbaud, -⟩
  · exact ⟨e, hexec⟩
  · rcases h with h | h | ⟨e, h⟩
    · exact absurd h (Nat.not_lt.2 hcap)
    · exact absurd h hbaud
    · cases hparse.symm.trans h

theorem exec_demodulate_of_parse_ok {v : View} (hcap : s.snap.inLen.toNat ≤ s.par.inCap)
    (hbaud : s.snap.baudRate ≠ 0) (hparse : parse (s.input s.snap.inLen.toNat) = .ok v) :
    exec .demodulate s =
      .next (finishDemod (demodLoop (v.count.toNat + 1) (s.clearDemod.setView v)).1
        (demodLoop (v.count.toNat + 1) (s.clearDemod.setView v)).2) :=
  (if_neg (Nat.not_lt.2 hcap)).trans ((if_neg hbaud).trans (by rw [hparse]))

end

/-- After the loop DEMODULATE writes STATUS, OUT and OUT_LEN only. -/
theorem finishDemod_onlyOut (t : State) (stream : Option Err) : OnlyOut t (finishDemod t stream) := by
  obtain ⟨r, hr⟩ := finishDemod_eq_finishOut t stream
  rw [hr]
  exact t.finishOut_onlyOut r

theorem exec_demodulate_smpRaw {s t : State} (ht : exec .demodulate s = .next t) : t.smpRaw = s.smpRaw := by
  rcases execDemodulate_cases s with ⟨e, h, -⟩ | ⟨v, -, -, -, h⟩
  · cases h.symm.trans ht
    rfl
  · cases h.symm.trans ht
    exact (finishDemod_onlyOut _ _).smpRaw.trans (demodLoop_frame _ (s.clearDemod.setView v)).smpRaw

/-! ### The commands that leave OUT -/

theorem eq_raise_of_failed_openView {s t : State} (ht : exec .openView s = .next t) (herr : t.err = true) :
    ∃ e, t = s.closeView.raise e := by
  rcases execOpen_cases s with ⟨e, h, -⟩ | ⟨v, h, -⟩ <;> cases h.symm.trans ht
  · exact ⟨e, rfl⟩
  · cases herr

/-- A failed SEEK or READ only raises. -/
theorem onlyStatus_of_failed_cursor {i : Instr} {s t : State} (ht : exec i s = .next t) (herr : t.err = true)
    (hi : i = .seek ∨ i = .read) : OnlyStatus s t := by
  rcases hi with rfl | rfl
  · rcases execSeek_cases s with ⟨h, -⟩ | ⟨h, -⟩ <;> cases h.symm.trans ht
    · exact s.raise_onlyStatus _
    · cases herr
  · rcases execRead_cases s with ⟨h, -⟩ | ⟨h, -⟩ <;> cases h.symm.trans ht
    · exact s.raise_onlyStatus _
    · cases herr

theorem onlyStatus_of_reserved {i : Instr} {s t : State} (ht : exec i s = .next t) (hi : i ∈ reservedInstrs) :
    OnlyStatus s t := by
  cases (exec_reserved s i hi).symm.trans ht
  exact s.raise_onlyStatus _

theorem onlyStatus_of_illegal {r : BitVec 28} {o : BitVec 4} {s t : State} (ht : exec (.illegal r o) s = .next t) :
    OnlyStatus s t := by
  cases (exec_illegal r o s).symm.trans ht
  exact s.raise_onlyStatus _

/-! ### Every command -/

theorem ne_reset_of_failed {i : Instr} {s t : State} (ht : exec i s = .next t) (herr : t.err = true) :
    i ≠ .reset := by
  rintro rfl
  cases ht
  cases herr

/-- SMP_RAW changes in a successful READ and a RESET only. -/
theorem smpRaw_of_failed {i : Instr} {s t : State} (ht : exec i s = .next t) (herr : t.err = true) :
    t.smpRaw = s.smpRaw := by
  cases i with
  | nop => cases ht; rfl
  | wrap | unwrap | modulate => exact (onlyOut_of_exec ht (by decide)).smpRaw
  | demodulate => exact exec_demodulate_smpRaw ht
  | openView => exact exec_openView_smpRaw ht
  | seek | read => exact (onlyStatus_of_failed_cursor ht herr (by decide)).smpRaw
  | reserved8 | reserved9 | reservedA | reservedB | reservedC | reservedD | reservedE =>
    exact (onlyStatus_of_reserved ht (by decide)).smpRaw
  | reset => exact absurd rfl (ne_reset_of_failed ht herr)
  | illegal r o => exact (onlyStatus_of_illegal ht).smpRaw

/-! ### The obligation -/

/-- Settles O42: one lemma for each row of R267's table, and `exec_frame` and `smpRaw_of_failed` for all rows. -/
theorem stateAfterAFailedCommand : Obligations.StateAfterAFailedCommand := by
  intro i s t ht herr
  refine ⟨(exec_frame i s t (ne_reset_of_failed ht herr) ht).sameHost, smpRaw_of_failed ht herr, ?out, ?demodulate,
    ?demodulateEarly, ?demodulateLate, ?openView, ?cursor, ?illegal, onlyStatus_of_reserved ht⟩
  case out =>
    intro hi
    have honly := onlyOut_of_exec ht hi
    refine ⟨outLen_of_failed_out ht ?_ herr, honly.view, honly.sync⟩
    rcases hi with rfl | rfl | rfl <;> decide
  case demodulate =>
    rintro rfl
    exact outLen_of_failed_out ht (by decide) herr
  case demodulateEarly =>
    rintro rfl hearly
    obtain ⟨e, h⟩ := exec_demodulate_of_early hearly
    cases h.symm.trans ht
    exact ⟨rfl, rfl, rfl, rfl, rfl, rfl, rfl, rfl, rfl⟩
  case demodulateLate =>
    rintro v rfl hcap hbaud hparse
    cases (exec_demodulate_of_parse_ok hcap hbaud hparse).symm.trans ht
    obtain ⟨-, ⟨hview, hpos⟩, -, hsync⟩ := finishDemod_onlyOut
      (demodLoop (v.count.toNat + 1) (s.clearDemod.setView v)).1
      (demodLoop (v.count.toNat + 1) (s.clearDemod.setView v)).2
    exact ⟨hview.trans (demodLoop_frame _ (s.clearDemod.setView v)).view, hpos, hsync⟩
  case openView =>
    rintro rfl
    obtain ⟨e, rfl⟩ := eq_raise_of_failed_openView ht herr
    exact ⟨⟨rfl, fun _ => rfl⟩, rfl, rfl, ⟨rfl, rfl, rfl, rfl, rfl, rfl, rfl⟩⟩
  case cursor =>
    intro hi
    have honly := onlyStatus_of_failed_cursor ht herr hi
    exact ⟨honly.out, honly.view, honly.sync⟩
  case illegal =>
    rintro r o rfl
    exact onlyStatus_of_illegal ht

end Sys2Proof.Machine
end

section
/-! PROOFS. The words the decoder reads and the encoder writes, both ways: O1, O2 (spec/30_encoding.md R100 to R108). -/

namespace Sys2Proof

/-! ### An encoded instruction by its fields (30_encoding.md R100) -/

section
variable {i : Instr}

theorem rsvdField_encode (i : Instr) : rsvdField (encode i) = i.rsvd := Laws.rsvdField_append _ _

theorem opField_encode (i : Instr) : opField (encode i) = i.opcode := Laws.opField_append _ _

/-- Only an illegal word has reserved bits set (30_encoding.md R102). -/
theorem Instr.eq_illegal_of_rsvd_ne_zero (h : i.rsvd ≠ 0) : i = .illegal i.rsvd i.opcode := by
  cases i with
  | illegal r o => rfl
  | _ => exact absurd rfl h

/-- The opcode map gives each command back from its own opcode (30_encoding.md R101). -/
theorem decodeOp_opcode (hwf : i.wf = true) (h : i.rsvd = 0) : decodeOp i.opcode = i := by
  cases i with
  | illegal r o => exact absurd h (bne_iff_ne.1 hwf)
  | _ => rfl

theorem decode_encode (hwf : i.wf = true) : decode (encode i) = i := by
  by_cases h : i.rsvd = 0
  · rw [decode_of_rsvdField_eq_zero ((rsvdField_encode i).trans h), opField_encode, decodeOp_opcode hwf h]
  · have hr : rsvdField (encode i) ≠ 0 := (rsvdField_encode i).symm ▸ h
    rw [decode_of_rsvdField_ne_zero hr, rsvdField_encode, opField_encode, ← Instr.eq_illegal_of_rsvd_ne_zero h]

end

/-- The opcode map drops no bit of OP, and gives no illegal word. -/
theorem encode_decodeOp : ∀ op : BitVec 4, encode (decodeOp op) = 0#28 ++ op ∧ (decodeOp op).wf = true := by decide

theorem encode_decode (w : Word) : encode (decode w) = w ∧ (decode w).wf = true := by
  by_cases h : rsvdField w = 0
  · rw [decode_of_rsvdField_eq_zero h]
    obtain ⟨hword, hwf⟩ := encode_decodeOp (opField w)
    refine ⟨hword.trans ?_, hwf⟩
    rw [← BitVec.ofNat_eq_ofNat, ← h, rsvdField_append_opField]
  · rw [decode_of_rsvdField_ne_zero h]
    exact ⟨rsvdField_append_opField w, bne_iff_ne.2 h⟩

end Sys2Proof

namespace Sys2Proof.Machine

/-! ### The obligations -/

/-- Settles O2: the two fields of a word are the instruction's, and they hold all of the word's bits. -/
theorem decodeEncodeAgree : Obligations.DecodeEncodeAgree := ⟨fun _ => decode_encode, encode_decode⟩

/-- Settles O1: the decoder on each word, and the two words that are no commands on an Idle block. -/
theorem decodeSpecWords : Obligations.DecodeSpecWords := by
  refine ⟨rfl, rfl, rfl, rfl, rfl, rfl, rfl, rfl, rfl, rfl, rfl, rfl, rfl, rfl, fun s hidle => ⟨?illegal, ?reserved⟩⟩
  case illegal => exact ⟨_, hostWrite_cmd_illegal hidle (by decide), s.raise_failedWith _⟩
  case reserved => exact ⟨_, hostWrite_cmd_reserved hidle (by decide), s.raise_failedWith _⟩

end Sys2Proof.Machine
end

section
/-! PROOFS. What a host read and a host write can do, said once for all offsets and then for each window: O47 to O52
(spec/10_state.md R22 to R42; spec/20_memory.md R71 to R85). -/

namespace Sys2Proof.Machine

/-! ### The regions of the aperture (20_memory.md R71) -/

theorem regionOf_reserved {o : Word} (hlo : 0x100 ≤ o.toNat) (hhi : o.toNat < 0x1000000) :
    regionOf o = .reserved :=
  (if_neg (Nat.not_lt.2 hlo)).trans (if_pos hhi)

theorem regionOf_eq_outside_iff (o : Word) : regionOf o = .outside ↔ 0x3000000 ≤ o.toNat := by
  unfold regionOf
  dsimp only
  split_ifs <;> simp only [false_iff, true_iff] <;> omega

theorem regionOf_eq_registers {o : Word} {a : Nat} (h : regionOf o = .registers a) :
    o.toNat < 0x100 ∧ a = o.toNat := by
  unfold regionOf at h
  dsimp only at h
  split_ifs at h with hlt
  cases h
  exact ⟨hlt, rfl⟩

/-! ### What a read changes: the read latch and the count of free values (20_memory.md R85) -/

section
variable (s : State)

theorem State.readRegister_eq (o : Nat) : ∃ x d, s.readRegister o = { s with readData := x, draws := d } := by
  unfold State.readRegister
  split
  · exact ⟨_, _, rfl⟩
  · split <;> exact ⟨_, _, rfl⟩

theorem State.readBuffer_eq (m : Memory) (cap : Nat) (width : Width) (a : Nat) :
    ∃ x d, s.readBuffer m cap width a = { s with readData := x, draws := d } := by
  cases width with
  | w8 => exact ⟨_, _, rfl⟩
  | w16 => exact ⟨_, _, rfl⟩
  | w32 =>
    unfold State.readBuffer
    dsimp only
    split <;> exact ⟨_, _, rfl⟩

theorem hostRead_inAperture (width : Width) {o : Word} (h : o.toNat < 0x3000000) :
    ∃ x d, hostRead width o s = .next { s with readData := x, draws := d } := by
  unfold hostRead
  cases hregion : regionOf o with
  | registers a =>
    dsimp only
    split
    · obtain ⟨x, d, hread⟩ := s.readRegister_eq a
      exact ⟨x, d, congrArg _ hread⟩
    · exact ⟨_, _, rfl⟩
  | reserved => exact ⟨_, _, rfl⟩
  | inWindow a =>
    obtain ⟨x, d, hread⟩ := s.readBuffer_eq s.inBuf s.par.inCap width a
    exact ⟨x, d, congrArg _ hread⟩
  | outWindow a =>
    dsimp only
    split
    · exact ⟨_, _, rfl⟩
    · obtain ⟨x, d, hread⟩ := s.readBuffer_eq s.outBuf s.par.outCap width a
      exact ⟨x, d, congrArg _ hread⟩
  | outside => exact absurd ((regionOf_eq_outside_iff o).1 hregion) (Nat.not_le.2 h)

theorem hostRead_outside (width : Width) {o : Word} (h : 0x3000000 ≤ o.toNat) :
    hostRead width o s = .fault .outsideAperture := by
  rw [hostRead, (regionOf_eq_outside_iff o).2 h]

/-- A read that completes changes nothing of the block. -/
theorem hostRead_frame {s t : State} {width : Width} {o : Word} (h : hostRead width o s = .next t) :
    t = { s with readData := t.readData, draws := t.draws } := by
  rcases Nat.lt_or_ge o.toNat 0x3000000 with hin | hout
  · obtain ⟨x, d, hread⟩ := hostRead_inAperture s width hin
    cases hread.symm.trans h
    rfl
  · cases (hostRead_outside s width hout).symm.trans h

end

/-! ### What a write changes -/

section
variable (s : State)

/-- CMD has one offset. -/
theorem eq_cmd_offset {o : Word} (h : RegisterAt o .cmd) : o = 0x04 := by
  obtain ⟨hlt, haligned, hreg⟩ := h
  have hindex : ∀ k < 64, regOrder[k]? = some .cmd → k = 1 := by decide
  have := hindex _ (by omega) hreg
  exact BitVec.eq_of_toNat_eq (show o.toNat = 4 by omega)

/-- STATUS has one offset. -/
theorem eq_status_offset {o : Word} (h : RegisterAt o .status) : o = 0x08 := by
  obtain ⟨hlt, haligned, hreg⟩ := h
  have hindex : ∀ k < 64, regOrder[k]? = some .status → k = 2 := by decide
  have := hindex _ (by omega) hreg
  exact BitVec.eq_of_toNat_eq (show o.toNat = 8 by omega)

/-- A register that is not read/write stores nothing. -/
theorem State.storeReg_of_not_isRw {r : Reg} (h : r.isRw = false) (v : Word) : s.storeReg v r = s := by
  cases r with
  | ctrl | arg | inLen | sampleRate | baudRate | syncMs | modCfg => cases h
  | cmd | status | outLen | smpCount | smpRate | smpInfo | smpPos | smpRaw | syncState | cycStart | cycLen
  | demodBytes => rfl

/-- Everything a host write that completes can do: issue a command, clear STATUS bits, be ignored, be rejected by a Busy
block, or store in a register or in IN of an Idle one. -/
inductive WriteEffect (width : Width) (o v : Word) (s t : State) : Prop
  | command (hwidth : width = .w32) (ho : o = 0x04) (h : cmdWrite v s = .next t)
  | status (hwidth : width = .w32) (ho : o = 0x08) (h : t = s.writeStatus v)
  | ignored (h : t = s)
  | rejected (hbusy : s.isBusy = true) (h : t = { s with rej := true })
  | register (hidle : s.seq = .idle) (r : Reg) (h : t = s.storeReg v r)
  | inWindow (hidle : s.seq = .idle) (a : Nat) (h : t = s.writeIn width a v)

/-- A completed write to a register. -/
theorem writeRegister_effect {s t : State} {o v : Word} {r : Reg} (hat : RegisterAt o r)
    (h : writeRegister r v s = .next t) : WriteEffect .w32 o v s t := by
  unfold writeRegister at h
  split at h
  next hcmd => exact .command rfl (eq_cmd_offset (hcmd ▸ hat)) h
  split at h
  next hstatus =>
    cases h
    exact .status rfl (eq_status_offset (hstatus ▸ hat)) rfl
  cases hbusy : s.isBusy with
  | true =>
    cases hrw : r.isRw with
    | true =>
      rw [hbusy, hrw] at h
      cases h
      exact .rejected hbusy rfl
    | false =>
      rw [hrw, Bool.and_false] at h
      cases h
      exact .ignored (s.storeReg_of_not_isRw hrw v)
  | false =>
    rw [hbusy, Bool.false_and] at h
    cases h
    exact .register ((State.isBusy_false_iff s).1 hbusy) r rfl

theorem hostWrite_effect {s t : State} {width : Width} {o v : Word} (h : hostWrite width o v s = .next t) :
    WriteEffect width o v s t := by
  unfold hostWrite at h
  split at h
  next a hregion =>
    obtain ⟨hlt, rfl⟩ := regionOf_eq_registers hregion
    split at h
    next haccess =>
      obtain ⟨rfl, haligned⟩ := haccess
      split at h
      next =>
        cases h
        exact .ignored rfl
      next r hreg => exact writeRegister_effect ⟨hlt, haligned, hreg⟩ h
    next =>
      cases h
      exact .ignored rfl
  next =>
    cases h
    exact .ignored rfl
  next a _ =>
    cases h
    cases hbusy : s.isBusy with
    | true => exact .rejected hbusy (State.writeIn_busy hbusy width a v)
    | false => exact .inWindow ((State.isBusy_false_iff s).1 hbusy) a rfl
  next =>
    cases h
    exact .ignored rfl
  next => cases h

theorem hostWrite_outside (width : Width) {o : Word} (v : Word) (h : 0x3000000 ≤ o.toNat) :
    hostWrite width o v s = .fault .outsideAperture := by
  rw [hostWrite, (regionOf_eq_outside_iff o).2 h]

end

/-! ### The registers made of fields (10_state.md R23, R36, R37, R39) -/

theorem ctrlWord_fields (s : State) : s.ctrlWord.getLsbD 0 = s.ie ∧ s.ctrlWord.extractLsb' 1 31 = 0 := by
  rw [State.ctrlWord]
  cases s.ie <;> decide

/-- MODCFG bit by bit, from bit 0 up. -/
theorem getLsbD_modCfgWord (m : ModCfg) (i : Nat) :
    m.word.getLsbD i =
      if i < 1 then (BitVec.ofBool m.reversePhase).getLsbD i
      else if i < 8 then false
      else if i < 16 then m.bitsPerSample.getLsbD (i - 8)
      else false := by
  have hwidth : m.word.getLsbD i = BitVec.getLsbD (w := 16 + 8 + 7 + 1) m.word i := rfl
  rw [hwidth, ModCfg.word]
  simp only [BitVec.getLsbD_append]
  grind

theorem modCfgWord_fields (m : ModCfg) :
    m.word.getLsbD 0 = m.reversePhase ∧ m.word.extractLsb' 1 7 = 0 ∧ m.word.extractLsb' 8 8 = m.bitsPerSample ∧
    m.word.extractLsb' 16 16 = 0 := by
  refine ⟨?reverse, extractLsb'_eq_of_getLsbD fun i hi => ?low, extractLsb'_eq_of_getLsbD fun i hi => ?bits,
    extractLsb'_eq_of_getLsbD fun i hi => ?high⟩ <;> rw [getLsbD_modCfgWord]
  case reverse => cases m.reversePhase <;> rfl
  case bits => simp (disch := omega) only [if_neg, if_pos, Nat.add_sub_cancel_left]
  all_goals simp (disch := omega) only [if_neg, if_pos, BitVec.ofNat_eq_ofNat, BitVec.getLsbD_zero]

/-- SYNC_STATE bit by bit, from bit 0 up. -/
theorem getLsbD_syncWord (s : State) (i : Nat) :
    s.syncWord.getLsbD i =
      if i < 5 then s.halfUnits.getLsbD i
      else if i < 8 then false
      else if i < 16 then s.workingByte.getLsbD (i - 8)
      else if i < 17 then (BitVec.ofBool s.inBlock).getLsbD (i - 16)
      else false := by
  have hwidth : s.syncWord.getLsbD i = BitVec.getLsbD (w := 15 + 1 + 8 + 3 + 5) s.syncWord i := rfl
  rw [hwidth, State.syncWord]
  simp only [BitVec.getLsbD_append]
  grind

theorem syncWord_fields (s : State) :
    s.syncWord.extractLsb' 0 5 = s.halfUnits ∧ s.syncWord.extractLsb' 5 3 = 0 ∧
    s.syncWord.extractLsb' 8 8 = s.workingByte ∧ s.syncWord.getLsbD 16 = s.inBlock ∧
    s.syncWord.extractLsb' 17 15 = 0 := by
  refine ⟨extractLsb'_eq_of_getLsbD fun i hi => ?units, extractLsb'_eq_of_getLsbD fun i hi => ?low,
    extractLsb'_eq_of_getLsbD fun i hi => ?byte, ?block, extractLsb'_eq_of_getLsbD fun i hi => ?high⟩ <;>
    rw [getLsbD_syncWord]
  case units => simp (disch := omega) only [if_pos, Nat.zero_add]
  case byte => simp (disch := omega) only [if_neg, if_pos, Nat.add_sub_cancel_left]
  case block => cases s.inBlock <;> rfl
  all_goals simp (disch := omega) only [if_neg, if_pos, BitVec.ofNat_eq_ofNat, BitVec.getLsbD_zero]

theorem infoWord_fields (base : Nat) (depth : Depth) (count rate : Word) :
    let x := (View.opened base depth count rate).info
    x.getLsbD 0 = true ∧ x.extractLsb' 1 7 = 0 ∧ (x.extractLsb' 8 8).toNat = depth.bits ∧ x.extractLsb' 16 8 = 1 ∧
    x.extractLsb' 24 8 = 0 := by
  simp only [View.info, View.channels, View.bitsField, View.isOpen]
  cases depth <;> decide

/-! ### Register accesses of an Idle block -/

section
variable {s : State} (hidle : s.seq = .idle) {o : Word} {r : Reg} (hat : RegisterAt o r)
include hidle hat

theorem hostRead_idle {x : Word} (hx : s.regWord r = x) : hostRead .w32 o s = .next { s with readData := x } := by
  rw [hostRead_registerAt s hat, (State.isBusy_false_iff s).2 hidle, hx]
  rfl

theorem hostWrite_idle (hr : r.isRw = true) (v : Word) : hostWrite .w32 o v s = .next (s.storeReg v r) := by
  have hcmd : r ≠ .cmd := by rintro rfl; cases hr
  have hstatus : r ≠ .status := by rintro rfl; cases hr
  rw [hostWrite_registerAt s hat, writeRegister, if_neg hcmd, if_neg hstatus, (State.isBusy_false_iff s).2 hidle]
  rfl

end

/-- A result register is read-only: a write to it changes nothing, Idle or Busy (10_state.md R22). -/
theorem hostWrite_anyWhileBusy {o : Word} {r : Reg} (hat : RegisterAt o r) (hr : r.anyWhileBusy = true) (v : Word)
    (s : State) : hostWrite .w32 o v s = .next s := by
  have hcmd : r ≠ .cmd := by rintro rfl; cases hr
  have hstatus : r ≠ .status := by rintro rfl; cases hr
  have hrw : r.isRw = false := by revert hr; cases r <;> decide
  rw [hostWrite_registerAt s hat, writeRegister, if_neg hcmd, if_neg hstatus, hrw, Bool.and_false,
    s.storeReg_of_not_isRw hrw]
  rfl

/-! ### Misaligned accesses and reserved offsets (20_memory.md R75; 10_state.md R42) -/

section
variable (s : State) {width : Width} {o : Word}

theorem hostWrite_misaligned (hlt : o.toNat < 0x100) (h : width ≠ .w32 ∨ o.toNat % 4 ≠ 0) (v : Word) :
    hostWrite width o v s = .next s := by
  rw [hostWrite, regionOf_registers o hlt]
  exact if_neg fun ⟨hwidth, haligned⟩ => h.elim (· hwidth) (· haligned)

theorem regAt_reserved {a : Nat} (h : 0x4C ≤ a) : regAt a = none :=
  List.getElem?_eq_none (show 19 ≤ a / 4 by omega)

theorem hostRead_reservedRegister (hlo : 0x4C ≤ o.toNat) (hhi : o.toNat ≤ 0xFC) (haligned : o.toNat % 4 = 0) :
    hostRead .w32 o s = .next { s with readData := 0 } := by
  rw [hostRead, regionOf_registers o (by omega)]
  simp only [haligned, and_self, if_true, State.readRegister, regAt_reserved hlo]

theorem hostWrite_reservedRegister (hlo : 0x4C ≤ o.toNat) (hhi : o.toNat ≤ 0xFC) (haligned : o.toNat % 4 = 0)
    (v : Word) : hostWrite .w32 o v s = .next s := by
  rw [hostWrite, regionOf_registers o (by omega)]
  simp only [haligned, and_self, if_true, regAt_reserved hlo]

end

/-! ### The buffer windows (20_memory.md R76 to R78, R81) -/

section
variable (b : Nat → Byte)

theorem getLsbD_wordOfBytes (i : Nat) :
    (wordOfBytes (b 0) (b 1) (b 2) (b 3)).getLsbD i = (decide (i < 32) && (b (i / 8)).getLsbD (i % 8)) := by
  have hwidth : (wordOfBytes (b 0) (b 1) (b 2) (b 3)).getLsbD i =
      BitVec.getLsbD (w := 8 + 8 + 8 + 8) (wordOfBytes (b 0) (b 1) (b 2) (b 3)) i := rfl
  rw [hwidth, wordOfBytes]
  simp only [BitVec.getLsbD_append]
  grind

/-- Byte `k` of four bytes put together is that byte. -/
theorem extractLsb'_wordOfBytes {k : Nat} (hk : k < 4) :
    (wordOfBytes (b 0) (b 1) (b 2) (b 3)).extractLsb' (8 * k) 8 = b k :=
  extractLsb'_eq_of_getLsbD fun i hi => by
    rw [getLsbD_wordOfBytes, decide_eq_true (by omega), Bool.true_and, show (8 * k + i) / 8 = k by omega,
      show (8 * k + i) % 8 = i by omega]

end

section
variable (s : State) (m : Memory) (cap a : Nat)

theorem State.readBuffer_w8 :
    ∃ x d, s.readBuffer m cap .w8 a = { s with readData := x, draws := d } ∧ x.extractLsb' 8 24 = 0 ∧
      (a < cap → x.extractLsb' 0 8 = m.read a) := by
  refine ⟨_, _, rfl, ?_, fun ha => ?_⟩
  · rw [BitVec.extractLsb'_setWidth_of_le (by decide)]
    exact extractLsb'_eq_of_getLsbD fun i _ => (BitVec.getLsbD_of_ge _ _ (by omega)).trans BitVec.getLsbD_zero.symm
  · rw [BitVec.extractLsb'_setWidth_of_le (by decide), BitVec.extractLsb'_eq_self]
    exact if_pos ha

theorem State.readBuffer_w32 :
    ∃ x d, s.readBuffer m cap .w32 a = { s with readData := x, draws := d } ∧
      (a % 4 = 0 → ∀ k < 4, a + k < cap → x.extractLsb' (8 * k) 8 = m.read (a + k)) := by
  by_cases haligned : a % 4 = 0
  · refine ⟨_, _, if_pos haligned, fun _ k hk hcap => ?_⟩
    exact (extractLsb'_wordOfBytes (fun j => bufferByte m cap s.draws (a + j)) hk).trans (if_pos hcap)
  · exact ⟨_, _, if_neg haligned, fun h => absurd h haligned⟩

end

theorem hostRead_inWindow (s : State) (width : Width) (a : Nat) (h : a < 2 ^ 24) :
    hostRead width (BitVec.ofNat 32 (0x1000000 + a)) s = .next (s.readBuffer s.inBuf s.par.inCap width a) := by
  rw [hostRead, regionOf_inWindow a h]

theorem hostRead_outWindow_idle {s : State} (hidle : s.seq = .idle) (width : Width) (a : Nat) (h : a < 2 ^ 24) :
    hostRead width (BitVec.ofNat 32 (0x2000000 + a)) s = .next (s.readBuffer s.outBuf s.par.outCap width a) := by
  rw [hostRead, regionOf_outWindow a h]
  simp only [(State.isBusy_false_iff s).2 hidle, Bool.false_eq_true, if_false]

/-- The window of an address, as the obligations list the two, is read as its buffer. -/
theorem hostRead_window {s : State} {win : Nat × Memory × Nat}
    (hwin : win ∈ [(0x1000000, s.inBuf, s.par.inCap), (0x2000000, s.outBuf, s.par.outCap)])
    (h : win.1 = 0x1000000 ∨ s.seq = .idle) (width : Width) {a : Nat} (ha : a < 2 ^ 24) :
    hostRead width (BitVec.ofNat 32 (win.1 + a)) s = .next (s.readBuffer win.2.1 win.2.2 width a) := by
  rcases List.mem_pair.1 hwin with rfl | rfl
  · exact hostRead_inWindow s width a ha
  · exact hostRead_outWindow_idle (h.resolve_left (show 0x2000000 ≠ 0x1000000 by decide)) width a ha

theorem hostWrite_outWindow (s : State) (width : Width) (v : Word) (a : Nat) (h : a < 2 ^ 24) :
    hostWrite width (BitVec.ofNat 32 (0x2000000 + a)) v s = .next s := by
  rw [hostWrite, regionOf_outWindow a h]

/-- A write to IN of an Idle block stores its bytes (20_memory.md R76, R77). -/
theorem hostWrite_inWindow_idle {s : State} (hidle : s.seq = .idle) (width : Width) (v : Word) (a : Nat)
    (h : a < 2 ^ 24) :
    hostWrite width (BitVec.ofNat 32 (0x1000000 + a)) v s =
      .next { s with inBuf := storeBytes s.par.inCap s.inBuf a (writeLanes width a v) } := by
  rw [hostWrite_inWindow s width v a h, State.writeIn, (State.isBusy_false_iff s).2 hidle]
  rfl

/-! ### The obligations -/

/-- Settles O52. -/
theorem readsHaveNoSideEffect : Obligations.ReadsHaveNoSideEffect := fun _ _ _ _ => hostRead_frame

/-- Settles O47: an Idle block's register reads its word, whose fields are read off one by one. -/
theorem registerReads : Obligations.RegisterReads := by
  intro s hidle
  have hread {o : Word} {r : Reg} (hat : RegisterAt o r) {x : Word} (hx : s.regWord r = x) := hostRead_idle hidle hat hx
  refine ⟨⟨_, hread (r := .ctrl) (by decide) rfl, ctrlWord_fields s⟩, hread (r := .cmd) (by decide) rfl,
    ⟨_, hostRead_status s, (statusWord_busy s).trans ((State.isBusy_false_iff s).2 hidle), statusWord_done s,
      statusWord_err s, statusWord_rej s, statusWord_reserved s, statusWord_errCode s, statusWord_errDetail s,
      statusWord_high s⟩,
    hread (r := .arg) (by decide) rfl, hread (r := .inLen) (by decide) rfl, hread (r := .outLen) (by decide) rfl,
    hread (r := .sampleRate) (by decide) rfl, hread (r := .baudRate) (by decide) rfl,
    hread (r := .syncMs) (by decide) rfl, ⟨_, hread (r := .modCfg) (by decide) rfl, modCfgWord_fields s.modCfg⟩,
    fun hclosed => ?closed, fun base depth count rate hopen => ?opened, hread (r := .smpPos) (by decide) rfl,
    hread (r := .smpRaw) (by decide) rfl, ⟨_, hread (r := .syncState) (by decide) rfl, syncWord_fields s⟩,
    hread (r := .cycStart) (by decide) rfl, hread (r := .cycLen) (by decide) rfl,
    hread (r := .demodBytes) (by decide) rfl⟩
  case closed =>
    simp only [List.forall_mem_cons, List.not_mem_nil, false_imp_iff, implies_true, and_true]
    exact ⟨hread (r := .smpCount) (by decide) (congrArg View.count hclosed),
      hread (r := .smpRate) (by decide) (congrArg View.rate hclosed),
      hread (r := .smpInfo) (by decide) (congrArg View.info hclosed)⟩
  case opened =>
    exact ⟨hread (r := .smpCount) (by decide) (congrArg View.count hopen),
      hread (r := .smpRate) (by decide) (congrArg View.rate hopen), _,
      hread (r := .smpInfo) (by decide) (congrArg View.info hopen), infoWord_fields base depth count rate⟩

/-- Settles O48: a read/write register of an Idle block stores its fields; the read-only ones are the result registers. -/
theorem registerWrites : Obligations.RegisterWrites := by
  intro s v
  refine ⟨fun hidle => ?_, fun o ho => ?readOnly⟩
  case readOnly =>
    obtain ⟨r, hat, hr⟩ := resultRegister_offsets o ho
    exact hostWrite_anyWhileBusy hat hr v s
  have hwrite {o : Word} {r : Reg} (hat : RegisterAt o r) (hr : r.isRw = true) := hostWrite_idle hidle hat hr v
  exact ⟨hwrite (r := .ctrl) (by decide) rfl, hwrite (r := .arg) (by decide) rfl,
    hwrite (r := .inLen) (by decide) rfl, hwrite (r := .sampleRate) (by decide) rfl,
    hwrite (r := .baudRate) (by decide) rfl, hwrite (r := .syncMs) (by decide) rfl,
    hwrite (r := .modCfg) (by decide) rfl⟩

/-- Settles O49: one lemma for each of the three ranges. -/
theorem reservedAndMisalignedAccesses : Obligations.ReservedAndMisalignedAccesses := by
  intro s o v
  refine ⟨fun width hlt h => ⟨hostWrite_misaligned s hlt h v, hostRead_inAperture s width (by omega)⟩,
    fun hlo hhi haligned =>
      ⟨hostRead_reservedRegister s hlo hhi haligned, hostWrite_reservedRegister s hlo hhi haligned v⟩,
    fun width hlo hhi => ?_⟩
  rw [hostRead, hostWrite, regionOf_reserved hlo hhi]
  exact ⟨rfl, rfl⟩

/-- The lanes of an aligned word are its bytes (20_memory.md R81). -/
theorem getD_writeLanes_w32 {a : Nat} (haligned : a % 4 = 0) (v : Word) {k : Nat} (hk : k < 4) :
    ((writeLanes .w32 a v)[k]?).getD 0 = byteOfWord v k := by
  rw [writeLanes, if_pos haligned]
  interval_cases k <;> rfl

/-- Settles O50: the bytes of `writeLanes`, each at its address if that is below the capacity. -/
theorem inWindowWrites : Obligations.InWindowWrites := by
  intro s a v hidle ha
  have hwrite (width : Width) := hostWrite_inWindow_idle hidle width v a ha
  refine ⟨⟨_, hwrite .w8, fun b => ?byte⟩, fun haligned => ⟨_, hwrite .w32, fun b => ?word⟩, hwrite .w16,
    fun hmisaligned => ?misaligned⟩
  case byte =>
    have hlength : (writeLanes .w8 a v).length = 1 := rfl
    rw [read_storeBytes, hlength]
    by_cases hb : b = a ∧ a < s.par.inCap
    · rw [if_pos (by omega), if_pos hb, hb.1, Nat.sub_self]
      rfl
    · rw [if_neg (by omega), if_neg hb]
  case word =>
    have hlength : (writeLanes .w32 a v).length = 4 := by rw [writeLanes, if_pos haligned]; rfl
    rw [read_storeBytes, hlength]
    by_cases hb : a ≤ b ∧ b < a + 4 ∧ b < s.par.inCap
    · rw [if_pos hb, if_pos hb, getD_writeLanes_w32 haligned v (by omega), byteOfWord]
    · rw [if_neg hb, if_neg hb]
  case misaligned =>
    rw [hwrite .w32, writeLanes, if_neg hmisaligned]
    rfl

/-- Settles O51: both windows read as `readBuffer`, and OUT ignores writes. -/
theorem windowReads : Obligations.WindowReads := by
  intro s a ha
  refine ⟨fun win hwin h => ?reads, fun width v => hostWrite_outWindow s width v a ha⟩
  have hread (width : Width) := hostRead_window hwin h width ha
  rw [hread, hread, hread]
  obtain ⟨x, d, h8, hzero, hbyte⟩ := s.readBuffer_w8 win.2.1 win.2.2 a
  obtain ⟨y, e, h32, hlanes⟩ := s.readBuffer_w32 win.2.1 win.2.2 a
  exact ⟨⟨x, d, congrArg _ h8, hzero, hbyte⟩, ⟨_, _, rfl⟩, ⟨y, e, congrArg _ h32, hlanes⟩⟩

end Sys2Proof.Machine
end

section
/-! PROOFS. What one step is: the turn it takes, when it completes and when it stops: O4, O5, O54, O55, O58, O59, O60
(spec/20_memory.md section 5; spec/60_exceptions.md section 3; spec/70_reset_and_hazards.md sections 3 and 4). -/

namespace Sys2Proof.Machine

/-! ### A step is the next turn, or completes a command -/

section
variable {s : State} (hpar : s.par.Ok)
include hpar

theorem step_turn {turn : Turn} {rest : List Turn} (h : s.pending = turn :: rest) :
    step s = takeTurn turn { s with pending := rest } := (step_ok s hpar).trans (nextTurn_cons s turn rest h)

theorem step_last (h : s.pending = []) : step s = completeBusy s := (step_ok s hpar).trans (nextTurn_nil s h)

end

/-! ### A word issued to an Idle block runs as exec runs it (log 2) -/

section
variable {s : State} (hidle : s.seq = .idle)
include hidle

theorem cmdWrite_idle_next (w : Word) : ∃ t, cmdWrite w s = .next t := by
  cases h : longOp (decode w) with
  | some op => exact ⟨_, cmdWrite_long w op s hidle h⟩
  | none =>
    obtain ⟨t, ht⟩ := exec_next (decode w) s.clearReport
    exact ⟨t, (cmdWrite_short w s hidle h).trans ht⟩

/-- Acceptance and completion together are the command's effect on the Idle state. -/
theorem issue_eq_exec (w : Word) : issue w s = exec (decode w) s := by
  cases h : longOp (decode w) with
  | some op =>
    have hbusy : (s.accept op).seq = .busy op s.liveSnap := rfl
    rw [issue, cmdWrite_long w op s hidle h, ← exec_accept (decode w) op s hidle h]
    exact completeBusy_busy _ op _ hbusy
  | none =>
    obtain ⟨t, ht⟩ := exec_next (decode w) s
    have hcmd : cmdWrite w s = .next t := by rw [cmdWrite_short w s hidle h, exec_clearReport _ s h, ht]
    rw [issue, hcmd, ht]
    exact completeBusy_idle t (exec_idle _ s t hidle ht)

end

/-! ### Every turn inside the aperture completes (70_reset_and_hazards.md R300) -/

section
variable (s : State)

theorem completeBusy_next : ∃ t, completeBusy s = .next t ∧ t.seq = .idle ∧ t.pending = s.pending := by
  cases hseq : s.seq with
  | idle => exact ⟨s, completeBusy_idle s hseq, hseq, rfl⟩
  | busy op p =>
    obtain ⟨t, ht⟩ := exec_next op.instr s
    exact ⟨t, (completeBusy_busy s op p hseq).trans ht, exec_op_idle op s t ht,
      (exec_frame _ s t op.instr_ne_reset ht).pending⟩

theorem cmdWrite_next (w : Word) : ∃ t, cmdWrite w s = .next t := by
  cases hseq : s.seq with
  | idle => exact cmdWrite_idle_next hseq w
  | busy op p =>
    rw [cmdWrite_busy w s ((State.isBusy_iff s).2 ⟨op, p, hseq⟩)]
    split <;> exact ⟨_, rfl⟩

theorem writeRegister_next (r : Reg) (v : Word) : ∃ t, writeRegister r v s = .next t := by
  unfold writeRegister
  split
  · exact cmdWrite_next s v
  · split
    · exact ⟨_, rfl⟩
    · split <;> exact ⟨_, rfl⟩

theorem hostWrite_next (width : Width) {o : Word} (v : Word) (h : o.toNat < 0x3000000) :
    ∃ t, hostWrite width o v s = .next t := by
  unfold hostWrite
  split
  · split
    · split
      · exact ⟨_, rfl⟩
      · exact writeRegister_next s _ v
    · exact ⟨_, rfl⟩
  · exact ⟨_, rfl⟩
  · exact ⟨_, rfl⟩
  · exact ⟨_, rfl⟩
  next hregion => exact absurd ((regionOf_eq_outside_iff o).1 hregion) (Nat.not_le.2 h)

theorem takeTurn_next (turn : Turn) (h : turn.inAperture = true) : ∃ t, takeTurn turn s = .next t := by
  cases turn with
  | read width o =>
    obtain ⟨x, d, hread⟩ := hostRead_inAperture s width (of_decide_eq_true h)
    exact ⟨_, hread⟩
  | write width o v => exact hostWrite_next s width v (of_decide_eq_true h)
  | rst => exact ⟨_, rfl⟩
  | issue w =>
    obtain ⟨t, ht⟩ := cmdWrite_next s w
    obtain ⟨u, hu, -⟩ := completeBusy_next t
    exact ⟨u, by rw [takeTurn, issue, ht]; exact hu⟩
  | block =>
    obtain ⟨t, ht, -⟩ := completeBusy_next s
    exact ⟨t, ht⟩

theorem takeTurn_outside (turn : Turn) (h : turn.inAperture = false) : takeTurn turn s = .fault .outsideAperture := by
  cases turn with
  | read width o => exact hostRead_outside s width (Nat.le_of_not_lt (of_decide_eq_false h))
  | write width o v => exact hostWrite_outside s width v (Nat.le_of_not_lt (of_decide_eq_false h))
  | rst | issue | block => cases h

end

/-! ### No turn changes the parameters or the turns still to come -/

/-- A command keeps the parameters and the turns: RESET too (log 14). -/
theorem exec_keeps {i : Instr} {s t : State} (h : exec i s = .next t) : t.par = s.par ∧ t.pending = s.pending := by
  by_cases hi : i = .reset
  · subst hi
    cases h
    exact ⟨rfl, rfl⟩
  · have hf := exec_frame i s t hi h
    exact ⟨hf.par, hf.pending⟩

theorem completeBusy_keeps {s t : State} (h : completeBusy s = .next t) :
    t.par = s.par ∧ t.pending = s.pending := by
  cases hseq : s.seq with
  | idle =>
    cases (completeBusy_idle s hseq).symm.trans h
    exact ⟨rfl, rfl⟩
  | busy op p => exact exec_keeps ((completeBusy_busy s op p hseq).symm.trans h)

theorem cmdWrite_keeps {w : Word} {s t : State} (h : cmdWrite w s = .next t) :
    t.par = s.par ∧ t.pending = s.pending := by
  cases hseq : s.seq with
  | idle =>
    cases hop : longOp (decode w) with
    | some op =>
      cases (cmdWrite_long w op s hseq hop).symm.trans h
      exact ⟨rfl, rfl⟩
    | none => exact exec_keeps (s := s.clearReport) ((cmdWrite_short w s hseq hop).symm.trans h)
  | busy op p =>
    rw [cmdWrite_busy w s ((State.isBusy_iff s).2 ⟨op, p, hseq⟩)] at h
    split at h <;> cases h <;> exact ⟨rfl, rfl⟩

theorem State.storeReg_keeps (s : State) (v : Word) (r : Reg) :
    (s.storeReg v r).par = s.par ∧ (s.storeReg v r).pending = s.pending := by
  cases r <;> exact ⟨rfl, rfl⟩

theorem State.writeIn_keeps (s : State) (width : Width) (a : Nat) (v : Word) :
    (s.writeIn width a v).par = s.par ∧ (s.writeIn width a v).pending = s.pending := by
  unfold State.writeIn
  split <;> exact ⟨rfl, rfl⟩

theorem hostWrite_keeps {width : Width} {o v : Word} {s t : State} (h : hostWrite width o v s = .next t) :
    t.par = s.par ∧ t.pending = s.pending := by
  cases hostWrite_effect h with
  | command _ _ hcmd => exact cmdWrite_keeps hcmd
  | status _ _ ht => rw [ht]; exact ⟨rfl, rfl⟩
  | ignored ht => rw [ht]; exact ⟨rfl, rfl⟩
  | rejected _ ht => rw [ht]; exact ⟨rfl, rfl⟩
  | register _ r ht => rw [ht]; exact s.storeReg_keeps v r
  | inWindow _ a ht => rw [ht]; exact s.writeIn_keeps width a v

theorem issue_cases {w : Word} {s t : State} (h : issue w s = .next t) :
    ∃ u, cmdWrite w s = .next u ∧ completeBusy u = .next t := by
  obtain ⟨u, hu⟩ := cmdWrite_next s w
  rw [issue, hu] at h
  exact ⟨u, hu, h⟩

theorem takeTurn_keeps {turn : Turn} {s t : State} (h : takeTurn turn s = .next t) :
    t.par = s.par ∧ t.pending = s.pending := by
  cases turn with
  | read width o =>
    rw [hostRead_frame h]
    exact ⟨rfl, rfl⟩
  | write width o v => exact hostWrite_keeps h
  | rst =>
    cases h
    exact ⟨rfl, rfl⟩
  | issue w =>
    obtain ⟨u, hu, ht⟩ := issue_cases h
    obtain ⟨hupar, hupending⟩ := cmdWrite_keeps hu
    obtain ⟨htpar, htpending⟩ := completeBusy_keeps ht
    exact ⟨htpar.trans hupar, htpending.trans hupending⟩
  | block => exact completeBusy_keeps h

/-! ### REJ (10_state.md R29) -/

theorem completeBusy_rej {s t : State} (h : completeBusy s = .next t) : t.rej = s.rej := by
  cases hseq : s.seq with
  | idle =>
    cases (completeBusy_idle s hseq).symm.trans h
    rfl
  | busy op p => exact (exec_frame _ s t op.instr_ne_reset ((completeBusy_busy s op p hseq).symm.trans h)).rej

/-- Only the RESET word, of all words, clears REJ. -/
theorem cmdWrite_rej {w : Word} {s t : State} (hrej : s.rej = true) (hw : w ≠ 0x0000000F)
    (h : cmdWrite w s = .next t) : t.rej = true := by
  cases hseq : s.seq with
  | idle =>
    cases hop : longOp (decode w) with
    | some op =>
      cases (cmdWrite_long w op s hseq hop).symm.trans h
      exact hrej
    | none =>
      have hne : decode w ≠ .reset := mt (decode_eq_reset_iff w).1 hw
      exact (exec_frame _ _ t hne ((cmdWrite_short w s hseq hop).symm.trans h)).rej.trans hrej
  | busy op p =>
    rw [cmdWrite_busy w s ((State.isBusy_iff s).2 ⟨op, p, hseq⟩), if_neg hw] at h
    cases h
    rfl

theorem State.storeReg_rej (s : State) (v : Word) (r : Reg) : (s.storeReg v r).rej = s.rej := by
  cases r <;> rfl

theorem State.writeIn_rej {s : State} (hrej : s.rej = true) (width : Width) (a : Nat) (v : Word) :
    (s.writeIn width a v).rej = true := by
  unfold State.writeIn
  split
  · rfl
  · exact hrej

theorem hostWrite_rej {width : Width} {o v : Word} {s t : State} (hrej : s.rej = true)
    (h : hostWrite width o v s = .next t) :
    t.rej = true ∨ (width = .w32 ∧ o = 0x08 ∧ v.getLsbD 3 = true) ∨ (width = .w32 ∧ o = 0x04 ∧ v = 0x0000000F) := by
  cases hostWrite_effect h with
  | command hwidth ho hcmd =>
    by_cases hv : v = 0x0000000F
    · exact .inr (.inr ⟨hwidth, ho, hv⟩)
    · exact .inl (cmdWrite_rej hrej hv hcmd)
  | status hwidth ho ht =>
    cases hv : v.getLsbD 3 with
    | true => exact .inr (.inl ⟨hwidth, ho, rfl⟩)
    | false =>
      refine .inl ?_
      rw [ht, State.writeStatus_rej, hrej, hv]
      rfl
  | ignored ht => exact .inl (ht ▸ hrej)
  | rejected _ ht => exact .inl (ht ▸ rfl)
  | register _ r ht => exact .inl (ht ▸ (s.storeReg_rej v r).trans hrej)
  | inWindow _ a ht => exact .inl (ht ▸ State.writeIn_rej hrej width a v)

theorem takeTurn_rej {turn : Turn} {s t : State} (hrej : s.rej = true) (h : takeTurn turn s = .next t) :
    t.rej = true ∨ (∃ v : Word, turn = .write .w32 0x08 v ∧ v.getLsbD 3 = true) ∨ turn = .rst ∨
      turn = .write .w32 0x04 0x0000000F ∨ turn = .issue 0x0000000F := by
  cases turn with
  | read width o =>
    rw [hostRead_frame h]
    exact .inl hrej
  | write width o v =>
    rcases hostWrite_rej hrej h with h | ⟨rfl, rfl, hv⟩ | ⟨rfl, rfl, rfl⟩
    · exact .inl h
    · exact .inr (.inl ⟨v, rfl, hv⟩)
    · exact .inr (.inr (.inr (.inl rfl)))
  | rst => exact .inr (.inr (.inl rfl))
  | issue w =>
    by_cases hw : w = 0x0000000F
    · exact .inr (.inr (.inr (.inr (congrArg _ hw))))
    · obtain ⟨u, hu, ht⟩ := issue_cases h
      exact .inl ((completeBusy_rej ht).trans (cmdWrite_rej hrej hw hu))
  | block => exact .inl ((completeBusy_rej h).trans hrej)

/-! ### A Busy block (20_memory.md R84) -/

/-- Of the effects of a write a Busy block allows three: it is ignored, it is rejected, or it clears STATUS bits. -/
theorem hostWrite_busy_frame {s t : State} {width : Width} {o v : Word} (hbusy : s.isBusy = true)
    (hreset : ¬(width = .w32 ∧ o = 0x04 ∧ v = 0x0000000F)) (h : hostWrite width o v s = .next t) :
    t = { s with rej := t.rej, done := t.done } := by
  have hnotIdle : s.seq ≠ .idle := fun hidle => by
    rw [(State.isBusy_false_iff s).2 hidle] at hbusy
    cases hbusy
  cases hostWrite_effect h with
  | command hwidth ho hcmd =>
    have hv : v ≠ 0x0000000F := fun hv => hreset ⟨hwidth, ho, hv⟩
    rw [cmdWrite_busy v s hbusy, if_neg hv] at hcmd
    cases hcmd
    rfl
  | status _ _ ht => rw [ht]; rfl
  | ignored ht => rw [ht]
  | rejected _ ht => rw [ht]
  | register hidle => exact absurd hidle hnotIdle
  | inWindow hidle => exact absurd hidle hnotIdle

/-! ### The obligations -/

/-- Settles O4: the turn is taken away, and issuing is exec. -/
theorem stepRunsTheIssuedCommand : Obligations.StepRunsTheIssuedCommand := by
  refine ⟨?issued, ?placed⟩
  case issued =>
    rintro s w i rest hpar hidle hpending rfl
    exact (step_turn hpar hpending).trans (issue_eq_exec (s := { s with pending := rest }) hidle w)
  case placed =>
    intro s nbits w i hpar hdecode
    have hword : decode (fetchWord nbits w) = i := by
      unfold decodeTableWord decodeBits at hdecode
      split at hdecode
      · exact Option.some.inj hdecode
      · cases hdecode
    rw [← hword]
    exact (step_turn (s := s.withFetchWord nbits w) hpar rfl).trans (issue_eq_exec (s := { s with seq := .idle }) rfl _)

/-- Settles O5: each kind of turn by `step_turn`, and the empty list by `step_last`. -/
theorem stepTakesTheNextTurn : Obligations.StepTakesTheNextTurn := by
  intro s hpar rest
  refine ⟨fun _ _ h => step_turn hpar h, fun _ _ _ h => step_turn hpar h, fun h => step_turn hpar h,
    fun h hidle => (step_turn hpar h).trans (completeBusy_idle _ hidle),
    fun op p h hbusy => (step_turn hpar h).trans (completeBusy_busy _ op p hbusy),
    fun h hidle => (step_last hpar h).trans (completeBusy_idle s hidle),
    fun op p h hbusy => (step_last hpar h).trans (completeBusy_busy s op p hbusy)⟩

/-- Settles O60: acceptance by `hostWrite_cmd_long`, completion by `exec_accept`. -/
theorem acceptedCommandRunsAsExec : Obligations.AcceptedCommandRunsAsExec := fun s w op hidle h =>
  ⟨_, hostWrite_cmd_long hidle h, rfl, exec_accept (decode w) op s hidle h⟩

/-- Settles O58: `exec_next`, and a turn completes exactly when it lies inside the aperture. -/
theorem stepStopsOnlyOutsideTheSpec : Obligations.StepStopsOnlyOutsideTheSpec := by
  refine ⟨exec_next, fun s hpar => ⟨fun hin => ?completes, fun turn rest hpending hout => ?stops⟩, step_refused⟩
  case completes =>
    cases hpending : s.pending with
    | nil =>
      obtain ⟨t, ht, -⟩ := completeBusy_next s
      exact ⟨t, (step_last hpar hpending).trans ht⟩
    | cons turn rest =>
      obtain ⟨t, ht⟩ := takeTurn_next { s with pending := rest } turn (hin turn rest hpending)
      exact ⟨t, (step_turn hpar hpending).trans ht⟩
  case stops => exact (step_turn hpar hpending).trans (takeTurn_outside _ turn hout)

/-- Settles O59, by induction on the turns: each step takes one and keeps the others; the last completes. -/
theorem commandsComplete : Obligations.CommandsComplete := by
  intro s
  induction hpending : s.pending generalizing s with
  | nil =>
    intro hpar _
    obtain ⟨t, ht, hidle, hkeep⟩ := completeBusy_next s
    refine ⟨t, ?_, hidle, hkeep.trans hpending⟩
    rw [List.length_nil, runSteps, step_last hpar hpending, ht]
    rfl
  | cons turn rest ih =>
    intro hpar hin
    rw [List.forall_mem_cons] at hin
    obtain ⟨t, ht⟩ := takeTurn_next { s with pending := rest } turn hin.1
    obtain ⟨htpar, htpending⟩ := takeTurn_keeps ht
    obtain ⟨u, hu, hidle, hempty⟩ := ih t htpending (htpar ▸ hpar) hin.2
    refine ⟨u, ?_, hidle, hempty⟩
    rw [List.length_cons, runSteps, step_turn hpar hpending, ht]
    exact hu

/-- Settles O54: only a STATUS write with bit 3, the reset input and the RESET word clear REJ. -/
theorem rejIsSticky : Obligations.RejIsSticky := by
  intro s t hrej hstep
  by_cases hpar : s.par.Ok
  · cases hpending : s.pending with
    | nil => exact .inl ((completeBusy_rej ((step_last hpar hpending).symm.trans hstep)).trans hrej)
    | cons turn rest =>
      have hturn := takeTurn_rej (s := { s with pending := rest }) hrej ((step_turn hpar hpending).symm.trans hstep)
      exact hturn.imp_right fun hclears => ⟨turn, rest, rfl, hclears⟩
  · cases (step_refused s hpar).symm.trans hstep

/-- Settles O55: `hostRead_frame` and `hostWrite_busy_frame`, on the state with the turn taken away. -/
theorem busyCommandIsUndisturbed : Obligations.BusyCommandIsUndisturbed := by
  intro s t turn rest hbusy hpending hturn hstep
  by_cases hpar : s.par.Ok
  · have htake : takeTurn turn { s with pending := rest } = .next t := (step_turn hpar hpending).symm.trans hstep
    rcases hturn with ⟨width, o, rfl⟩ | ⟨width, o, v, rfl, hreset⟩
    · rw [hostRead_frame (s := { s with pending := rest }) htake]
    · rw [hostWrite_busy_frame (s := { s with pending := rest }) hbusy hreset htake]
  · cases (step_refused s hpar).symm.trans hstep

end Sys2Proof.Machine
end

section
/-! PROOFS. The reset state, from the RESET command and from the reset input: O8 (spec/44_control.md R251;
spec/70_reset_and_hazards.md R290, R291; spec/10_state.md R22, R48). -/

namespace Sys2Proof.Machine

/-- The reset values of R22, at the offsets of their registers. -/
theorem reset_regWord :
    ∀ p ∈ [((0x00 : Word), (0x00000000 : Word)), (0x04, 0), (0x08, 0), (0x0C, 0), (0x10, 0), (0x14, 0),
      (0x18, 0x00004E20), (0x1C, 0x000009C4), (0x20, 0x00000BB8), (0x24, 0x00000800)] ++
      [(0x28, 0), (0x2C, 0), (0x30, 0), (0x34, 0), (0x38, 0), (0x3C, 0), (0x40, 0), (0x44, 0), (0x48, 0)],
    ∃ r, RegisterAt p.1 r ∧ State.reset.regWord r = p.2 := by
  simp only [List.forall_mem_append, List.forall_mem_cons, List.not_mem_nil, false_imp_iff, implies_true, and_true]
  exact ⟨⟨⟨.ctrl, by decide, rfl⟩, ⟨.cmd, by decide, rfl⟩, ⟨.status, by decide, rfl⟩, ⟨.arg, by decide, rfl⟩,
      ⟨.inLen, by decide, rfl⟩, ⟨.outLen, by decide, rfl⟩, ⟨.sampleRate, by decide, rfl⟩,
      ⟨.baudRate, by decide, rfl⟩, ⟨.syncMs, by decide, rfl⟩, ⟨.modCfg, by decide, rfl⟩⟩,
    ⟨.smpCount, by decide, rfl⟩, ⟨.smpRate, by decide, rfl⟩, ⟨.smpInfo, by decide, rfl⟩,
    ⟨.smpPos, by decide, rfl⟩, ⟨.smpRaw, by decide, rfl⟩, ⟨.syncState, by decide, rfl⟩,
    ⟨.cycStart, by decide, rfl⟩, ⟨.cycLen, by decide, rfl⟩, ⟨.demodBytes, by decide, rfl⟩⟩

/-! ### The obligation -/

/-- Settles O8: each register reads its reset value, and `resetBlock` is what all three ways of a reset leave. -/
theorem resetReturnsEverythingToReset : Obligations.ResetReturnsEverythingToReset := by
  refine ⟨fun p hp => ?registers, fun s => ⟨s.resetBlock, rfl, hostWrite_cmd_reset s, rfl, ?_⟩⟩
  case registers =>
    obtain ⟨r, hat, hvalue⟩ := reset_regWord p hp
    exact ⟨_, hostRead_idle rfl hat hvalue, rfl⟩
  have hmodCfg : ModCfg.word ⟨false, 8⟩ = 0x00000800 := by decide
  have hstatus : State.reset.statusWord = 0 := by decide
  exact ⟨rfl, hstatus, rfl, rfl, rfl, rfl, rfl, rfl, hmodCfg, rfl, rfl, rfl, ⟨rfl, rfl, rfl, rfl, rfl, rfl, rfl⟩, rfl, rfl,
    rfl, rfl, rfl⟩

end Sys2Proof.Machine
end

section
/-! PROOFS. The invariant of Safety.lean: it holds right after reset, each command, host access and turn keeps it, and so
does every step: O56, O57 (spec/10_state.md sections 2 to 4; spec/60_exceptions.md section 1). -/

namespace Sys2Proof.Machine

/-! ### Every error a command raises is one the spec lists (60_exceptions.md R260 to R262) -/

theorem errOk_of_parse {b : List Byte} {e : Err} (h : parse b = .error e) : e.Ok := by
  obtain ⟨k, d⟩ := e
  rcases parse_error b _ h with ⟨rfl, hlo, hhi⟩ | ⟨rfl, hlo, hhi⟩ <;> exact ⟨hlo, hhi⟩

theorem errOk_of_envCheck {b : List Byte} {e : Err} (h : envCheck b = some e) : e.Ok := by
  rcases envCheck_error b e h with rfl | rfl | rfl | rfl <;> decide

theorem errOk_of_modulateConfig {par : Params} {p : Snapshot} {e : Err} (h : modulateConfig par p = .error e) :
    e.Ok := by
  obtain ⟨k, d⟩ := e
  rcases modulateConfig_error par p _ h with hcap | ⟨rfl, hlo, hhi⟩
  · cases hcap
    decide
  · exact ⟨hlo, hhi⟩

theorem errOk_of_demodLoop {fuel : Nat} {s : State} {e : Err} (h : (demodLoop fuel s).2 = some e) : e.Ok := by
  rcases demodLoop_error fuel s e h with rfl | rfl <;> decide

theorem errOk_of_finishDemod {t : State} {stream : Option Err} (hstream : ∀ e, stream = some e → e.Ok) {e : Err}
    (he : stream = some e ∨ (stream = none ∧ envCheck t.bytes = some e) ∨
      (stream = none ∧ envCheck t.bytes = none ∧ t.par.outCap < t.bytes.length ∧ e = ⟨.capacityExceeded, 2⟩)) :
    e.Ok := by
  rcases he with h | ⟨-, h⟩ | ⟨-, -, -, rfl⟩
  · exact hstream e h
  · exact errOk_of_envCheck h
  · decide

/-! ### The commands -/

namespace State.Inv

variable {s : State} (h : s.Inv)
include h

/-- A write of the cursor within the samples, and of SMP_RAW. -/
theorem setCursor {p : Word} (hp : p ≤ s.view.count) (r : Word) :
    ({ s with smpRaw := r, smpPos := p } : State).Inv where
  par_ok := h.par_ok
  in_wf := h.in_wf
  in_bounded := h.in_bounded
  out_wf := h.out_wf
  out_bounded := h.out_bounded
  outLen_le := h.outLen_le
  view_fits := h.view_fits
  pos_le := hp
  units := h.units
  bytes_counted := h.bytes_counted
  busy := h.busy
  report := h.report

/-- A view of a container in IN lies inside IN (41_sample_buffer.md R150). -/
theorem setParsedView {n : Nat} {v : View} (hn : n ≤ s.par.inCap) (hv : parse (s.input n) = .ok v) :
    (s.setView v).Inv := by
  have hfits := (parse_ok _ _ hv).1
  rw [State.length_input] at hfits
  exact h.setView v (Fits.mono hn v hfits)

theorem finishDemod {stream : Option Err} (hstream : ∀ e, stream = some e → e.Ok) : (finishDemod s stream).Inv := by
  rcases finishDemod_cases s stream with ⟨e, hfin, he⟩ | ⟨hfin, -, -, hlen⟩ <;> rw [hfin]
  · exact h.raiseOut e (errOk_of_finishDemod hstream he)
  · exact h.yieldOut _ hlen

theorem execDemodulate {t : State} (ht : exec .demodulate s = .next t) : t.Inv := by
  rcases execDemodulate_cases s with ⟨e, hexec, he⟩ | ⟨v, hparse, hcap, -, hexec⟩ <;> cases hexec.symm.trans ht
  · refine h.clearDemod.closeView.raiseOut e ?_
    rcases he with rfl | rfl | he
    · decide
    · decide
    · exact errOk_of_parse he
  · exact ((h.clearDemod.setParsedView hcap hparse).demodLoop _).finishDemod fun e => errOk_of_demodLoop

theorem execModulate {t : State} (ht : exec .modulate s = .next t) : t.Inv := by
  rcases execModulate_cases s with ⟨e, hexec, he⟩ | ⟨n, d, -, ⟨hexec, -⟩ | ⟨c, -, hexec, -, hlen⟩⟩ <;>
    cases hexec.symm.trans ht
  · exact h.raiseOut e (errOk_of_modulateConfig he)
  · exact (h.dropTones _ d n).raiseOut _ (by decide)
  · exact (h.dropTones _ d n).yieldOut c hlen

theorem execWrap {t : State} (ht : exec .wrap s = .next t) : t.Inv := by
  rcases execWrap_cases s with ⟨e, hexec, he⟩ | ⟨hexec, -, -, hlen⟩ <;> cases hexec.symm.trans ht
  · refine h.raiseOut e ?_
    rcases he with rfl | rfl | rfl <;> decide
  · exact h.yieldOut _ hlen

theorem execUnwrap {t : State} (ht : exec .unwrap s = .next t) : t.Inv := by
  rcases execUnwrap_cases s with ⟨e, hexec, he⟩ | ⟨hexec, -, -, hlen⟩ <;> cases hexec.symm.trans ht
  · refine h.raiseOut e ?_
    rcases he with rfl | he | rfl
    · decide
    · exact errOk_of_envCheck he
    · decide
  · exact h.yieldOut _ hlen

theorem execOpen {t : State} (ht : exec .openView s = .next t) : t.Inv := by
  rcases execOpen_cases s with ⟨e, hexec, he⟩ | ⟨v, hexec, hparse, hcap⟩ <;> cases hexec.symm.trans ht
  · refine h.closeView.raise e ?_
    rcases he with rfl | he
    · decide
    · exact errOk_of_parse he
  · exact (h.setParsedView hcap hparse).succeed

theorem execSeek {t : State} (ht : exec .seek s = .next t) : t.Inv := by
  rcases execSeek_cases s with ⟨hexec, -⟩ | ⟨hexec, harg⟩ <;> cases hexec.symm.trans ht
  · exact h.raise _ (by decide)
  · exact (h.setCursor (BitVec.le_of_lt harg) s.smpRaw).succeed

theorem execRead {t : State} (ht : exec .read s = .next t) : t.Inv := by
  rcases execRead_cases s with ⟨hexec, -⟩ | ⟨hexec, -, hpos⟩ <;> cases hexec.symm.trans ht
  · exact h.raise _ (by decide)
  · have hnext : s.smpPos + 1 ≤ s.view.count := by
      rw [BitVec.le_def, toNat_succ_of_lt hpos]
      exact hpos
    exact (h.setCursor hnext _).succeed

/-- NOP, the one command that does not leave SEQ Idle, is accepted by an Idle block only. -/
theorem exec {i : Instr} {t : State} (hnop : i = .nop → s.seq = .idle) (ht : exec i s = .next t) : t.Inv := by
  cases i with
  | nop =>
    cases (exec_nop s).symm.trans ht
    rw [hnop rfl]
    exact h.succeed
  | wrap => exact h.execWrap ht
  | unwrap => exact h.execUnwrap ht
  | modulate => exact h.execModulate ht
  | demodulate => exact h.execDemodulate ht
  | openView => exact h.execOpen ht
  | seek => exact h.execSeek ht
  | read => exact h.execRead ht
  | reserved8 | reserved9 | reservedA | reservedB | reservedC | reservedD | reservedE =>
    cases (exec_reserved s _ (by decide)).symm.trans ht
    exact h.raise _ (by decide)
  | reset =>
    cases ht
    exact h.resetBlock
  | illegal r o =>
    cases (exec_illegal r o s).symm.trans ht
    exact h.raise _ (by decide)

/-! ### The turns -/

theorem cmdWrite {w : Word} {t : State} (ht : cmdWrite w s = .next t) : t.Inv := by
  cases hseq : s.seq with
  | idle =>
    cases hop : longOp (decode w) with
    | some op =>
      cases (cmdWrite_long w op s hseq hop).symm.trans ht
      exact h.accept op
    | none => exact (h.clearReport hseq).exec (fun _ => hseq) ((cmdWrite_short w s hseq hop).symm.trans ht)
  | busy op p =>
    rw [cmdWrite_busy w s ((State.isBusy_iff s).2 ⟨op, p, hseq⟩)] at ht
    split at ht <;> cases ht
    · exact h.resetBlock
    · exact h.hostFields true s.pending s.readData s.draws

theorem completeBusy {t : State} (ht : completeBusy s = .next t) : t.Inv := by
  cases hseq : s.seq with
  | idle =>
    cases (completeBusy_idle s hseq).symm.trans ht
    exact h
  | busy op p =>
    have hnop : op.instr ≠ .nop := by cases op <;> decide
    exact h.exec (fun hi => absurd hi hnop) ((completeBusy_busy s op p hseq).symm.trans ht)

theorem hostWrite {width : Width} {o v : Word} {t : State} (ht : hostWrite width o v s = .next t) : t.Inv := by
  cases hostWrite_effect ht with
  | command _ _ hcmd => exact h.cmdWrite hcmd
  | status _ _ ht => exact ht ▸ h.writeStatus v
  | ignored ht => exact ht ▸ h
  | rejected _ ht => exact ht ▸ h.hostFields true s.pending s.readData s.draws
  | register hidle r ht => exact ht ▸ h.storeReg hidle v r
  | inWindow _ a ht => exact ht ▸ h.writeIn width a v

theorem takeTurn {turn : Turn} {t : State} (ht : takeTurn turn s = .next t) : t.Inv := by
  cases turn with
  | read width o =>
    rw [hostRead_frame ht]
    exact h.hostFields s.rej s.pending t.readData t.draws
  | write width o v => exact h.hostWrite ht
  | rst =>
    cases ht
    exact h.resetBlock
  | issue w =>
    obtain ⟨u, hu, hcomplete⟩ := issue_cases ht
    exact (h.cmdWrite hu).completeBusy hcomplete
  | block => exact h.completeBusy ht

theorem step {t : State} (ht : step s = .next t) : t.Inv := by
  cases hpending : s.pending with
  | nil => exact h.completeBusy ((step_last h.par_ok hpending).symm.trans ht)
  | cons turn rest =>
    exact (h.hostFields s.rej rest s.readData s.draws).takeTurn ((step_turn h.par_ok hpending).symm.trans ht)

end State.Inv

/-! ### The obligations -/

/-- Settles O56: the parameters of the reset state satisfy R8, both buffers hold no cell, and all else is 0. -/
theorem invariantAtReset : Obligations.InvariantAtReset where
  par_ok := by decide +kernel
  in_wf := List.Pairwise.nil
  in_bounded := fun _ hc => nomatch hc
  out_wf := List.Pairwise.nil
  out_bounded := fun _ hc => nomatch hc
  outLen_le := Nat.zero_le _
  view_fits := trivial
  pos_le := BitVec.le_refl _
  units := .inl rfl
  bytes_counted := rfl
  busy := trivial
  report := .inl ⟨rfl, rfl, rfl⟩

/-- Settles O57: a step is a turn or a completion, and each effect of a turn keeps the invariant. -/
theorem stepKeepsTheInvariant : Obligations.StepKeepsTheInvariant := fun _ _ h => h.step

end Sys2Proof.Machine
end

section
/-! PROOFS. UNWRAP on a corrupted envelope: a wrong length, and one flipped bit of a length field, payload or checksum:
O14 (spec/40_envelope.md R126, R127). -/

namespace Sys2Proof.Machine

/-- A byte with one bit flipped is another byte. -/
theorem xor_twoPow_ne {b : Byte} {k : Nat} (hk : k < 8) : b ^^^ BitVec.twoPow 8 k ≠ b := by
  intro h
  have hbit := congrArg (·.getLsbD k) h
  simp [hk] at hbit

/-- UNWRAP's answer to an input of another length than its first two bytes say. -/
theorem exec_unwrap_of_length_ne {u : State} {n : Nat} (hn : n = u.snap.inLen.toNat) (hcap : n ≤ u.par.inCap)
    (h2 : 2 ≤ n) (h : n ≠ u.inNat 0 * 256 + u.inNat 1 + 5) :
    exec .unwrap u = .next (u.raiseOut ⟨.lengthMismatch, 1⟩) := by
  refine exec_unwrap_of_envCheck_some hn hcap (envCheck_of_length_ne ?_ ?_)
  · rwa [u.length_input]
  · rwa [u.length_input, u.u16be_input (by omega)]

/-! ### Two states that differ in one byte of IN -/

section
variable {s u : State} {j : Nat} (hothers : ∀ a, a ≠ j → u.inNat a = s.inNat a)
include hothers

/-- A sum over a span that holds the byte changes by as much as the byte. -/
theorem State.inSum_of_byte_changed {a k : Nat} (ha : a ≤ j) (hk : j < a + k) :
    u.inSum a k + s.inNat j = s.inSum a k + u.inNat j := by
  induction k with
  | zero => omega
  | succ k ih =>
    rw [State.inSum_succ, State.inSum_succ]
    rcases (show j < a + k ∨ j = a + k by omega) with hlt | rfl
    · have := ih hlt
      have := hothers (a + k) (by omega)
      omega
    · have : u.inSum a k = s.inSum a k := State.inSum_congr fun i hi => hothers _ (by omega)
      omega

variable (hne : u.inNat j ≠ s.inNat j)
include hne

/-- A changed length field gives another length. -/
theorem State.length_of_byte_changed (hj : j < 2) :
    u.inNat 0 * 256 + u.inNat 1 ≠ s.inNat 0 * 256 + s.inNat 1 := by
  have hbyte (v : State) (a : Nat) : v.inNat a < 256 := (v.inBuf.read a).isLt
  have := hbyte u 1
  have := hbyte s 1
  interval_cases j
  · have := hothers 1 (by decide)
    omega
  · have := hothers 0 (by decide)
    omega

/-- A changed byte of payload or checksum makes the two disagree: the sum of at most 65535 bytes stays below 2^24, and
each checksum byte counts with its own weight (40_envelope.md R126). -/
theorem State.checksum_of_byte_changed {len : Nat} (hlen : len < 65536) (hj2 : 2 ≤ j) (hj : j < len + 5)
    (hvalid : s.inSum 2 len = s.inNat (2 + len) * 65536 + s.inNat (3 + len) * 256 + s.inNat (4 + len)) :
    u.inSum 2 len % 2 ^ 24 ≠ u.inNat (2 + len) * 65536 + u.inNat (3 + len) * 256 + u.inNat (4 + len) := by
  have hbound := u.inSum_le 2 len
  rw [Nat.mod_eq_of_lt (by omega)]
  rcases Nat.lt_or_ge j (2 + len) with hpayload | hchecksum
  · have := State.inSum_of_byte_changed hothers hj2 hpayload
    have := hothers (2 + len) (by omega)
    have := hothers (3 + len) (by omega)
    have := hothers (4 + len) (by omega)
    omega
  · have hsum : u.inSum 2 len = s.inSum 2 len := State.inSum_congr fun i hi => hothers _ (by omega)
    have hbyte (v : State) (a : Nat) : v.inNat a < 256 := (v.inBuf.read a).isLt
    have := hbyte s (3 + len)
    have := hbyte s (4 + len)
    have := hbyte u (3 + len)
    have := hbyte u (4 + len)
    have hcases : j = 2 + len ∨ j = 3 + len ∨ j = 4 + len := by omega
    rcases hcases with rfl | rfl | rfl
    · have := hothers (3 + len) (by omega)
      have := hothers (4 + len) (by omega)
      omega
    · have := hothers (2 + len) (by omega)
      have := hothers (4 + len) (by omega)
      omega
    · have := hothers (2 + len) (by omega)
      have := hothers (3 + len) (by omega)
      omega

end

/-! ### The obligation -/

/-- Settles O14: a wrong length is found first; a flipped bit of the length field gives one, and any other makes payload
and checksum disagree. -/
theorem corruptedEnvelopes : Obligations.CorruptedEnvelopes := by
  refine ⟨fun u len hlen hcap hwrong => ?length,
    fun s u len j k h0 hlen hvalid hulen hcap hj hk hflip hothers => ?flip⟩
  case length =>
    exact ⟨_, exec_unwrap_of_length_ne rfl hcap (by omega) (by omega), u.raiseOut_failedWith _⟩
  case flip =>
    have hne : u.inNat j ≠ s.inNat j := fun h => by
      have hbyte : u.inBuf.read j = s.inBuf.read j := BitVec.eq_of_toNat_eq h
      exact xor_twoPow_ne hk (hflip.symm.trans hbyte)
    have hothers' (a : Nat) (ha : a ≠ j) : u.inNat a = s.inNat a := congrArg BitVec.toNat (hothers a ha)
    rcases Nat.lt_or_ge j 2 with hj2 | hj2
    · have hprefix := State.length_of_byte_changed hothers' hne hj2
      exact ⟨_, exec_unwrap_of_length_ne hulen.symm hcap (by omega) (by omega),
        fun _ => (u.raiseOut_failedWith _).1, fun h => absurd hj2 (Nat.not_lt.2 h)⟩
    · have hulen' : len = u.inNat 0 * 256 + u.inNat 1 := by
        rw [hothers' 0 (by omega), hothers' 1 (by omega), hlen]
      have hbyte (a : Nat) : s.inNat a < 256 := (s.inBuf.read a).isLt
      have := hbyte 0
      have := hbyte 1
      have hdiffer := State.checksum_of_byte_changed hothers' hne (by omega) hj2 hj hvalid
      exact ⟨_, exec_unwrap_of_envCheck_some hulen.symm hcap
          ((u.envCheck_input rfl hulen' rfl h0).trans (if_neg hdiffer)),
        fun h => absurd h (Nat.not_lt.2 hj2), fun _ => (u.raiseOut_failedWith _).1⟩

end Sys2Proof.Machine
end

section
/-! PROOFS. The container reader on the writer's output: O20 (spec/41_sample_buffer.md sections 2 to 4). -/

namespace Sys2Proof.Machine

/-- A buffer that holds a byte string from address 0 on reads back as it. -/
theorem Memory.readRange_eq_of_read {m : Memory} {c : List Byte} (h : ∀ a < c.length, m.read a = c.getD a 0) :
    m.readRange 0 c.length = c := by
  apply List.ext_getElem
  · exact Memory.length_readRange _ _ _
  · intro i hi hi'
    rw [Memory.getElem_readRange, Nat.zero_add, h i hi', List.getD_eq_getElem _ _ hi']

/-! ### PARSE of a container (41_sample_buffer.md R143, R150) -/

section
variable {rate : Nat} {depth : Depth} {codes : List Int}

/-- The scan of a container finds its two chunks, and the data chunk ends the container. -/
theorem scanChunks_container (hsize : 36 + codes.length * depth.bytes < 2 ^ 32) :
    scanChunks (container rate depth codes) (44 + codes.length * depth.bytes) (44 + codes.length * depth.bytes) 12
        ⟨none, none⟩ = .ok ⟨some (20, 16), some (44, codes.length * depth.bytes)⟩ := by
  obtain ⟨-, -, -, hfmt, hfmtSize, -, -, -, -, -, -, hdata, hdataSize⟩ := container_header_fields rate depth codes
  have hfmtSize : u32le (container rate depth codes) (12 + 4) = 16 := hfmtSize
  have hdataSize : u32le (container rate depth codes) (36 + 4) = codes.length * depth.bytes :=
    hdataSize.trans (u32le_le32 (by omega))
  rw [scanChunks_of_fmt (by omega) (by omega) hfmt, if_neg (by decide), hfmtSize,
    scanChunks_of_data (p := 36) (by omega) (by omega) hdata, if_neg (by decide), hdataSize,
    scanChunks_of_end (by omega) (by omega)]

theorem parse_container (hrate : rate < 2 ^ 32) (hsize : 36 + codes.length * depth.bytes < 2 ^ 32) :
    parse (container rate depth codes) =
      .ok (.opened 44 depth (BitVec.ofNat 32 codes.length) (BitVec.ofNat 32 rate)) := by
  obtain ⟨hriff, hsizeField, hwave, -, -, hformat, hchannels, hrateField, -, -, hbits, -, -⟩ :=
    container_header_fields rate depth codes
  have hlength := length_container rate depth codes
  have hstop : 8 + u32le (container rate depth codes) 4 = 44 + codes.length * depth.bytes := by
    rw [hsizeField, u32le_le32 hsize]
    omega
  have hwidth : u16le (container rate depth codes) (20 + 14) = depth.bits :=
    hbits.trans (u16le_le16 (by cases depth <;> decide))
  have hpcm : u16le (container rate depth codes) 20 = 1 := hformat.trans (u16le_le16 (by decide))
  have hmono : u16le (container rate depth codes) (20 + 2) = 1 := hchannels.trans (u16le_le16 (by decide))
  have hrateValue : u32le (container rate depth codes) (20 + 4) = rate := hrateField.trans (u32le_le32 hrate)
  have hcount : codes.length * depth.bytes / depth.bytes = codes.length := Nat.mul_div_cancel _ (depth_bytes_pos depth)
  rw [parse_of_header (by omega) hriff hwave (by omega), hstop, hlength, scanChunks_container hsize, Except.bind,
    viewOfChunks_of_mono (le_refl 16) hpcm hmono, hwidth, hrateValue]
  cases depth with
  | eight => rw [if_pos (by decide), hcount]
  | sixteen => rw [if_neg (by decide), if_pos (by decide), hcount]

end

/-! ### The codes of a container, read back (41_sample_buffer.md R140, R149) -/

section
variable {rate : Nat} {codes : List Int} {m : Memory} {i : Nat}

/-- The bytes of code `i` in memory. -/
theorem read_container_code {depth : Depth} {k : Nat}
    (h : ∀ a < (container rate depth codes).length, m.read a = (container rate depth codes).getD a 0)
    (hi : i < codes.length) (hk : k < depth.bytes) :
    m.read (44 + (depth.bytes * i + k)) = (codeBytes depth (codes.getD i 0)).getD k 0 := by
  have hinside : depth.bytes * i + k < codes.length * depth.bytes := by
    have := Nat.mul_le_mul_left depth.bytes hi
    rw [Nat.mul_succ, Nat.mul_comm depth.bytes codes.length] at this
    omega
  rw [h _ (by rw [length_container]; omega)]
  exact BitVec.eq_of_toNat_eq (byteAt_container rate depth hi hk)

theorem codeAt_container_eight
    (h : ∀ a < (container rate .eight codes).length, m.read a = (container rate .eight codes).getD a 0)
    (hi : i < codes.length) (hlo : 0 ≤ codes.getD i 0) (hhi : codes.getD i 0 ≤ 255) :
    codeAt m 44 .eight i = codes.getD i 0 := by
  have hbyte : m.read (44 + i) = BitVec.ofInt 8 (codes.getD i 0) := by
    have := read_container_code (k := 0) h hi (by decide)
    rwa [show Depth.eight.bytes = 1 from rfl, Nat.one_mul] at this
  rw [codeAt, hbyte, BitVec.toNat_ofInt]
  omega

theorem codeAt_container_sixteen
    (h : ∀ a < (container rate .sixteen codes).length, m.read a = (container rate .sixteen codes).getD a 0)
    (hi : i < codes.length) (hlo : -32768 ≤ codes.getD i 0) (hhi : codes.getD i 0 ≤ 32767) :
    codeAt m 44 .sixteen i = codes.getD i 0 := by
  have hlow : m.read (44 + 2 * i) = (BitVec.ofInt 16 (codes.getD i 0)).extractLsb' 0 8 :=
    read_container_code (k := 0) h hi (by decide)
  have hhigh : m.read (44 + 2 * i + 1) = (BitVec.ofInt 16 (codes.getD i 0)).extractLsb' 8 8 :=
    read_container_code (k := 1) h hi (by decide)
  have hword : (BitVec.ofInt 16 (codes.getD i 0)).extractLsb' 8 8 ++ (BitVec.ofInt 16 (codes.getD i 0)).extractLsb' 0 8 =
      BitVec.ofInt 16 (codes.getD i 0) :=
    (BitVec.extractLsb'_append_extractLsb'_eq_extractLsb' rfl).trans BitVec.extractLsb'_eq_self
  rw [codeAt, hlow, hhigh, s16le, hword, BitVec.toInt_ofInt, Int.bmod_eq_of_le] <;> omega

end

/-! ### The obligation -/

/-- Settles O20: PARSE finds the writer's two chunks, and each code's bytes stand where the view looks for them. -/
theorem readerAcceptsTheWriter : Obligations.ReaderAcceptsTheWriter := by
  intro rate depth codes m c hrate hlen hread
  refine ⟨?view, fun i hi hrange => ?code⟩
  case view =>
    have hsize : c.length = 44 + codes.length * depth.bytes := length_container rate depth codes
    rw [Memory.readRange_eq_of_read hread]
    exact parse_container hrate (by omega)
  case code =>
    cases depth with
    | eight => exact codeAt_container_eight hread hi hrange.1 hrange.2
    | sixteen => exact codeAt_container_sixteen hread hi hrange.1 hrange.2

end Sys2Proof.Machine
end

section
/-! PROOFS. The tone tables: that every code is the exact wave's, the tables all of whose sines are rational, and the
counts at the default configuration: O27, O28, O29 (spec/42_modulator.md sections 2 and 4). -/

namespace Sys2Proof.Machine

/-! ### The exact level and its comparisons (42_modulator.md R182, R183) -/

/-- `v(b, i)` as a real number: the sine, clamped in square mode (R182, R183). -/
noncomputable def exactLevel (par : Params) (n b i : Nat) : ℝ :=
  if n ≤ 8 then min (par.sqHi : ℝ) (max (par.sqLo : ℝ) (Real.sin (2 * Real.pi * (((b + 1) * i : Nat) / n))))
  else Real.sin (2 * Real.pi * (((b + 1) * i : Nat) / n))

/-- `w(b, i)` as a real number. -/
noncomputable def exactWave (par : Params) (reverse : Bool) (n b i : Nat) : ℝ :=
  if reverse then -exactLevel par n b i else exactLevel par n b i

theorem eq_exactWave {par : Params} {reverse : Bool} {n b i : Nat} {w : ℝ} (h : IsWave par reverse n b i w) :
    w = exactWave par reverse n b i := by
  have hangle : 2 * Real.pi * ((b : ℝ) + 1) * i / n = 2 * Real.pi * (((b + 1) * i : Nat) / n) := by
    push_cast
    ring
  unfold IsWave at h
  rw [hangle] at h
  exact h

section
variable (par : Params) (reverse : Bool) {n : Nat} (hn : 0 < n) (b i : Nat) (x : Rat)
include hn

theorem levelAtLeast_iff : levelAtLeast par n b i x = true ↔ (x : ℝ) ≤ exactLevel par n b i := by
  simp only [levelAtLeast, exactLevel, show Config.squareLimit = 8 from rfl]
  split
  · simp only [Bool.and_eq_true, Bool.or_eq_true, decide_eq_true_eq, sineAtLeast_iff _ _ hn, le_min_iff, le_max_iff,
      Rat.cast_le]
  · exact sineAtLeast_iff _ _ hn _

theorem levelAtMost_iff : levelAtMost par n b i x = true ↔ exactLevel par n b i ≤ x := by
  simp only [levelAtMost, exactLevel, show Config.squareLimit = 8 from rfl]
  split
  · simp only [Bool.and_eq_true, Bool.or_eq_true, decide_eq_true_eq, sineAtMost_iff _ _ hn, min_le_iff, max_le_iff,
      Rat.cast_le]
  · exact sineAtMost_iff _ _ hn _

theorem waveAtLeast_iff : waveAtLeast par reverse n b i x = true ↔ (x : ℝ) ≤ exactWave par reverse n b i := by
  cases reverse with
  | false => exact levelAtLeast_iff par hn b i x
  | true =>
    refine (levelAtMost_iff par hn b i (-x)).trans ?_
    rw [Rat.cast_neg]
    exact le_neg

theorem waveAtMost_iff : waveAtMost par reverse n b i x = true ↔ exactWave par reverse n b i ≤ x := by
  cases reverse with
  | false => exact levelAtMost_iff par hn b i x
  | true =>
    refine (levelAtLeast_iff par hn b i (-x)).trans ?_
    rw [Rat.cast_neg]
    exact neg_le

/-! ### The enclosure holds the wave and is narrow -/

theorem toneLevel_has : (toneLevel par n b i).Has (exactLevel par n b i) := by
  have hsine := sineTurn_has ((b + 1) * i) n hn
  simp only [toneLevel, exactLevel, show Config.squareLimit = 8 from rfl]
  split
  · exact Enclosure.has_clamp hsine _ _
  · exact hsine

theorem toneWave_has : (toneWave par reverse n b i).Has (exactWave par reverse n b i) := by
  have hlevel := toneLevel_has par hn b i
  cases reverse with
  | false => exact hlevel
  | true => exact Enclosure.has_neg hlevel

end

/-- Clamping brings no two numbers further apart. -/
theorem clamp_sub_clamp_le {x y : Rat} (h : x ≤ y) (lo hi : Rat) : clamp y lo hi - clamp x lo hi ≤ y - x :=
  calc clamp y lo hi - clamp x lo hi
      ≤ |min hi (max lo y) - min hi (max lo x)| := le_abs_self _
    _ ≤ max |hi - hi| |max lo y - max lo x| := abs_min_sub_min_le_max _ _ _ _
    _ ≤ |y - x| := max_le (by simp) ((abs_max_sub_max_le_max _ _ _ _).trans (by simp))
    _ = y - x := abs_of_nonneg (sub_nonneg.2 h)

theorem toneWave_width (par : Params) (reverse : Bool) (n b i : Nat) :
    (toneWave par reverse n b i).hi - (toneWave par reverse n b i).lo ≤ 1 / 10 ^ 39 := by
  obtain ⟨hle, hwidth⟩ := sineTurn_width ((b + 1) * i) n
  have hlevel : (toneLevel par n b i).hi - (toneLevel par n b i).lo ≤ 1 / 10 ^ 39 := by
    unfold toneLevel
    dsimp only
    split
    · exact (clamp_sub_clamp_le hle _ _).trans hwidth
    · exact hwidth
  cases reverse with
  | false => exact hlevel
  | true =>
    have hneg : (toneWave par true n b i).hi - (toneWave par true n b i).lo =
        (toneLevel par n b i).hi - (toneLevel par n b i).lo := by
      show -(toneLevel par n b i).lo - -(toneLevel par n b i).hi = _
      ring
    rw [hneg]
    exact hlevel

/-! ### The value at which the quantiser reaches a code (41_sample_buffer.md R141, R142) -/

/-- The least code of a width. -/
def Depth.minCode : Depth → Int
  | .eight => 0
  | .sixteen => -32768

/-- The greatest code of a width. -/
def Depth.maxCode : Depth → Int
  | .eight => 255
  | .sixteen => 32767

/-- The wave reaches code `h`: Q16 rounds a tie away from zero, so a negative wave must lie above the value. -/
def Reaches (depth : Depth) (w : ℝ) (h : Int) : Prop :=
  match depth with
  | .eight => ((h : ℝ) - 1 / 2) / (255 / 2) - 1 ≤ w
  | .sixteen => if 0 < h then ((h : ℝ) - 1 / 2) / 32767 ≤ w else ((h : ℝ) - 1 / 2) / 32768 < w

theorem reachesCode_iff (par : Params) (reverse : Bool) (depth : Depth) {n : Nat} (hn : 0 < n) (b i : Nat) (h : Int) :
    reachesCode par reverse depth n b i h = true ↔ Reaches depth (exactWave par reverse n b i) h := by
  cases depth with
  | eight =>
    refine (waveAtLeast_iff par reverse hn b i _).trans ?_
    simp only [Reaches]
    push_cast
    rfl
  | sixteen =>
    simp only [reachesCode, Reaches]
    split
    · refine (waveAtLeast_iff par reverse hn b i _).trans ?_
      push_cast
      rfl
    · rw [Bool.not_eq_true', ← Bool.not_eq_true, waveAtMost_iff par reverse hn b i, not_le]
      push_cast
      rfl

theorem Reaches.mono {depth : Depth} {v w : ℝ} {h : Int} (hv : Reaches depth v h) (hle : v ≤ w) :
    Reaches depth w h := by
  cases depth with
  | eight => exact hv.trans hle
  | sixteen =>
    simp only [Reaches] at hv ⊢
    split at hv
    next hpos => rw [if_pos hpos]; exact hv.trans hle
    next hpos => rw [if_neg hpos]; exact hv.trans_le hle

/-- Codes are at least 1/32768 apart: a wave a little below one that reaches `h + 1` still reaches `h`. -/
theorem Reaches.pred {depth : Depth} {v w : ℝ} {h : Int} (hw : Reaches depth w (h + 1)) (hnear : w - v ≤ 1 / 10 ^ 39) :
    Reaches depth v h := by
  have hsmall : (1 : ℝ) / 10 ^ 39 < 1 / 2 ^ 16 := by norm_num
  cases depth with
  | eight =>
    simp only [Reaches] at hw ⊢
    push_cast at hw
    linarith
  | sixteen =>
    simp only [Reaches] at hw ⊢
    push_cast at hw
    rcases lt_trichotomy h 0 with hneg | rfl | hpos
    · rw [if_neg (by omega)] at hw
      rw [if_neg (by omega)]
      linarith
    · rw [if_pos (by omega)] at hw
      rw [if_neg (by omega)]
      push_cast at hw ⊢
      linarith
    · rw [if_pos (by omega)] at hw
      rw [if_pos hpos]
      linarith

section
variable {depth : Depth} {w : ℝ} {c : Int} (hcode : IsCode depth w c)
include hcode

theorem code_bounds : depth.minCode ≤ c ∧ c ≤ depth.maxCode := by
  cases depth with
  | eight =>
    rw [show c = _ from hcode]
    exact ⟨le_min (by decide) (le_max_left _ _), min_le_left _ _⟩
  | sixteen =>
    obtain ⟨hnonneg, hneg⟩ := hcode
    rcases le_or_gt 0 w with h0 | h0
    · have hfloor : 0 ≤ ⌊w * 32767 + 1 / 2⌋ := Int.floor_nonneg.2 (by positivity)
      rw [hnonneg h0]
      exact ⟨le_min (by decide) (le_trans (by decide) hfloor), min_le_left _ _⟩
    · have hfloor : 0 ≤ ⌊-w * 32768 + 1 / 2⌋ := Int.floor_nonneg.2 (by linarith)
      rw [hneg h0]
      exact ⟨le_max_left _ _, max_le (by decide) (le_trans (neg_nonpos.2 hfloor) (by decide))⟩

/-- Within the range of the width, the code is at least `h` exactly when the wave reaches `h`. -/
theorem reaches_iff_le {h : Int} (hmin : depth.minCode < h) (hmax : h ≤ depth.maxCode) : Reaches depth w h ↔ h ≤ c := by
  cases depth with
  | eight =>
    have h0 : ¬h ≤ 0 := not_le.2 hmin
    have h255 : h ≤ 255 := hmax
    rw [show c = _ from hcode, le_min_iff, le_max_iff, Int.le_floor]
    simp only [Reaches, h0, h255, false_or, true_and]
    constructor <;> intro hreach <;> linarith
  | sixteen =>
    have hlo : ¬h ≤ -32768 := not_le.2 hmin
    have hhi : h ≤ 32767 := hmax
    obtain ⟨hnonneg, hneg⟩ := hcode
    simp only [Reaches]
    rcases le_or_gt 0 w with h0 | h0
    · rw [hnonneg h0, le_min_iff, Int.le_floor]
      simp only [hhi, true_and]
      split
      next => constructor <;> intro hreach <;> linarith
      next hpos =>
        have hpos' : (h : ℝ) ≤ 0 := by exact_mod_cast not_lt.1 hpos
        constructor <;> intro <;> linarith
    · rw [hneg h0, le_max_iff, or_iff_right hlo, le_neg, Int.floor_le_iff]
      push_cast
      split
      next hpos =>
        have hpos' : (1 : ℝ) ≤ h := by exact_mod_cast hpos
        constructor <;> intro <;> linarith
      next => constructor <;> intro hreach <;> linarith

end

section
variable {depth : Depth} {v w : ℝ} {a b : Int} (ha : IsCode depth v a) (hb : IsCode depth w b)
include ha hb

theorem code_mono (hle : v ≤ w) : a ≤ b := by
  obtain ⟨hamin, hamax⟩ := code_bounds ha
  rcases hamin.eq_or_lt with hmin | hmin
  · exact hmin ▸ (code_bounds hb).1
  · have hreach : Reaches depth v a := (reaches_iff_le ha hmin hamax).2 le_rfl
    exact (reaches_iff_le hb hmin hamax).1 (hreach.mono hle)

/-- Waves so near have the same code or neighbouring ones. -/
theorem code_le_succ (hnear : w - v ≤ 1 / 10 ^ 39) : b ≤ a + 1 := by
  by_contra hfar
  obtain ⟨hamin, -⟩ := code_bounds ha
  obtain ⟨-, hbmax⟩ := code_bounds hb
  have hreach : Reaches depth w (b - 1 + 1) := by
    rw [sub_add_cancel]
    exact (reaches_iff_le hb (by omega) hbmax).2 le_rfl
  have := (reaches_iff_le ha (by omega) (by omega)).1 (hreach.pred hnear)
  omega

end

/-- On a rational wave the model's quantiser is the rules'. -/
theorem isCode_quantise (depth : Depth) (v : Rat) : IsCode depth (v : ℝ) (quantise depth v) := by
  have hfloor (x : Rat) : x.floor = ⌊(x : ℝ)⌋ := (Rat.floor_cast x).symm
  cases depth with
  | eight =>
    simp only [IsCode, quantise, q8, hfloor]
    push_cast
    rfl
  | sixteen =>
    simp only [IsCode, quantise, q16, hfloor]
    refine ⟨fun h0 => ?_, fun h0 => ?_⟩
    · rw [if_pos (by exact_mod_cast h0)]
      push_cast
      rfl
    · rw [if_neg (not_le.2 (by exact_mod_cast h0))]
      push_cast
      rfl

/-- Every tone code is the code of the exact wave. The ends of the enclosure have the same code or neighbouring ones, with
the wave's between them; where they differ, the exact comparison says which of the two it is. -/
theorem toneCode_eq {par : Params} {reverse : Bool} {depth : Depth} {n b i : Nat} {c : Int} (hn : 0 < n)
    (hcode : IsCode depth (exactWave par reverse n b i) c) : toneCode par reverse depth n b i = c := by
  obtain ⟨hlo, hhi⟩ := toneWave_has par reverse hn b i
  have hwidth : ((toneWave par reverse n b i).hi : ℝ) - (toneWave par reverse n b i).lo ≤ 1 / 10 ^ 39 := by
    have h := (Rat.cast_le (K := ℝ)).2 (toneWave_width par reverse n b i)
    push_cast at h
    exact h
  have hlow := isCode_quantise depth (toneWave par reverse n b i).lo
  have hhigh := isCode_quantise depth (toneWave par reverse n b i).hi
  have hlow_le := code_mono hlow hcode hlo
  have hle_high := code_mono hcode hhigh hhi
  have hneighbour := code_le_succ hlow hhigh hwidth
  obtain ⟨hmin, -⟩ := code_bounds hlow
  obtain ⟨-, hmax⟩ := code_bounds hhigh
  unfold toneCode
  dsimp only
  split
  next => omega
  next hdiffer =>
    have hreach := (reachesCode_iff par reverse depth hn b i _).trans (reaches_iff_le hcode (by omega) hmax)
    split
    next h => exact hle_high.antisymm' (hreach.1 h)
    next h =>
      have := mt hreach.2 h
      omega

/-! ### The tables of rational sines (42_modulator.md R183, R184) -/

section
variable {par : Params} (reverse : Bool) (depth : Depth)

/-- The code of a level, negated in reverse phase. -/
def levelCode (v : Rat) : Int := quantise depth (if reverse then -v else v)

/-- Where the sine is known exactly, the code is that of the clamped sine. -/
theorem toneCode_of_exact {n b i : Nat} {v : Rat} (hn : n ≤ 8) (hsine : sineTurn ((b + 1) * i) n = .exact v) :
    toneCode par reverse depth n b i = levelCode reverse depth (clamp v par.sqLo par.sqHi) := by
  have hlevel : toneLevel par n b i = .exact (clamp v par.sqLo par.sqHi) := by
    rw [toneLevel, hsine]
    exact if_pos hn
  rw [toneCode, toneWave, hlevel]
  cases reverse <;> exact if_pos rfl

/-- A table all of whose sines are known exactly. -/
theorem toneTable_of_exact {n b : Nat} {sines : List Rat} (hn : n ≤ 8)
    (h : (List.range n).map (fun i => sineTurn ((b + 1) * i) n) = sines.map .exact) :
    toneTable par reverse depth n b = sines.map fun v => levelCode reverse depth (clamp v par.sqLo par.sqHi) := by
  have hlen : n = sines.length := by simpa using congrArg List.length h
  apply List.ext_getElem
  · simp [hlen]
  · intro i hi hi'
    have hin : i < n := by simpa using hi
    have hsine : sineTurn ((b + 1) * i) n = .exact sines[i] := by
      have := List.getElem_of_eq h (i := i) (by simpa using hin)
      simpa using this
    simpa [toneTable] using toneCode_of_exact reverse depth hn hsine

theorem levelCode_zero : levelCode reverse depth 0 = match depth with | .eight => 128 | .sixteen => 0 := by
  cases reverse <;> cases depth <;> decide +kernel

variable (hpar : par.Ok)
include hpar

theorem clamp_rational_sines :
    clamp 0 par.sqLo par.sqHi = 0 ∧ clamp 1 par.sqLo par.sqHi = par.sqHi ∧ clamp (-1) par.sqLo par.sqHi = par.sqLo := by
  obtain ⟨-, -, ⟨hlo, hlo0⟩, ⟨hhi0, hhi⟩, -⟩ := hpar
  unfold clamp
  refine ⟨?_, ?_, ?_⟩
  · rw [max_eq_right hlo0.le, min_eq_right hhi0.le]
  · rw [max_eq_right (by linarith), min_eq_left hhi]
  · rw [max_eq_left hlo, min_eq_right (by linarith)]

end

/-! ### The result in OUT, as numbers -/

theorem State.outNat_yieldOut (s : State) (r : List Byte) {a : Nat} (h : a < r.length) :
    (s.yieldOut r).outNat a = byteAt r a := congrArg BitVec.toNat (s.read_yieldOut r a h)

theorem u32le_eq_byteAt (b : List Byte) (i : Nat) :
    u32le b i = byteAt b i + 256 * byteAt b (i + 1) + 65536 * byteAt b (i + 2) + 16777216 * byteAt b (i + 3) := by
  rw [u32le, u16le, u16le]
  ring

/-! ### The obligations -/

/-- Settles O27: the enclosure holds the wave, and `toneCode_eq`. -/
theorem toneCodesRoundTheExactSine : Obligations.ToneCodesRoundTheExactSine := by
  intro par reverse depth n b i w c _ hn _ hi hwave hcode
  cases eq_exactWave hwave
  have htone := toneCode_eq hn hcode
  obtain ⟨hlo, hhi⟩ := toneWave_has par reverse hn b i
  refine ⟨length_toneTable .., ?_, htone, hlo, hhi⟩
  simp [toneTable, hi, htone]

/-- Settles O28: the sines are 0, 1 and -1, which the clamp turns into 0 and the two levels. -/
theorem rationalToneTables : Obligations.RationalToneTables := by
  intro par reverse depth hpar level zero
  obtain ⟨hzero, hone, hnegOne⟩ := clamp_rational_sines hpar
  have hlevelZero : levelCode reverse depth 0 = zero := levelCode_zero reverse depth
  have htable {n b : Nat} (sines : List Rat) (hn : n ≤ 8)
      (h : (List.range n).map (fun i => sineTurn ((b + 1) * i) n) = sines.map .exact) :
      toneTable par reverse depth n b = sines.map fun v => levelCode reverse depth (clamp v par.sqLo par.sqHi) :=
    toneTable_of_exact reverse depth hn h
  refine ⟨fun b hb => ⟨?one, ?two⟩, ?four0, ?four1, ?eight⟩
  case one =>
    rw [htable [0] (by decide) (by interval_cases b <;> decide +kernel)]
    simp only [List.map_cons, List.map_nil, hzero, hlevelZero]
  case two =>
    rw [htable [0, 0] (by decide) (by interval_cases b <;> decide +kernel)]
    simp only [List.map_cons, List.map_nil, hzero, hlevelZero]
  case four0 =>
    rw [htable [0, 1, 0, -1] (by decide) (by decide +kernel)]
    simp only [List.map_cons, List.map_nil, hzero, hone, hnegOne, hlevelZero]
    rfl
  case four1 =>
    rw [htable [0, 0, 0, 0] (by decide) (by decide +kernel)]
    simp only [List.map_cons, List.map_nil, hzero, hlevelZero]
  case eight =>
    rw [htable [0, 1, 0, -1, 0, 1, 0, -1] (by decide) (by decide +kernel)]
    simp only [List.map_cons, List.map_nil, hzero, hone, hnegOne, hlevelZero]
    rfl

/-- Settles O29: N is 8 and Lc is 7500 there, so the data chunk holds 60000 bytes and 96 more for each byte of IN. -/
theorem defaultModulateCounts : Obligations.DefaultModulateCounts := by
  intro s hpar hrate hbaud hms hcfg hcap hout
  have hrateNat : s.snap.sampleRate.toNat = 20000 := by rw [hrate]; rfl
  have hbaudNat : s.snap.baudRate.toNat = 2500 := by rw [hbaud]; rfl
  have hmsNat : s.snap.syncMs.toNat = 3000 := by rw [hms]; rfl
  have hbits : s.snap.modCfg.bitsPerSample.toNat = Depth.eight.bits := by rw [hcfg]; rfl
  have hbytes (k : Nat) : k * Depth.eight.bytes = k := Nat.mul_one k
  have hok : modulateConfig s.par s.snap = .ok (8, .eight) := by
    have hbaud0 : s.snap.baudRate ≠ 0 := by rw [hbaud]; decide
    rw [modulateConfig_of_valid hcap hbaud0 (by omega) hbits (by rw [hbytes]; omega), hrateNat, hbaudNat]
  have hleader : 7500 = leaderCycles s.snap.sampleRate.toNat s.snap.syncMs.toNat 8 := by
    rw [hrateNat, hmsNat]
    rfl
  have hfits := exec_modulate_of_fits hok hleader (by rw [hbytes]; omega)
  generalize hcodes : s.modulatedCodes s.snap.modCfg.reversePhase .eight 8 7500 s.snap.inLen.toNat = codes at hfits
  have hlen : codes.length = 60000 + 96 * s.snap.inLen.toNat := by
    rw [← hcodes, State.length_modulatedCodes]
    omega
  have hsize := length_container s.snap.sampleRate.toNat .eight codes
  rw [hbytes] at hsize
  obtain ⟨-, -, -, -, -, -, -, -, -, -, -, -, hfield⟩ := container_header_fields s.snap.sampleRate.toNat .eight codes
  refine ⟨_, hfits, State.yieldOut_succeeded _ _, ?length, ?field⟩
  case length =>
    rw [State.outLen_yieldOut _ _ (by omega), hsize]
    omega
  case field =>
    rw [State.outNat_yieldOut _ _ (by omega), State.outNat_yieldOut _ _ (by omega), State.outNat_yieldOut _ _ (by omega),
      State.outNat_yieldOut _ _ (by omega)]
    rw [hbytes, u32le_le32 (by omega), hlen] at hfield
    exact (u32le_eq_byteAt _ 40).symm.trans hfield

end Sys2Proof.Machine
end

section
/-! PROOFS. The demodulator: the threshold by code, its single block, a byte's cycles, the loop round by round and what
it leaves, and DEMODULATE's outcome: O30, O33, O35, O37, O38, O39, O40 (spec/43_demodulator.md). -/

namespace Sys2Proof.Machine

/-! ### The threshold by code (43_demodulator.md R211) -/

/-- A code's value exceeds 1/5 when five times the numerator exceeds the denominator. -/
theorem exceeds_div_iff (c : Int) {d : Nat} (hd : 0 < d) :
    exceeds ((c : Rat) / d) = true ↔ (d : Int) < 5 * c ∨ (d : Int) < -(5 * c) := by
  have hd' : (0 : Rat) < d := by exact_mod_cast hd
  have hthresh : Config.thresh = 1 / 5 := by norm_num [Config.thresh, Rat.mkRat_eq_div]
  have habove (k : Int) : (1 / 5 : Rat) < (k : Rat) / d ↔ (d : Int) < 5 * k := by
    rw [lt_div_iff₀ hd', ← Int.cast_lt (R := Rat)]
    push_cast
    constructor <;> intro h <;> linarith
  have hneg : -((c : Rat) / d) = ((-c : Int) : Rat) / d := by
    push_cast
    ring
  rw [exceeds_iff, hthresh, lt_abs, hneg, habove, habove, mul_neg]

theorem exceeds_norm8_iff (c : Int) : exceeds (norm8 c) = true ↔ c ≤ 101 ∨ 154 ≤ c := by
  refine (exceeds_div_iff (2 * c - 255) (d := 255) (by decide)).trans ?_
  omega

theorem exceeds_norm16_iff {c : Int} (hlo : -32768 ≤ c) (hhi : c ≤ 32767) :
    exceeds (norm16 c) = true ↔ c ≤ -6554 ∨ 6554 ≤ c := by
  rcases lt_or_ge c 0 with hneg | h0
  · rw [norm16_of_neg hlo hneg]
    refine (exceeds_div_iff c (d := 32768) (by decide)).trans ?_
    omega
  · rw [norm16_of_nonneg h0 hhi]
    refine (exceeds_div_iff c (d := 32767) (by decide)).trans ?_
    omega

/-! ### FIND at the end of the samples and at the end of a cycle (43_demodulator.md R215) -/

section
variable {sample : Nat → Rat} {count p a m e : Nat}

theorem findTriple_at_end (sample : Nat → Rat) (count : Nat) : findTriple sample count count = none :=
  findTriple_silent sample count count fun _ hlo hhi => absurd hhi (Nat.not_lt.2 hlo)

/-- From a sample that exceeds the threshold, a cycle starts there. -/
theorem findTriple_start_eq (hp : exceeds (sample p) = true) (h : findTriple sample count p = some (a, m, e)) :
    a = p := by
  obtain ⟨ha, -, -⟩ := findTriple_eq_some_iff.1 h
  obtain ⟨hle, -, -, hfirst⟩ := (leastIn_eq_some _ _ _ _).1 ha
  rcases hle.eq_or_lt with heq | hlt
  · exact heq.symm
  · cases hp.symm.trans (hfirst p le_rfl hlt)

end

section
variable {s : State}

/-- DETECT reports an end event exactly when it finds no cycle. -/
theorem findTriple_of_detect_end (h : (detect s).1 = .eob ∨ (detect s).1 = .eof) :
    findTriple s.sample s.view.count.toNat s.smpPos.toNat = none := by
  cases hfind : findTriple s.sample s.view.count.toNat s.smpPos.toNat with
  | none => rfl
  | some r =>
    obtain ⟨a, m, e⟩ := r
    rw [detect_some s a m e hfind] at h
    cases hb : s.inBlock <;> simp [hb] at h

/-- DETECT reports a cycle, the first of a block or a regular one, exactly when it finds one. -/
theorem findTriple_of_detect_cycle {a l : Nat} (h : (detect s).1 = .sob a l ∨ (detect s).1 = .cycle a l) :
    ∃ m e, findTriple s.sample s.view.count.toNat s.smpPos.toNat = some (a, m, e) ∧ e = a + l := by
  cases hfind : findTriple s.sample s.view.count.toNat s.smpPos.toNat with
  | none =>
    rw [detect_none s hfind] at h
    cases hb : s.inBlock <;> simp [hb] at h
  | some r =>
    obtain ⟨a', m, e⟩ := r
    obtain ⟨-, hm, he, -⟩ := findTriple_bounds _ _ _ _ _ _ hfind
    rw [detect_some s a' m e hfind] at h
    have hevent : a' = a ∧ e - a' = l := by cases hb : s.inBlock <;> simpa [hb] using h
    obtain ⟨rfl, rfl⟩ := hevent
    exact ⟨m, e, rfl, by omega⟩

/-- No second block: past the last sample DETECT reports end-of-file. -/
theorem detect_after_end (h : (detect s).1 = .eob ∨ (detect s).1 = .eof) : (detect (detect s).2).1 = .eof := by
  rw [detect_none s (findTriple_of_detect_end h), detect_none _ (findTriple_at_end _ _)]
  rfl

/-- A regular cycle found right after a cycle shares its boundary sample. -/
theorem detect_after_cycle {a l b k : Nat} (h : (detect s).1 = .sob a l ∨ (detect s).1 = .cycle a l)
    (hnext : (detect (detect s).2).1 = .cycle b k) : b = a + l := by
  obtain ⟨m, e, hfind, he⟩ := findTriple_of_detect_cycle h
  obtain ⟨m', e', hfind', -⟩ := findTriple_of_detect_cycle (.inr hnext)
  have hpos : (detect s).2.smpPos.toNat = e := by
    rw [detect_some s a m e hfind]
    exact detect_pos_toNat s a m e hfind
  have hsample : (detect s).2.sample = s.sample := by rw [detect_some s a m e hfind]; rfl
  rw [hpos, hsample] at hfind'
  rw [← he]
  exact findTriple_start_eq ((exceeds_iff _).2 (findTriple_end_exceeds hfind)) hfind'

end

/-! ### The cycles of a byte (43_demodulator.md R224, R226) -/

theorem syncAll_append (xs ys : List Bool) (s : State) : syncAll (xs ++ ys) s = (syncAll xs s).bind (syncAll ys) := by
  induction xs generalizing s with
  | nil => rfl
  | cons low xs ih =>
    simp only [List.cons_append, syncAll]
    cases sync low s with
    | error e => rfl
    | ok t => exact ih t

/-- WORKING_BYTE after one bit: shifted right, with the bit on top. -/
def shiftIn (bit : Bool) (w : Byte) : Byte := (w >>> 1) ||| (if bit then 0x80 else 0)

/-- WORKING_BYTE after the first `k` bits of a byte. -/
def shiftBits (b w : Byte) : Nat → Byte
  | 0 => w
  | k + 1 => shiftIn (b.getLsbD k) (shiftBits b w k)

theorem getLsbD_shiftIn (bit : Bool) (w : Byte) {i : Nat} (hi : i < 8) :
    (shiftIn bit w).getLsbD i = if i = 7 then bit else w.getLsbD (i + 1) := by
  interval_cases i <;> cases bit <;> simp [shiftIn]

/-- After `k` bits the byte holds them at its top, and what was left of the old one below. -/
theorem getLsbD_shiftBits (b w : Byte) {k i : Nat} (hk : k ≤ 8) (hi : i < 8) :
    (shiftBits b w k).getLsbD i = if i + k < 8 then w.getLsbD (i + k) else b.getLsbD (i + k - 8) := by
  induction k generalizing i with
  | zero => rw [shiftBits, Nat.add_zero, if_pos hi]
  | succ k ih =>
    rw [shiftBits, getLsbD_shiftIn _ _ hi]
    split
    next h7 => rw [if_neg (by omega), show i + (k + 1) - 8 = k by omega]
    next h7 => rw [ih (by omega) (by omega), Nat.add_right_comm, Nat.add_assoc]

/-- After eight bits nothing is left of the old one. -/
theorem shiftBits_eight (b w : Byte) : shiftBits b w 8 = b :=
  BitVec.eq_of_getLsbD_eq fun i hi => by
    rw [getLsbD_shiftBits b w le_rfl hi, if_neg (by omega), Nat.add_sub_cancel]

/-- The cycles of one bit, one low or two high, add two half units and shift the bit in (R223, R224). -/
theorem syncAll_bit {s : State} (bit : Bool) (h0 : s.halfUnits ≠ 0) (heven : s.halfUnits.toNat % 2 = 0) :
    syncAll (if bit then [false, false] else [true]) s =
      .ok { s with
        halfUnits := s.halfUnits + 2, workingByte := shiftIn bit s.workingByte }.completeByte := by
  cases bit with
  | false =>
    have hshift : shiftIn false s.workingByte = s.workingByte >>> 1 := BitVec.or_zero
    simp only [Bool.false_eq_true, if_false, syncAll, sync_low_of_even h0 heven, hshift]
  | true =>
    have hhalf : ({ s with halfUnits := s.halfUnits + 1 } : State).halfUnits.toNat % 2 = 1 := by
      show (s.halfUnits + 1).toNat % 2 = 1
      bv_omega
    have htwo : s.halfUnits + 1 + 1 = s.halfUnits + 2 := by bv_omega
    simp only [if_true, syncAll, sync_high_of_even h0 heven,
      State.completeByte_of_partial (s := { s with halfUnits := s.halfUnits + 1 }) (by show s.halfUnits + 1 ≠ 18; bv_omega),
      sync_high_of_odd hhalf, htwo]
    rfl

/-- HALF_UNITS after the start bit and `k` data bits. -/
theorem halfUnits_bits : ∀ k < 8, BitVec.ofNat 5 (2 + 2 * k) ≠ 0 ∧ (BitVec.ofNat 5 (2 + 2 * k)).toNat % 2 = 0 ∧
    BitVec.ofNat 5 (2 + 2 * k) + 2 = BitVec.ofNat 5 (2 + 2 * (k + 1)) := by decide

/-- HALF_UNITS reaches a whole byte with the eighth data bit only. -/
theorem halfUnits_ne_eighteen : ∀ k ≤ 7, BitVec.ofNat 5 (2 + 2 * k) ≠ 18 := by decide

/-- The cycles of a byte's first bits: all of them go into WORKING_BYTE, and the eighth completes the byte. -/
theorem syncAll_bits {s : State} (b : Byte) (hs : s.halfUnits = 2) {k : Nat} (hk : k ≤ 8) :
    syncAll ((List.range k).flatMap fun j => if b.getLsbD j then [false, false] else [true]) s =
      .ok { s with
        halfUnits := BitVec.ofNat 5 (2 + 2 * k), workingByte := shiftBits b s.workingByte k }.completeByte := by
  induction k with
  | zero =>
    have hstart : { s with halfUnits := BitVec.ofNat 5 (2 + 2 * 0), workingByte := shiftBits b s.workingByte 0 } = s := by
      rw [← show s.halfUnits = BitVec.ofNat 5 (2 + 2 * 0) from hs]
      rfl
    rw [hstart, State.completeByte_of_partial (by rw [hs]; decide)]
    rfl
  | succ k ih =>
    obtain ⟨h0, heven, hnext⟩ := halfUnits_bits k (by omega)
    rw [List.range_succ, List.flatMap_append, syncAll_append, ih (by omega),
      State.completeByte_of_partial (halfUnits_ne_eighteen k (by omega)), Except.bind, List.flatMap_singleton,
      syncAll_bit _ h0 heven, hnext, shiftBits]

/-! ### The loop, round by round (43_demodulator.md R230) -/

section
variable {fuel : Nat} {s : State}

theorem demodLoop_of_error {e : Err} (h : consume s.inBlock (detect s).1 (detect s).2 = .error e) :
    demodLoop (fuel + 1) s = ((detect s).2, some e) := by
  rw [demodLoop]
  simp only [h]

theorem demodLoop_of_end {s2 : State} (h : consume s.inBlock (detect s).1 (detect s).2 = .ok s2)
    (hend : (detect s).1.ends = true) : demodLoop (fuel + 1) s = (s2, none) := by
  rw [demodLoop]
  simp only [h, hend, if_true]

theorem demodLoop_of_round {s2 : State} (h : consume s.inBlock (detect s).1 (detect s).2 = .ok s2)
    (hend : (detect s).1.ends = false) : demodLoop (fuel + 1) s = demodLoop fuel s2 := by
  rw [demodLoop]
  simp only [h, hend, Bool.false_eq_true, if_false]

end

theorem Event.ends_iff (ev : Event) : ev.ends = true ↔ ev = .eof ∨ ev = .eob := by
  cases ev <;> simp [Event.ends]

/-! ### What the loop leaves (43_demodulator.md R230, R232) -/

section
variable {fuel : Nat} {s : State} (hfind : findTriple s.sample s.view.count.toNat s.smpPos.toNat = none)
include hfind

/-- With no cycle left, outside a block: end-of-file. -/
theorem demodLoop_of_eof (hb : s.inBlock = false) :
    demodLoop (fuel + 1) s = ({ s with smpPos := s.view.count, inBlock := false }, none) := by
  have hdet := detect_none s hfind
  rw [hb] at hdet
  refine demodLoop_of_end ?_ (by rw [hdet]; rfl)
  rw [hdet]
  rfl

/-- With no cycle left, inside a block: end-of-block, an error when a byte is incomplete (R228). -/
theorem demodLoop_of_eob (hb : s.inBlock = true) :
    demodLoop (fuel + 1) s = ({ s with smpPos := s.view.count, inBlock := false },
      if s.halfUnits = 0 then none else some ⟨.protocolViolation, 2⟩) := by
  have hdet := detect_none s hfind
  rw [hb] at hdet
  split
  next h0 =>
    refine demodLoop_of_end ?_ (by rw [hdet]; rfl)
    rw [hdet, hb]
    exact if_pos h0
  next h0 =>
    have hconsume : consume s.inBlock (detect s).1 (detect s).2 = .error ⟨.protocolViolation, 2⟩ := by
      rw [hdet, hb]
      exact if_neg h0
    rw [demodLoop_of_error hconsume, hdet]

end

/-- The only stream error at a cycle is a 0 bit inside a 1 bit, which a block's regular cycle can raise (R221, R229). -/
theorem consume_error_at_cycle {s : State} {r : Nat × Nat × Nat} {e : Err}
    (hfind : findTriple s.sample s.view.count.toNat s.smpPos.toNat = some r)
    (h : consume s.inBlock (detect s).1 (detect s).2 = .error e) : e = ⟨.protocolViolation, 1⟩ := by
  obtain ⟨a, m, b⟩ := r
  rw [detect_some s a m b hfind] at h
  cases hb : s.inBlock with
  | false =>
    rw [hb] at h
    cases h
  | true =>
    rw [hb] at h
    exact sync_error _ _ _ h

/-- A cycle found: the cursor is at its end, inside a block (R213). -/
theorem detect_cycle_fields {s : State} {r : Nat × Nat × Nat}
    (hfind : findTriple s.sample s.view.count.toNat s.smpPos.toNat = some r) :
    (detect s).2.smpPos.toNat = (detect s).2.cycStart.toNat + (detect s).2.cycLen.toNat ∧
      (detect s).2.inBlock = true ∧ (detect s).1.ends = false := by
  obtain ⟨a, m, e⟩ := r
  obtain ⟨-, hmid, hend, hcount⟩ := findTriple_bounds _ _ _ _ _ _ hfind
  have := s.view.count.isLt
  rw [detect_some s a m e hfind]
  refine ⟨?_, rfl, by cases s.inBlock <;> rfl⟩
  simp only [BitVec.toNat_ofNat]
  rw [Nat.mod_eq_of_lt (by omega), Nat.mod_eq_of_lt (by omega), Nat.mod_eq_of_lt (by omega)]
  omega

/-- How the loop leaves the cursor, IN_BLOCK and HALF_UNITS, by its stream error: none at an end event with no byte begun;
ProtocolViolation(2) at an end-of-block inside a byte; ProtocolViolation(1) at the offending cycle. -/
structure LoopEnd (count : Word) (r : State) (stream : Option Err) : Prop where
  finished : stream = none → r.smpPos = count ∧ r.inBlock = false ∧ r.halfUnits = 0
  partialByte : stream = some ⟨.protocolViolation, 2⟩ → r.smpPos = count ∧ r.inBlock = false
  insideByte : stream = some ⟨.protocolViolation, 1⟩ →
    r.smpPos.toNat = r.cycStart.toNat + r.cycLen.toNat ∧ r.inBlock = true

/-- The loop ends so, when outside a block no byte is begun: a cycle found puts IN_BLOCK to 1, and an end-of-block asks
HALF_UNITS to be 0. -/
theorem demodLoop_end {fuel : Nat} {s : State} (hfuel : s.view.count.toNat - s.smpPos.toNat < fuel)
    (hout : s.inBlock = false → s.halfUnits = 0) :
    LoopEnd s.view.count (demodLoop fuel s).1 (demodLoop fuel s).2 := by
  induction fuel generalizing s with
  | zero => omega
  | succ n ih =>
    cases hfind : findTriple s.sample s.view.count.toNat s.smpPos.toNat with
    | none =>
      cases hb : s.inBlock with
      | false =>
        rw [demodLoop_of_eof hfind hb]
        exact ⟨fun _ => ⟨rfl, rfl, hout hb⟩, nofun, nofun⟩
      | true =>
        rw [demodLoop_of_eob hfind hb]
        split
        next h0 => exact ⟨fun _ => ⟨rfl, rfl, h0⟩, nofun, nofun⟩
        next => exact ⟨nofun, fun _ => ⟨rfl, rfl⟩, nofun⟩
    | some r =>
      obtain ⟨hpos, hinBlock, hgoes⟩ := detect_cycle_fields hfind
      cases hc : consume s.inBlock (detect s).1 (detect s).2 with
      | error e =>
        rw [demodLoop_of_error hc]
        cases consume_error_at_cycle hfind hc
        exact ⟨nofun, nofun, fun _ => ⟨hpos, hinBlock⟩⟩
      | ok s2 =>
        obtain ⟨hadvance, hinside, hview⟩ := round_advances s _ s2 _ rfl hc hgoes
        have hblock : s2.inBlock = true := (consume_frame _ _ _ _ hc).2.2.trans hinBlock
        rw [demodLoop_of_round hc hgoes, ← hview]
        exact ih (by rw [hview]; omega) fun h => absurd (hblock.symm.trans h) (by decide)

/-! ### DEMODULATE, outcome by outcome (43_demodulator.md R230, R231) -/

/-- DEMODULATE leaves T0 and T1 alone. -/
theorem exec_demodulate_sameTones {s t : State} (ht : exec .demodulate s = .next t) : SameTones s t := by
  rcases execDemodulate_cases s with ⟨e, h, -⟩ | ⟨v, -, -, -, h⟩ <;> cases h.symm.trans ht
  · exact ⟨rfl, rfl⟩
  · have hframe := demodLoop_frame (v.count.toNat + 1) (s.clearDemod.setView v)
    obtain ⟨r, hr⟩ := finishDemod_eq_finishOut (demodLoop (v.count.toNat + 1) (s.clearDemod.setView v)).1
      (demodLoop (v.count.toNat + 1) (s.clearDemod.setView v)).2
    obtain ⟨htone0, htone1⟩ := State.finishOut_sameTones (demodLoop (v.count.toNat + 1) (s.clearDemod.setView v)).1 r
    rw [hr]
    exact ⟨htone0.trans hframe.tone0, htone1.trans hframe.tone1⟩

section
variable {s : State}

theorem finishDemod_of_envCheck_some {e : Err} (h : envCheck s.bytes = some e) : finishDemod s none = s.raiseOut e := by
  rw [finishDemod]
  simp only [h]

theorem finishDemod_of_outCap_lt (h : envCheck s.bytes = none) (hlen : s.par.outCap < s.bytes.length) :
    finishDemod s none = s.raiseOut ⟨.capacityExceeded, 2⟩ := by
  rw [finishDemod]
  simp only [h, hlen, if_true]

theorem finishDemod_of_fits (h : envCheck s.bytes = none) (hlen : s.bytes.length ≤ s.par.outCap) :
    finishDemod s none = s.yieldOut s.bytes := by
  rw [finishDemod]
  simp only [h, Nat.not_lt.2 hlen, if_false]

end

section
variable {s : State}

theorem exec_demodulate_of_inCap_lt (h : s.par.inCap < s.snap.inLen.toNat) :
    exec .demodulate s = .next (s.clearDemod.closeView.raiseOut ⟨.capacityExceeded, 1⟩) := if_pos h

variable (hcap : s.snap.inLen.toNat ≤ s.par.inCap)
include hcap

theorem exec_demodulate_of_baudRate_zero (h : s.snap.baudRate = 0) :
    exec .demodulate s = .next (s.clearDemod.closeView.raiseOut ⟨.configInvalid, 1⟩) :=
  (if_neg (Nat.not_lt.2 hcap)).trans (if_pos h)

theorem exec_demodulate_of_parse_error (hbaud : s.snap.baudRate ≠ 0) {e : Err}
    (h : parse (s.input s.snap.inLen.toNat) = .error e) :
    exec .demodulate s = .next (s.clearDemod.closeView.raiseOut e) :=
  (if_neg (Nat.not_lt.2 hcap)).trans ((if_neg hbaud).trans (by rw [h]))

end

/-! ### The obligations -/

/-- Settles O30. -/
theorem thresholdByCode : Obligations.ThresholdByCode :=
  ⟨exceeds_iff, fun _ => ⟨fun h => if_pos h, fun h => if_neg (not_lt.2 h)⟩, fun c _ _ => exceeds_norm8_iff c,
    fun _ => exceeds_norm16_iff⟩

/-- Settles O33. -/
theorem oneBlockOnly : Obligations.OneBlockOnly := fun _ => ⟨detect_after_end, fun _ _ _ _ => detect_after_cycle⟩

/-- Settles O35. -/
theorem byteCyclesEmitTheByte : Obligations.ByteCyclesEmitTheByte := by
  intro s b hs
  refine (syncAll_bits b hs le_rfl).trans ?_
  rw [shiftBits_eight, State.completeByte_of_full rfl]

/-- Settles O37: `demodLoop_fuel` makes up for the fuel a round takes. -/
theorem demodulateLoop : Obligations.DemodulateLoop := by
  intro s hpos
  refine ⟨fun e h => demodLoop_of_error h, fun s2 h => ⟨fun hend => ?ends, fun heof heob => ?round⟩⟩
  case ends => exact demodLoop_of_end h ((Event.ends_iff _).2 hend)
  case round =>
    have hgoes : (detect s).1.ends = false := by
      rw [← Bool.not_eq_true, Event.ends_iff]
      exact not_or.2 ⟨heof, heob⟩
    obtain ⟨hadvance, hinside, hview⟩ := round_advances s _ s2 _ rfl h hgoes
    refine ⟨?_, hview, ?_⟩
    · rw [hview]
      exact BitVec.le_def.2 hinside.le
    · rw [demodLoop_of_round h hgoes]
      exact (demodLoop_fuel _ _ s2 (by rw [hview]; omega) (by omega)).symm

/-- Settles O38: one lemma a check; `clearDemod` and `closeView` are what each of them leaves. -/
theorem demodulateEarlyFailures : Obligations.DemodulateEarlyFailures := by
  rintro s _ rfl
  obtain ⟨t, ht⟩ := exec_next .demodulate s
  have hfails {e : Err} (h : exec .demodulate s = .next (s.clearDemod.closeView.raiseOut e)) :
      t.FailedWith e.kind.code e.detail ∧ t.outLen = 0 ∧ t.view = .closed ∧ t.smpPos = 0 ∧ t.SyncZero := by
    cases h.symm.trans ht
    obtain ⟨hfailed, hlen⟩ := s.clearDemod.closeView.raiseOut_failedWith e
    exact ⟨hfailed, hlen, rfl, rfl, ⟨rfl, rfl, rfl, rfl, rfl, rfl, rfl⟩⟩
  exact ⟨t, ht, (exec_frame _ s t (by decide) ht).sameHost, exec_demodulate_smpRaw ht, exec_demodulate_sameTones ht,
    fun h => hfails (exec_demodulate_of_inCap_lt h), fun hcap h => hfails (exec_demodulate_of_baudRate_zero hcap h),
    fun e hcap hbaud h => hfails (exec_demodulate_of_parse_error hcap hbaud h)⟩

/-- Settles O39: `demodLoop_end` for what the loop leaves, and `finishDemod` for each outcome. -/
theorem demodulateResult : Obligations.DemodulateResult := by
  intro s v hpar hcap hbaud hparse r stream
  have hexec : exec .demodulate s = .next (finishDemod r stream) := exec_demodulate_of_parse_ok hcap hbaud hparse
  have hframe : DemodFrame (s.clearDemod.setView v) r := demodLoop_frame _ _
  have hend : LoopEnd v.count r stream :=
    demodLoop_end (s := s.clearDemod.setView v) (Nat.lt_succ_of_le (Nat.sub_le _ _)) fun _ => rfl
  have herror : ∀ e, stream = some e → e = ⟨.protocolViolation, 1⟩ ∨ e = ⟨.protocolViolation, 2⟩ :=
    demodLoop_error _ _
  have hrpar : r.par = s.par := hframe.par
  obtain ⟨-, ⟨hview, hpos⟩, -, hsync⟩ := finishDemod_onlyOut r stream
  refine ⟨_, hexec, (exec_frame _ s _ (by decide) hexec).sameHost, exec_demodulate_smpRaw hexec,
    exec_demodulate_sameTones hexec, hview.trans hframe.view, hpos, hsync, fun h => ?finished, fun h => ?partialByte,
    fun h => ?insideByte, fun e h => ?streamError, fun e h henv => ?envelope, fun h henv hlen => ?capacity,
    fun h henv hlen => ?success⟩
  case finished =>
    rw [hpos, hsync.inBlock, hsync.halfUnits]
    exact hend.finished h
  case partialByte =>
    rw [hpos, hsync.inBlock]
    exact hend.partialByte h
  case insideByte =>
    rw [hpos, hsync.inBlock, hsync.cycStart, hsync.cycLen]
    exact hend.insideByte h
  case streamError =>
    refine ⟨herror e h, ?_⟩
    rw [h]
    exact r.raiseOut_failedWith e
  case envelope =>
    rw [h, finishDemod_of_envCheck_some henv]
    exact r.raiseOut_failedWith e
  case capacity =>
    rw [h, finishDemod_of_outCap_lt henv (hrpar ▸ hlen)]
    exact r.raiseOut_failedWith _
  case success =>
    obtain ⟨-, ⟨-, houtCap⟩, -⟩ := hpar
    rw [h, finishDemod_of_fits henv (hrpar ▸ hlen)]
    exact ⟨r.yieldOut_succeeded _, r.outLen_yieldOut _ (by omega), fun a ha => r.read_yieldOut _ a ha⟩

/-- Settles O40: the loop ends at once, outside a block, and no byte at all is too short an envelope. -/
theorem silenceHasNoBlock : Obligations.SilenceHasNoBlock := by
  intro s v hcap hbaud hparse hsilent
  have hfind : findTriple (s.clearDemod.setView v).sample (s.clearDemod.setView v).view.count.toNat
      (s.clearDemod.setView v).smpPos.toNat = none :=
    findTriple_silent _ _ _ fun i _ hi => (exceeds_eq_false_iff _).2 (hsilent i hi)
  have hexec : exec .demodulate s =
      .next (State.raiseOut { s.clearDemod.setView v with smpPos := v.count, inBlock := false } ⟨.lengthMismatch, 4⟩) := by
    rw [exec_demodulate_of_parse_ok hcap hbaud hparse, demodLoop_of_eof hfind rfl]
    exact congrArg _ (finishDemod_of_envCheck_some rfl)
  obtain ⟨hfailed, hlen⟩ := State.raiseOut_failedWith
    { s.clearDemod.setView v with smpPos := v.count, inBlock := false } ⟨.lengthMismatch, 4⟩
  exact ⟨_, hexec, hfailed, hlen, rfl, rfl, ⟨rfl, rfl, rfl, rfl, rfl, rfl, rfl⟩⟩

end Sys2Proof.Machine
end

section
/-! PROOFS. Errors and input: the errors each command can report, that a failed command fails again, and that no byte
beyond IN_LEN matters: O41, O43, O44 (spec/60_exceptions.md R262, R268; spec/20_memory.md R73). -/

namespace Sys2Proof.Machine

/-! ### The errors of each command (60_exceptions.md R262) -/

/-- A report a command may leave: success, or an error of its list. -/
def Reports (i : Instr) (t : State) : Prop :=
  (t.err = false ∧ t.errCode = 0 ∧ t.errDetail = 0) ∨ (t.err = true ∧ (t.errCode, t.errDetail) ∈ mayRaise i)

section
variable {i : Instr} (u : State)

theorem reports_succeed : Reports i u.succeed := .inl ⟨rfl, rfl, rfl⟩

theorem reports_raise {e : Err} (h : (e.kind.code, e.detail) ∈ mayRaise i) : Reports i (u.raise e) := .inr ⟨rfl, h⟩

theorem reports_raiseOut {e : Err} (h : (e.kind.code, e.detail) ∈ mayRaise i) : Reports i (u.raiseOut e) :=
  .inr ⟨rfl, h⟩

theorem reports_yieldOut (r : List Byte) : Reports i (u.yieldOut r) := .inl ⟨rfl, rfl, rfl⟩

end

theorem mayRaise_malformed : ∀ d : BitVec 4, 1 ≤ d.toNat → d.toNat ≤ 8 →
    ∀ i ∈ [Instr.openView, .demodulate], (ErrKind.malformedContainer.code, d) ∈ mayRaise i := by decide

theorem mayRaise_unsupported : ∀ d : BitVec 4, 1 ≤ d.toNat → d.toNat ≤ 3 →
    ∀ i ∈ [Instr.openView, .demodulate], (ErrKind.unsupportedFormat.code, d) ∈ mayRaise i := by decide

theorem mayRaise_configInvalid : ∀ d : BitVec 4, 1 ≤ d.toNat → d.toNat ≤ 4 →
    (ErrKind.configInvalid.code, d) ∈ mayRaise .modulate := by decide

theorem mayRaise_parse {b : List Byte} {e : Err} (h : parse b = .error e) :
    ∀ i ∈ [Instr.openView, .demodulate], (e.kind.code, e.detail) ∈ mayRaise i := by
  rcases parse_error b e h with ⟨hk, hlo, hhi⟩ | ⟨hk, hlo, hhi⟩ <;> rw [hk]
  · exact mayRaise_malformed _ hlo hhi
  · exact mayRaise_unsupported _ hlo hhi

theorem mayRaise_envCheck {b : List Byte} {e : Err} (h : envCheck b = some e) :
    ∀ i ∈ [Instr.unwrap, .demodulate], (e.kind.code, e.detail) ∈ mayRaise i := by
  rcases envCheck_error b e h with rfl | rfl | rfl | rfl <;> decide

theorem finishDemod_reports {t : State} {stream : Option Err}
    (h : ∀ e, stream = some e → (e.kind.code, e.detail) ∈ mayRaise .demodulate) :
    Reports .demodulate (finishDemod t stream) := by
  rcases finishDemod_cases t stream with ⟨e, hfin, he⟩ | ⟨hfin, -⟩ <;> rw [hfin]
  · refine reports_raiseOut t ?_
    rcases he with he | ⟨-, he⟩ | ⟨-, -, -, rfl⟩
    · exact h e he
    · exact mayRaise_envCheck he _ (by decide)
    · decide
  · exact reports_yieldOut t _

theorem exec_reports {i : Instr} {s t : State} (ht : exec i s = .next t) : Reports i t := by
  cases i with
  | nop =>
    cases ht
    exact .inl ⟨rfl, rfl, rfl⟩
  | wrap =>
    rcases execWrap_cases s with ⟨e, h, he⟩ | ⟨h, -⟩ <;> cases h.symm.trans ht
    · refine reports_raiseOut s ?_
      rcases he with rfl | rfl | rfl <;> decide
    · exact reports_yieldOut s _
  | unwrap =>
    rcases execUnwrap_cases s with ⟨e, h, he⟩ | ⟨h, -⟩ <;> cases h.symm.trans ht
    · refine reports_raiseOut s ?_
      rcases he with rfl | he | rfl
      · decide
      · exact mayRaise_envCheck he _ (by decide)
      · decide
    · exact reports_yieldOut s _
  | modulate =>
    rcases execModulate_cases s with ⟨e, h, he⟩ | ⟨n, d, -, ⟨h, -⟩ | ⟨c, -, h, -⟩⟩ <;> cases h.symm.trans ht
    · refine reports_raiseOut s ?_
      rcases modulateConfig_error _ _ _ he with rfl | ⟨hk, hlo, hhi⟩
      · decide
      · rw [hk]
        exact mayRaise_configInvalid _ hlo hhi
    · exact reports_raiseOut _ (by decide)
    · exact reports_yieldOut _ _
  | demodulate =>
    rcases execDemodulate_cases s with ⟨e, h, he⟩ | ⟨v, -, -, -, h⟩ <;> cases h.symm.trans ht
    · refine reports_raiseOut _ ?_
      rcases he with rfl | rfl | he
      · decide
      · decide
      · exact mayRaise_parse he _ (by decide)
    · refine finishDemod_reports fun e he => ?_
      rcases demodLoop_error _ _ _ he with rfl | rfl <;> decide
  | openView =>
    rcases execOpen_cases s with ⟨e, h, he⟩ | ⟨v, h, -⟩ <;> cases h.symm.trans ht
    · refine reports_raise _ ?_
      rcases he with rfl | he
      · decide
      · exact mayRaise_parse he _ (by decide)
    · exact reports_succeed _
  | seek =>
    rcases execSeek_cases s with ⟨h, -⟩ | ⟨h, -⟩ <;> cases h.symm.trans ht
    · exact reports_raise s (by decide)
    · exact reports_succeed _
  | read =>
    rcases execRead_cases s with ⟨h, -⟩ | ⟨h, -⟩ <;> cases h.symm.trans ht
    · exact reports_raise s (by decide)
    · exact reports_succeed _
  | reserved8 | reserved9 | reservedA | reservedB | reservedC | reservedD | reservedE =>
    cases (exec_reserved s _ (by decide)).symm.trans ht
    exact reports_raise s (by decide)
  | reset =>
    cases ht
    exact .inl ⟨rfl, rfl, rfl⟩
  | illegal r o =>
    cases (exec_illegal r o s).symm.trans ht
    exact reports_raise s (List.mem_singleton_self _)

/-! ### FIND looks at the samples below the count only -/

theorem leastIn_congr {p q : Nat → Bool} {start stop : Nat} (h : ∀ i < stop, p i = q i) :
    leastIn p start stop = leastIn q start stop := by
  refine Option.ext fun i => ?_
  rw [leastIn_eq_some, leastIn_eq_some]
  constructor
  · rintro ⟨hlo, hhi, hp, hfirst⟩
    exact ⟨hlo, hhi, (h i hhi).symm.trans hp, fun j hj hji => (h j (hji.trans hhi)).symm.trans (hfirst j hj hji)⟩
  · rintro ⟨hlo, hhi, hq, hfirst⟩
    exact ⟨hlo, hhi, (h i hhi).trans hq, fun j hj hji => (h j (hji.trans hhi)).trans (hfirst j hj hji)⟩

theorem findTriple_of_agree {f g : Nat → Rat} {count p : Nat} (h : ∀ i < count, f i = g i) {r : Nat × Nat × Nat}
    (hf : findTriple f count p = some r) : findTriple g count p = some r := by
  obtain ⟨a, m, e⟩ := r
  obtain ⟨-, ham, hme, hcount⟩ := findTriple_bounds _ _ _ _ _ _ hf
  obtain ⟨ha, hm, he⟩ := findTriple_eq_some_iff.1 hf
  have hstart : f a = g a := h a (by omega)
  refine findTriple_eq_some_iff.2 ⟨(leastIn_congr fun i hi => ?_).trans ha, (leastIn_congr fun i hi => ?_).trans hm,
    (leastIn_congr fun i hi => ?_).trans he⟩
  · rw [h i hi]
  · rw [hstart, h i hi]
  · rw [hstart, h i hi]

theorem findTriple_congr {f g : Nat → Rat} {count : Nat} (h : ∀ i < count, f i = g i) (p : Nat) :
    findTriple f count p = findTriple g count p :=
  Option.ext fun _ => ⟨findTriple_of_agree h, findTriple_of_agree fun i hi => (h i hi).symm⟩

/-! ### The demodulator's own fields -/

/-- The demodulator's own fields as in `s`, all others as in `o`. -/
def State.within (s o : State) : State :=
  { o with
    view := s.view
    smpPos := s.smpPos
    inBlock := s.inBlock
    halfUnits := s.halfUnits
    workingByte := s.workingByte
    cycStart := s.cycStart
    cycLen := s.cycLen
    demodBytes := s.demodBytes
    bytes := s.bytes }

theorem DemodFrame.eq_within {s t : State} (h : DemodFrame s t) : t = t.within s := by
  simp only [State.within, ← h.par, ← h.ie, ← h.done, ← h.err, ← h.rej, ← h.errCode, ← h.errDetail, ← h.arg, ← h.inLen,
    ← h.outLen, ← h.sampleRate, ← h.baudRate, ← h.syncMs, ← h.modCfg, ← h.smpRaw, ← h.seq, ← h.tone0, ← h.tone1,
    ← h.inBuf, ← h.outBuf, ← h.pending, ← h.readData, ← h.draws]

theorem DemodFrame.snap {s t : State} (h : DemodFrame s t) : t.snap = s.snap := by
  rw [State.snap, h.seq, h.liveSnap, State.snap]

theorem State.sample_congr {s t : State} (hview : t.view = s.view) (hbuf : t.inBuf = s.inBuf) : t.sample = s.sample := by
  funext i
  rw [State.sample, hview, hbuf, State.sample]

section
variable (s o : State)

theorem completeByte_within : (s.within o).completeByte = s.completeByte.within o := by
  by_cases h : s.halfUnits = 18
  · rw [State.completeByte_of_full h, State.completeByte_of_full (s := s.within o) h]
    rfl
  · rw [State.completeByte_of_partial h, State.completeByte_of_partial (s := s.within o) h]

theorem sync_within (low : Bool) : sync low (s.within o) = (sync low s).map (State.within · o) := by
  by_cases h0 : s.halfUnits = 0
  · cases low with
    | false => rw [sync_high_of_zero h0, sync_high_of_zero (s := s.within o) h0]; rfl
    | true => rw [sync_low_of_zero h0, sync_low_of_zero (s := s.within o) h0]; rfl
  · rcases Nat.mod_two_eq_zero_or_one s.halfUnits.toNat with hparity | hparity <;> cases low
    case inl.false =>
      rw [sync_high_of_even h0 hparity, sync_high_of_even (s := s.within o) h0 hparity]
      exact congrArg Except.ok (completeByte_within { s with halfUnits := s.halfUnits + 1 } o)
    case inl.true =>
      rw [sync_low_of_even h0 hparity, sync_low_of_even (s := s.within o) h0 hparity]
      exact congrArg Except.ok (completeByte_within
        { s with halfUnits := s.halfUnits + 2, workingByte := s.workingByte >>> 1 } o)
    case inr.false =>
      rw [sync_high_of_odd hparity, sync_high_of_odd (s := s.within o) hparity]
      exact congrArg Except.ok (completeByte_within
        { s with halfUnits := s.halfUnits + 1, workingByte := (s.workingByte >>> 1) ||| 0x80 } o)
    case inr.true => rw [sync_low_of_odd hparity, sync_low_of_odd (s := s.within o) hparity]; rfl

theorem detect_within (hsample : ∀ i < s.view.count.toNat, (s.within o).sample i = s.sample i) :
    detect (s.within o) = ((detect s).1, (detect s).2.within o) := by
  have hfind := findTriple_congr hsample s.smpPos.toNat
  cases hf : findTriple s.sample s.view.count.toNat s.smpPos.toNat with
  | none =>
    rw [detect_none s hf, detect_none (s.within o) (hfind.trans hf)]
    rfl
  | some r =>
    obtain ⟨a, m, e⟩ := r
    rw [detect_some s a m e hf, detect_some (s.within o) a m e (hfind.trans hf)]
    rfl

theorem consume_within (hbaud : o.snap.baudRate = s.snap.baudRate) (was : Bool) (ev : Event) :
    consume was ev (s.within o) = (consume was ev s).map (State.within · o) := by
  have hsnap : (s.within o).snap = o.snap := rfl
  cases ev with
  | eof => rfl
  | sob a l => rfl
  | cycle a l =>
    cases was with
    | false => rfl
    | true =>
      simp only [consume, if_true, hsnap, hbaud]
      exact sync_within s o _
  | eob =>
    cases was with
    | false => rfl
    | true =>
      simp only [consume, if_true]
      by_cases h0 : s.halfUnits = 0
      · rw [if_pos h0, if_pos (show (s.within o).halfUnits = 0 from h0)]
        rfl
      · rw [if_neg h0, if_neg (show (s.within o).halfUnits ≠ 0 from h0)]
        rfl

end

/-- The loop depends on its own fields, the samples below the count and the baud rate. -/
theorem demodLoop_within (fuel : Nat) (s o : State)
    (hsample : ∀ i < s.view.count.toNat, (s.within o).sample i = s.sample i)
    (hbaud : o.snap.baudRate = s.snap.baudRate) :
    demodLoop fuel (s.within o) = ((demodLoop fuel s).1.within o, (demodLoop fuel s).2) := by
  induction fuel generalizing s with
  | zero => rfl
  | succ n ih =>
    have hdet := detect_within s o hsample
    have hframe := detect_frame s
    have hconsume : consume (s.within o).inBlock (detect (s.within o)).1 (detect (s.within o)).2 =
        (consume s.inBlock (detect s).1 (detect s).2).map (State.within · o) := by
      rw [hdet]
      exact consume_within (detect s).2 o (by rw [hframe.snap, hbaud]) s.inBlock (detect s).1
    cases hc : consume s.inBlock (detect s).1 (detect s).2 with
    | error e =>
      rw [demodLoop_of_error hc, demodLoop_of_error (hconsume.trans (congrArg _ hc)), hdet]
    | ok s2 =>
      have hc' := hconsume.trans (congrArg _ hc)
      have hev : (detect (s.within o)).1 = (detect s).1 := by rw [hdet]
      cases hend : (detect s).1.ends with
      | true => rw [demodLoop_of_end hc hend, demodLoop_of_end hc' (hev ▸ hend)]
      | false =>
        have hframe2 := hframe.trans (consume_frame _ _ _ _ hc).1
        have hsample2 : s2.sample = s.sample := State.sample_congr hframe2.view hframe2.inBuf
        have hsample2' : (s2.within o).sample = (s.within o).sample := State.sample_congr hframe2.view rfl
        rw [demodLoop_of_round hc hend, demodLoop_of_round hc' (hev ▸ hend)]
        refine ih s2 (fun i hi => ?_) (by rw [hframe2.snap, hbaud])
        rw [hsample2, hsample2', hsample i (hframe2.view ▸ hi)]

/-! ### Commands as functions of their input (20_memory.md R73) -/

/-- DEMODULATE's end depends on OUT_CAP and the bytes received. -/
theorem finishDemod_congr {t u : State} (hpar : u.par = t.par) (hbytes : u.bytes = t.bytes) (stream : Option Err) :
    ∃ r, finishDemod t stream = t.finishOut r ∧ finishDemod u stream = u.finishOut r := by
  cases stream with
  | some e => exact ⟨.error e, rfl, rfl⟩
  | none =>
    cases hc : envCheck t.bytes with
    | some e => exact ⟨.error e, finishDemod_of_envCheck_some hc, finishDemod_of_envCheck_some (hbytes ▸ hc)⟩
    | none =>
      have hc' : envCheck u.bytes = none := hbytes ▸ hc
      rcases lt_or_ge t.par.outCap t.bytes.length with hlen | hlen
      · exact ⟨.error _, finishDemod_of_outCap_lt hc hlen, finishDemod_of_outCap_lt hc' (hbytes ▸ hpar ▸ hlen)⟩
      · exact ⟨.ok _, finishDemod_of_fits hc hlen, hbytes ▸ finishDemod_of_fits hc' (hbytes ▸ hpar ▸ hlen)⟩

theorem codeAt_congr {m m' : Memory} {n : Nat} (h : ∀ a < n, m.read a = m'.read a) {base count : Nat} {depth : Depth}
    (hfits : base + count * depth.bytes ≤ n) {i : Nat} (hi : i < count) :
    codeAt m base depth i = codeAt m' base depth i := by
  cases depth with
  | eight =>
    have : base + count * 1 ≤ n := hfits
    rw [codeAt, codeAt, h _ (by omega)]
  | sixteen =>
    have : base + count * 2 ≤ n := hfits
    rw [codeAt, codeAt, h _ (by omega), h (base + 2 * i + 1) (by omega)]

/-- What a command does once its input is known: it does not look at IN, it ends, and its report does not depend on the
state. -/
structure InputAction (f : State → State) : Prop where
  inBuf : ∀ x m, f { x with inBuf := m } = { f x with inBuf := m }
  done : ∀ x, (f x).done = true
  idle : ∀ x, (f x).seq = .idle
  report : ∀ x y, (f y).err = (f x).err ∧ (f y).errCode = (f x).errCode ∧ (f y).errDetail = (f x).errDetail

theorem inputAction_raise {g : State → State} (hg : ∀ x m, g { x with inBuf := m } = { g x with inBuf := m }) (e : Err) :
    InputAction fun x => (g x).raise e :=
  ⟨fun x m => congrArg (State.raise · e) (hg x m), fun _ => rfl, fun _ => rfl,
    fun _ _ => ⟨rfl, rfl, rfl⟩⟩

theorem inputAction_succeed {g : State → State} (hg : ∀ x m, g { x with inBuf := m } = { g x with inBuf := m }) :
    InputAction fun x => (g x).succeed :=
  ⟨fun x m => congrArg State.succeed (hg x m), fun _ => rfl, fun _ => rfl,
    fun _ _ => ⟨rfl, rfl, rfl⟩⟩

theorem inputAction_finishOut {g : State → State} (hg : ∀ x m, g { x with inBuf := m } = { g x with inBuf := m })
    (r : Except Err (List Byte)) : InputAction fun x => (g x).finishOut r := by
  cases r with
  | error e =>
    exact ⟨fun x m => congrArg (State.raiseOut · e) (hg x m), fun _ => rfl, fun _ => rfl, fun _ _ => ⟨rfl, rfl, rfl⟩⟩
  | ok bs =>
    exact ⟨fun x m => congrArg (State.yieldOut · bs) (hg x m), fun _ => rfl, fun _ => rfl, fun _ _ => ⟨rfl, rfl, rfl⟩⟩

/-- The command does one and the same thing to both states. -/
def ActsAlike (i : Instr) (s u : State) : Prop :=
  ∃ f, InputAction f ∧ exec i s = .next (f s) ∧ exec i u = .next (f u)

section
variable {s u : State} (hsnap : u.snap = s.snap) (hpar : u.par = s.par)
  (hread : ∀ a < s.snap.inLen.toNat, u.inBuf.read a = s.inBuf.read a)
include hsnap hpar hread

omit hsnap hpar in
theorem input_congr : u.input s.snap.inLen.toNat = s.input s.snap.inLen.toNat :=
  Memory.readRange_congr _ _ _ _ fun i hi => by rw [Nat.zero_add, hread i hi]

theorem actsAlike_envelope : ∀ i ∈ [Instr.wrap, .unwrap], ActsAlike i s u := by
  intro i hi
  obtain ⟨r, hs, hu⟩ := exec_envelope_congr (s := s) (u := u) rfl (by rw [hsnap]) hpar.symm (input_congr hread).symm i hi
  exact ⟨(·.finishOut r), inputAction_finishOut (g := id) (fun _ _ => rfl) r, hs, hu⟩

theorem actsAlike_modulate : ActsAlike .modulate s u := by
  have hinput := input_congr hread
  cases hconf : modulateConfig s.par s.snap with
  | error e =>
    refine ⟨(·.raiseOut e), inputAction_finishOut (g := id) (fun _ _ => rfl) (.error e),
      exec_modulate_of_config_error hconf, exec_modulate_of_config_error ?_⟩
    rw [hpar, hsnap, hconf]
  | ok c =>
    obtain ⟨n, depth⟩ := c
    have hconf' : modulateConfig u.par u.snap = .ok (n, depth) := by rw [hpar, hsnap, hconf]
    rcases lt_or_ge s.par.outCap (44 + n * (leaderCycles s.snap.sampleRate.toNat s.snap.syncMs.toNat n +
      12 * s.snap.inLen.toNat) * depth.bytes) with hlen | hlen
    · exact ⟨fun x => x.dropTones.raiseOut _, inputAction_finishOut (g := State.dropTones) (fun _ _ => rfl) (.error _),
        exec_modulate_of_outCap_lt hconf rfl hlen,
        exec_modulate_of_outCap_lt hconf' rfl (by rw [hpar, hsnap]; exact hlen)⟩
    · refine ⟨fun x => x.dropTones.yieldOut _, inputAction_finishOut (g := State.dropTones) (fun _ _ => rfl) (.ok _),
        exec_modulate_of_fits hconf rfl hlen,
        (exec_modulate_of_fits hconf' rfl (by rw [hpar, hsnap]; exact hlen)).trans ?_⟩
      simp only [State.modulatedCodes, hpar, hsnap, hinput]
      rfl

theorem actsAlike_openView : ActsAlike .openView s u := by
  have hinput := input_congr hread
  rcases lt_or_ge s.par.inCap s.snap.inLen.toNat with h | hcap
  · exact ⟨fun x => x.closeView.raise _, inputAction_raise (g := State.closeView) (fun _ _ => rfl) _,
      exec_openView_of_inCap_lt h, exec_openView_of_inCap_lt (by rwa [hpar, hsnap])⟩
  have hcap' : u.snap.inLen.toNat ≤ u.par.inCap := by rwa [hpar, hsnap]
  have hparse' : parse (u.input u.snap.inLen.toNat) = parse (s.input s.snap.inLen.toNat) := by rw [hsnap, hinput]
  cases hparse : parse (s.input s.snap.inLen.toNat) with
  | error e =>
    exact ⟨fun x => x.closeView.raise e, inputAction_raise (g := State.closeView) (fun _ _ => rfl) _,
      exec_openView_of_parse_error hcap hparse, exec_openView_of_parse_error hcap' (hparse'.trans hparse)⟩
  | ok v =>
    exact ⟨fun x => (x.setView v).succeed, inputAction_succeed (g := (State.setView · v)) fun _ _ => rfl,
      exec_openView_of_parse_ok hcap hparse, exec_openView_of_parse_ok hcap' (hparse'.trans hparse)⟩

omit hsnap hpar in
/-- A parsed view lies inside the input, so its samples are the same in both states. -/
theorem sample_setView_within {v : View} (hparse : parse (s.input s.snap.inLen.toNat) = .ok v) {i : Nat}
    (hi : i < v.count.toNat) :
    ((s.clearDemod.setView v).within u).sample i = (s.clearDemod.setView v).sample i := by
  obtain ⟨hfits, -⟩ := parse_ok _ _ hparse
  rw [State.length_input] at hfits
  cases v with
  | closed => rfl
  | opened base depth count rate => exact congrArg (norm depth) (codeAt_congr hread hfits hi)

/-- What DEMODULATE leaves, when its PARSE succeeds. -/
theorem exec_demodulate_within {v : View} (hcap : s.snap.inLen.toNat ≤ s.par.inCap) (hbaud : s.snap.baudRate ≠ 0)
    (hparse : parse (s.input s.snap.inLen.toNat) = .ok v) :
    exec .demodulate u = .next (finishDemod
      ((demodLoop (v.count.toNat + 1) (s.clearDemod.setView v)).1.within u)
      (demodLoop (v.count.toNat + 1) (s.clearDemod.setView v)).2) := by
  have hloop := demodLoop_within (v.count.toNat + 1) (s.clearDemod.setView v) u
    (fun _ hi => sample_setView_within hread hparse hi) (congrArg Snapshot.baudRate hsnap)
  have hparse' : parse (u.input u.snap.inLen.toNat) = .ok v := by rw [hsnap, input_congr hread, hparse]
  rw [exec_demodulate_of_parse_ok (by rwa [hpar, hsnap]) (by rwa [hsnap]) hparse',
    show u.clearDemod.setView v = (s.clearDemod.setView v).within u from rfl, hloop]

theorem actsAlike_demodulate : ActsAlike .demodulate s u := by
  have early (e : Err) : InputAction fun x => x.clearDemod.closeView.raiseOut e :=
    inputAction_finishOut (g := fun x => x.clearDemod.closeView) (fun _ _ => rfl) (.error e)
  rcases lt_or_ge s.par.inCap s.snap.inLen.toNat with h | hcap
  · exact ⟨_, early _, exec_demodulate_of_inCap_lt h, exec_demodulate_of_inCap_lt (by rwa [hpar, hsnap])⟩
  have hcap' : u.snap.inLen.toNat ≤ u.par.inCap := by rwa [hpar, hsnap]
  by_cases hbaud : s.snap.baudRate = 0
  · exact ⟨_, early _, exec_demodulate_of_baudRate_zero hcap hbaud,
      exec_demodulate_of_baudRate_zero hcap' (by rwa [hsnap])⟩
  cases hparse : parse (s.input s.snap.inLen.toNat) with
  | error e =>
    refine ⟨_, early e, exec_demodulate_of_parse_error hcap hbaud hparse,
      exec_demodulate_of_parse_error hcap' (by rwa [hsnap]) ?_⟩
    rw [hsnap, input_congr hread, hparse]
  | ok v =>
    have hs := exec_demodulate_within (u := s) rfl rfl (fun _ _ => rfl) hcap hbaud hparse
    have hu := exec_demodulate_within hsnap hpar hread hcap hbaud hparse
    generalize demodLoop (v.count.toNat + 1) (s.clearDemod.setView v) = loop at hs hu
    obtain ⟨t, stream⟩ := loop
    obtain ⟨r, hrs, hru⟩ := finishDemod_congr (t := t.within s) (u := t.within u) hpar rfl stream
    exact ⟨fun x => (t.within x).finishOut r, inputAction_finishOut (g := t.within) (fun _ _ => rfl) r,
      hs.trans (congrArg _ hrs), hu.trans (congrArg _ hru)⟩

/-- A command that takes its input from IN acts alike on two states that agree in the capacities, the configuration and
the bytes of IN below IN_LEN. -/
theorem actsAlike_input : ∀ i ∈ [Instr.wrap, .unwrap, .modulate, .demodulate, .openView], ActsAlike i s u := by
  have henvelope := actsAlike_envelope hsnap hpar hread
  simp only [List.forall_mem_cons, List.not_mem_nil, false_imp_iff, implies_true, and_true] at henvelope ⊢
  obtain ⟨hwrap, hunwrap⟩ := henvelope
  exact ⟨hwrap, hunwrap, actsAlike_modulate hsnap hpar hread, actsAlike_demodulate hsnap hpar hread,
    actsAlike_openView hsnap hpar hread⟩

end

/-! ### A failed command issued again (60_exceptions.md R268) -/

/-- A command that made the sequencer Busy finds the registers of its snapshot again. -/
theorem snap_of_exec {op : Op} {s t : State} (hlive : s.snap = s.liveSnap) (ht : exec op.instr s = .next t) :
    t.snap = s.snap := by
  have hframe := exec_frame op.instr s t (by cases op <;> decide) ht
  rw [State.snap, exec_op_idle op s t ht, hlive, ← hframe.liveSnap]

/-- A failed command does to the state it left what it did before. -/
theorem actsAlike_of_failed {i : Instr} {s t : State} (hlive : s.snap = s.liveSnap) (ht : exec i s = .next t)
    (herr : t.err = true) : ActsAlike i s t := by
  have hraise (e : Err) : InputAction (State.raise · e) := inputAction_raise (g := id) (fun _ _ => rfl) e
  have hinput (op : Op) (hop : op.instr = i) (hi : i ∈ [Instr.wrap, .unwrap, .modulate, .demodulate, .openView]) :
      ActsAlike i s t := by
    subst hop
    have hframe := exec_frame op.instr s t (ne_reset_of_failed ht herr) ht
    exact actsAlike_input (snap_of_exec hlive ht) hframe.par (fun _ _ => by rw [hframe.inBuf]) _ hi
  cases i with
  | nop =>
    cases ht
    cases herr
  | wrap => exact hinput .wrap rfl (by decide)
  | unwrap => exact hinput .unwrap rfl (by decide)
  | modulate => exact hinput .modulate rfl (by decide)
  | demodulate => exact hinput .demodulate rfl (by decide)
  | openView => exact hinput .openView rfl (by decide)
  | seek =>
    have hsnap : t.snap = s.snap := snap_of_exec (op := .seek) hlive ht
    rcases execSeek_cases s with ⟨h, hrange⟩ | ⟨h, -⟩ <;> cases h.symm.trans ht
    · exact ⟨_, hraise _, h, exec_seek_of_count_le (by rw [hsnap]; exact hrange)⟩
    · cases herr
  | read =>
    rcases execRead_cases s with ⟨h, hnone⟩ | ⟨h, -⟩ <;> cases h.symm.trans ht
    · exact ⟨_, hraise _, h, exec_read_of_no_sample hnone⟩
    · cases herr
  | reserved8 | reserved9 | reservedA | reservedB | reservedC | reservedD | reservedE =>
    exact ⟨_, hraise _, exec_reserved s _ (by decide), exec_reserved t _ (by decide)⟩
  | reset => exact absurd rfl (ne_reset_of_failed ht herr)
  | illegal r o => exact ⟨_, hraise _, exec_illegal r o s, exec_illegal r o t⟩

/-! ### The obligations -/

/-- Settles O41. -/
theorem whatEachCommandRaises : Obligations.WhatEachCommandRaises := by
  intro i s t ht
  have hreports := exec_reports ht
  refine ⟨fun herr => ?raised, fun herr => ?succeeded, fun hi => ?never⟩
  case raised =>
    rcases hreports with ⟨hno, -⟩ | ⟨-, hmem⟩
    · cases hno.symm.trans herr
    · exact hmem
  case succeeded =>
    rcases hreports with ⟨-, hcodes⟩ | ⟨hyes, -⟩
    · exact hcodes
    · cases hyes.symm.trans herr
  case never =>
    rcases hi with rfl | rfl <;> cases ht <;> rfl

/-- Settles O44: the command does to the state with the other memory what it does to this one. -/
theorem commandsReadOnlyTheirInput : Obligations.CommandsReadOnlyTheirInput := by
  intro s t m i hi hread ht
  obtain ⟨f, hf, hs, hu⟩ := actsAlike_input (s := s) (u := { s with inBuf := m }) rfl rfl hread i hi
  cases hs.symm.trans ht
  rw [hu, hf.inBuf]

/-- Settles O43: a failed command acts alike on the state it left, and the report of its action is one. -/
theorem reissueGivesTheSameError : Obligations.ReissueGivesTheSameError := by
  intro i s t hlive ht herr
  obtain ⟨f, hf, hs, hu⟩ := actsAlike_of_failed hlive ht herr
  cases hs.symm.trans ht
  obtain ⟨herr', hcode, hdetail⟩ := hf.report s (f s)
  exact ⟨_, hu, hf.done _, herr'.trans herr, hcode, hdetail, hf.idle _⟩

end Sys2Proof.Machine
end
